-- ==== Sys2Proof/Word.lean ====
section
/-! DEFINITION. The word types of SCD41-CVS: a byte is a u8 and a word is a u16 (00_scope.md R9). -/

namespace Sys2Proof

/-- A u8: one byte of a frame or of a response (R9). -/
abbrev Byte := BitVec 8

/-- A u16: a data word, a command opcode or an FRC target (R9). -/
abbrev Word := BitVec 16

end Sys2Proof
end

