-- ==== Sys2Proof/Machine/Checksum.lean ====
section
/-! DEFINITION. The Checksum Engine and the group validator (40_checksum.md R78 to R81): pure functions, which read
no register (R80). -/

namespace Sys2Proof.Machine

/-- CRC_SEED (00_scope.md R7). -/
def crcSeed : Byte := 0xFF#8

/-- CRC_POLY (R7). -/
def crcPoly : Byte := 0x31#8

/-- One of the eight iterations of `crc_step`: the shift first, then the XOR if bit 7 was set (R78). -/
def crcShift (a : Byte) : Byte :=
  if a.getLsbD 7 then (a <<< 1) ^^^ crcPoly else a <<< 1

/-- `n` iterations of R78's loop. -/
def crcShifts : Nat → Byte → Byte
  | 0, a => a
  | n + 1, a => crcShifts n (crcShift a)

/-- `crc_step`: one byte folded into the accumulator (R78). -/
def crcStep (acc b : Byte) : Byte := crcShifts 8 (acc ^^^ b)

/-- The fold of R79's loop, from any accumulator. -/
def crcFold (acc : Byte) : List Byte → Byte
  | [] => acc
  | b :: bs => crcFold (crcStep acc b) bs

/-- `crc8`: the checksum of a whole sequence, from a fresh seed (R79). -/
def crc8 (s : List Byte) : Byte := crcFold crcSeed s

/-- `group_ok`: whether a response group is valid (R81). -/
def groupOk (g0 g1 g2 : Byte) : Bool := crc8 [g0, g1] = g2

end Sys2Proof.Machine
end

