-- ==== Sys2Proof/Syntax.lean ====
section
/-! DEFINITION. The instructions of SCD41-CVS: the twelve host requests (30_encoding.md R63) and the eight wire
frames (R58), one constructor for each row of spec/opcode_table.json. -/

namespace Sys2Proof

/-- The eight sensor commands of 30_encoding.md R58. -/
inductive Command where
  | getVariant
  | selfTest
  | getDrdy
  | readMeas
  | measSingle
  | startPeriodic
  | stopPeriodic
  | frc
  deriving DecidableEq, Repr

/-- One instruction. A request carries the operands REQ gives it (R64); a frame carries the bytes the table leaves
open, which only the forced-recalibration frame has (R60). -/
inductive Instr where
  /-- CRC_INIT (R83). -/
  | crcInit
  /-- CRC_FEED of the byte B (R84). -/
  | crcFeed (b : Byte)
  /-- GET_VARIANT (R102). -/
  | getVariant
  /-- SELF_TEST (R103). -/
  | selfTest
  /-- GET_DRDY (R104). -/
  | getDrdy
  /-- READ_MEAS (R105). -/
  | readMeas
  /-- MEAS_SINGLE (R110). -/
  | measSingle
  /-- START_PERIODIC (R111). -/
  | startPeriodic
  /-- STOP_PERIODIC (R112). -/
  | stopPeriodic
  /-- FRC to the target T (R109). -/
  | frc (target : Word)
  /-- POLL_READY (R127). -/
  | pollReady
  /-- SESSION, with OL = 1 in only-last mode (R144). -/
  | session (onlyLast : Bool)
  /-- The frame 20 2F (R91). -/
  | frameGetVariant
  /-- The frame 36 39 (R92). -/
  | frameSelfTest
  /-- The frame E4 B8 (R93). -/
  | frameGetDrdy
  /-- The frame EC 05 (R94). -/
  | frameReadMeas
  /-- The frame 21 9D (R95). -/
  | frameMeasSingle
  /-- The frame 21 B1 (R96). -/
  | frameStartPeriodic
  /-- The frame 3F 86 (R97). -/
  | frameStopPeriodic
  /-- The frame 36 2F T_HI T_LO CK (R60, R98). -/
  | frameFrc (target : Word) (ck : Byte)
  deriving DecidableEq, Repr

end Sys2Proof
end

