-- ==== Sys2Proof/Config.lean ====
section
/-! DEFINITION. What the spec leaves open: the parameters of 00_scope.md R8, as plain data, and the free values, as
opaque constants with no body, so that nothing can be proved of the value of one. -/

namespace Sys2Proof

/-- The registers a host may name (10_state.md R22 to R26). MEASURING and SHUTDOWN are read through STATUS and by the
observer. -/
inductive HostReg where
  | req | term | status | err | errInfo | acc | word | drdy | corr | co2 | tRaw | rhRaw | ts
  deriving DecidableEq, Repr

/-- A positive number, `pred + 1`. -/
structure Positive where
  pred : Nat
  deriving DecidableEq, Repr, Inhabited

/-- The number itself. -/
def Positive.val (n : Positive) : Nat := n.pred + 1

/-- T_EXEC(cmd), the mandated wait of each command: a duration of 0 or more (R8, D15). DESIGN CHOICE: each is a whole
number of the model's ticks, as every duration here is (log entry 14). -/
structure TExec where
  getVariant : Nat
  selfTest : Nat
  getDrdy : Nat
  readMeas : Nat
  measSingle : Nat
  startPeriodic : Nat
  stopPeriodic : Nat
  frc : Nat
  deriving DecidableEq, Repr, Inhabited

/-- The open parameters of R8. They are the machine's configuration: no step writes them (R36). -/
structure Params where
  /-- I2C_ADDR, the sensor's 7-bit bus address (D16). -/
  i2cAddr : BitVec 7
  /-- T_EXEC, one duration for each command (D15). -/
  tExec : TExec
  /-- The scale of the durations: how many of the model's ticks one second has. DESIGN CHOICE: the tick, of any length
  (log entry 14). -/
  ticksPerSecond : Positive
  /-- CLOCK_UNIT, a positive duration: how many ticks one unit has (D13; log entry 14). -/
  clockUnit : Positive
  /-- CLOCK_W, the width of TERM in bits (D13; log entry 15). -/
  clockW : Nat
  /-- VARIANT_OK, as the list of the variant words that pass (D17; log entry 13). -/
  variantOk : List Word
  /-- EMIT_LAST_ON_ABORT (D11). -/
  emitLastOnAbort : Bool
  /-- HOST_REG_ADDR, the register addresses of a wrapper that memory-maps the block (D6). -/
  hostRegAddr : List (HostReg × Nat)
  deriving DecidableEq, Repr, Inhabited

/-- The transport's answer to one `MemWrite` (20_memory.md R40): a count, `Err`, or no answer at all (law c). -/
inductive WriteAnswer where
  | ok (count : Nat)
  | err
  | never
  deriving DecidableEq, Repr, Inhabited

/-- The transport's answer to one `MemRead` (R40): bytes, `Err`, or no answer at all (law c). -/
inductive ReadAnswer where
  | ok (bytes : List Byte)
  | err
  | never
  deriving DecidableEq, Repr, Inhabited

/-- The parameters of this block: every one of them OPEN (R8; log entry 12). -/
opaque Config.params : Params

/-- The transport's answer to a write that no listed answer covers: a free value (R40; log entry 1). -/
opaque Config.freeWrite : Nat → WriteAnswer

/-- The transport's answer to a read that no listed answer covers: a free value (R40, R49; log entry 1). -/
opaque Config.freeRead : Nat → ReadAnswer

/-- How many units a clock sample lies past the earliest lawful one, when no listed distance covers it: a free value
(60_exceptions.md R160; log entry 3). -/
opaque Config.freeWait : Nat → Nat

end Sys2Proof
end

