-- ==== Sys2Proof/Machine/Operands.lean ====
section
/-! DEFINITION. Operand forms: byte order (20_memory.md R43, R44), the fields of REQ (30_encoding.md R62, R64), and the
values derived from a data word (R65). -/

namespace Sys2Proof.Machine

/-- `be16(b0, b1)`: the first byte on the wire is the high one (R43). -/
def be16 (b0 b1 : Byte) : Word := b0 ++ b1

/-- A word's high byte, v[15:8]. -/
def hiByte (w : Word) : Byte := w.extractLsb' 8 8

/-- A word's low byte, v[7:0]. -/
def loByte (w : Word) : Byte := w.extractLsb' 0 8

/-- REQ's field OP, bits 3:0 (R62). -/
def reqOp (r : BitVec 32) : BitVec 4 := r.extractLsb' 0 4

/-- REQ's field OL, bit 4 (R62). -/
def reqOL (r : BitVec 32) : Bool := r.getLsbD 4

/-- REQ's bits 15:5, which no request uses (R62). -/
def reqUnused (r : BitVec 32) : BitVec 11 := r.extractLsb' 5 11

/-- REQ's field ARG, bits 31:16: FRC's target T (R62, R64). -/
def reqArg (r : BitVec 32) : Word := r.extractLsb' 16 16

/-- ARG[7:0], bits 23:16: CRC_FEED's byte B (R64). -/
def reqByte (r : BitVec 32) : Byte := r.extractLsb' 16 8

/-- ARG[15:8], bits 31:24, which CRC_FEED must leave 0 (R62). -/
def reqArgHi (r : BitVec 32) : Byte := r.extractLsb' 24 8

/-- REQ[15:0], which an ILLEGAL error reports (10_state.md R25). -/
def reqLow (r : BitVec 32) : Word := r.extractLsb' 0 16

/-- DRDY: the word AND 0x07FF, as its low 11 bits (R65, 42_transactions.md R104). -/
def drdyOf (w : Word) : BitVec 11 := (w &&& 0x07FF#16).extractLsb' 0 11

/-- CORR: (toInt(w) - 0x8000)[15:0], two's complement (42_transactions.md R109). -/
def corrOf (w : Word) : Word := w - 0x8000#16

/-- The correction as an Int, word - 0x8000 (R65). -/
def corrInt (w : Word) : Int := (w.toNat : Int) - 0x8000

/-- Group k's offset in RXBUF, 3*(k-1) (20_memory.md R47, 42_transactions.md R101). -/
def groupOffset (k : Nat) : Nat := 3 * (k - 1)

end Sys2Proof.Machine
end

