-- ==== Sys2Proof/Machine/Codec.lean ====
section
/-! DEFINITION. The Command Codec (41_command_codec.md R90 to R98): the pure frame constructors, and each command's
opcode, response length and sending request (30_encoding.md R58, R63). -/

namespace Sys2Proof

/-- The command's 16-bit opcode (30_encoding.md R58). -/
def Command.opcode : Command → Word
  | .getVariant => 0x202F#16
  | .selfTest => 0x3639#16
  | .getDrdy => 0xE4B8#16
  | .readMeas => 0xEC05#16
  | .measSingle => 0x219D#16
  | .startPeriodic => 0x21B1#16
  | .stopPeriodic => 0x3F86#16
  | .frc => 0x362F#16

/-- The opcode of the request that sends the command (R58, R63). -/
def Command.op : Command → BitVec 4
  | .getVariant => 0x2#4
  | .selfTest => 0x3#4
  | .getDrdy => 0x4#4
  | .readMeas => 0x5#4
  | .measSingle => 0x6#4
  | .startPeriodic => 0x7#4
  | .stopPeriodic => 0x8#4
  | .frc => 0x9#4

/-- The response length n of R58 and R69: RESP_LEN_SHORT, RESP_LEN_MEAS, or none. -/
def Command.respLen : Command → Nat
  | .getVariant => 3
  | .selfTest => 3
  | .getDrdy => 3
  | .readMeas => 9
  | .measSingle => 0
  | .startPeriodic => 0
  | .stopPeriodic => 0
  | .frc => 3

/-- The commands, in R58's order. -/
def Command.all : List Command :=
  [.getVariant, .selfTest, .getDrdy, .readMeas, .measSingle, .startPeriodic, .stopPeriodic, .frc]

/-- The command of a 16-bit opcode, if it is one of R58's. -/
def Command.ofOpcode (w : Word) : Option Command := Command.all.find? (fun c => c.opcode = w)

/-- T_EXEC(cmd) of the parameters, in ticks (00_scope.md R8). -/
def Params.waitOf (p : Params) : Command → Nat
  | .getVariant => p.tExec.getVariant
  | .selfTest => p.tExec.selfTest
  | .getDrdy => p.tExec.getDrdy
  | .readMeas => p.tExec.readMeas
  | .measSingle => p.tExec.measSingle
  | .startPeriodic => p.tExec.startPeriodic
  | .stopPeriodic => p.tExec.stopPeriodic
  | .frc => p.tExec.frc

/-- POLL_INTERVAL: 1 second (R7, 60_exceptions.md R160), in ticks. -/
def Params.pollInterval (p : Params) : Nat := 1 * p.ticksPerSecond.val

/-- CLOCK_UNIT in ticks (R8). It is not 0. -/
def Params.unit (p : Params) : Nat := p.clockUnit.val

/-- VARIANT_OK (R8). -/
def Params.isVariantOk (p : Params) (w : Word) : Bool := p.variantOk.contains w

namespace Machine

/-- `Frame_GET_VARIANT()` (R91). -/
def frameGetVariant : List Byte := [0x20#8, 0x2F#8]

/-- `Frame_SELF_TEST()` (R92). -/
def frameSelfTest : List Byte := [0x36#8, 0x39#8]

/-- `Frame_GET_DRDY()` (R93). -/
def frameGetDrdy : List Byte := [0xE4#8, 0xB8#8]

/-- `Frame_READ_MEAS()` (R94). -/
def frameReadMeas : List Byte := [0xEC#8, 0x05#8]

/-- `Frame_MEAS_SINGLE()` (R95). -/
def frameMeasSingle : List Byte := [0x21#8, 0x9D#8]

/-- `Frame_START_PERIODIC()` (R96). -/
def frameStartPeriodic : List Byte := [0x21#8, 0xB1#8]

/-- `Frame_STOP_PERIODIC()` (R97). -/
def frameStopPeriodic : List Byte := [0x3F#8, 0x86#8]

/-- The cmd40 frame of a target and a checksum byte (30_encoding.md R60): the high target byte goes first. -/
def frameFrcOf (target : Word) (ck : Byte) : List Byte := [0x36#8, 0x2F#8, hiByte target, loByte target, ck]

/-- The checksum of an FRC target: over the two target bytes, not the opcode (R60, R98). -/
def targetCk (target : Word) : Byte := crc8 [hiByte target, loByte target]

/-- `Frame_FRC(T)` (R98). -/
def frameFrc (target : Word) : List Byte := frameFrcOf target (targetCk target)

/-- A command's frame. The target counts for FRC only (R90). -/
def wireFrame (c : Command) (target : Word) : List Byte :=
  match c with
  | .getVariant => frameGetVariant
  | .selfTest => frameSelfTest
  | .getDrdy => frameGetDrdy
  | .readMeas => frameReadMeas
  | .measSingle => frameMeasSingle
  | .startPeriodic => frameStartPeriodic
  | .stopPeriodic => frameStopPeriodic
  | .frc => frameFrc target

end Machine

end Sys2Proof
end

