-- ==== Sys2Proof/WellFormed.lean ====
section
/-! DEFINITION. Which instruction terms stand for an encoding the spec has. Every operand field is as wide as its type;
the one relation between fields is the checksum byte of the forced-recalibration frame (30_encoding.md R60). -/

namespace Sys2Proof

/-- Whether an instruction is one the block can run or send. -/
def Instr.wellFormed : Instr → Bool
  | .crcInit => true
  | .crcFeed _ => true
  | .getVariant => true
  | .selfTest => true
  | .getDrdy => true
  | .readMeas => true
  | .measSingle => true
  | .startPeriodic => true
  | .stopPeriodic => true
  | .frc _ => true
  | .pollReady => true
  | .session _ => true
  | .frameGetVariant => true
  | .frameSelfTest => true
  | .frameGetDrdy => true
  | .frameReadMeas => true
  | .frameMeasSingle => true
  | .frameStartPeriodic => true
  | .frameStopPeriodic => true
  | .frameFrc target ck => ck = Machine.targetCk target

end Sys2Proof
end

