-- ==== Sys2Proof/Decode.lean ====
section
/-! DEFINITION. Decoding (30_encoding.md R58 to R69) on both levels, the request word and the wire frame, total on any
bits and rejecting by name; and the encoder, written from the same tables. -/

namespace Sys2Proof

open Machine

/-- Why bits are no instruction. -/
inductive Reject where
  /-- A request word with OP in 0xC to 0xF (R66). -/
  | reservedOp
  /-- A request word with a must-be-0 bit set (R66). -/
  | mustBeZero
  /-- Fewer bytes than the frame's length (R69). -/
  | shortFrame
  /-- Two bytes that are no opcode of R58 (R69). -/
  | notAFrame
  /-- A forced-recalibration frame whose fifth byte is not the checksum of its target (R69). -/
  | badChecksum
  /-- Bytes after a whole frame. -/
  | trailingBytes
  deriving DecidableEq, Repr

/-- An instruction's bits: a request word, or a frame in wire order (R57, R62). -/
inductive Code where
  | req (r : BitVec 32)
  | frame (bytes : List Byte)
  deriving DecidableEq, Repr

/-- `i`, if the must-be-0 bits hold. -/
def legalIf (ok : Bool) (i : Instr) : Except Reject Instr :=
  if ok then .ok i else .error .mustBeZero

/-- Whether OL, bits 15:5 and ARG are all 0: the must-be-0 bits of a request with no operand (R62). -/
def noOperands (r : BitVec 32) : Bool :=
  reqOL r = false && reqUnused r = 0 && reqArg r = 0

/-- The request of a request word (R62, R63), or why it is illegal (R66). -/
def decodeReq (r : BitVec 32) : Except Reject Instr :=
  match (reqOp r).toNat with
  | 0x0 => legalIf (noOperands r) .crcInit
  | 0x1 => legalIf (reqOL r = false && reqUnused r = 0 && reqArgHi r = 0) (.crcFeed (reqByte r))
  | 0x2 => legalIf (noOperands r) .getVariant
  | 0x3 => legalIf (noOperands r) .selfTest
  | 0x4 => legalIf (noOperands r) .getDrdy
  | 0x5 => legalIf (noOperands r) .readMeas
  | 0x6 => legalIf (noOperands r) .measSingle
  | 0x7 => legalIf (noOperands r) .startPeriodic
  | 0x8 => legalIf (noOperands r) .stopPeriodic
  | 0x9 => legalIf (reqOL r = false && reqUnused r = 0) (.frc (reqArg r))
  | 0xA => legalIf (noOperands r) .pollReady
  | 0xB => legalIf (reqUnused r = 0 && reqArg r = 0) (.session (reqOL r))
  | _ => .error .reservedOp

/-- The frame of a command, and the bytes that follow its opcode and payload (R69). -/
def takePayload : Command → List Byte → Except Reject (Instr × List Byte)
  | .getVariant, rest => .ok (.frameGetVariant, rest)
  | .selfTest, rest => .ok (.frameSelfTest, rest)
  | .getDrdy, rest => .ok (.frameGetDrdy, rest)
  | .readMeas, rest => .ok (.frameReadMeas, rest)
  | .measSingle, rest => .ok (.frameMeasSingle, rest)
  | .startPeriodic, rest => .ok (.frameStartPeriodic, rest)
  | .stopPeriodic, rest => .ok (.frameStopPeriodic, rest)
  | .frc, hi :: lo :: ck :: rest =>
    if ck = crc8 [hi, lo] then .ok (.frameFrc (be16 hi lo) ck, rest) else .error .badChecksum
  | .frc, _ => .error .shortFrame

/-- R69's passive wire decoder: the frame at the head of a byte sequence, and the bytes after it. -/
def takeFrame : List Byte → Except Reject (Instr × List Byte)
  | b0 :: b1 :: rest =>
    match Command.ofOpcode (be16 b0 b1) with
    | some c => takePayload c rest
    | none => .error .notAFrame
  | _ => .error .shortFrame

/-- The instruction of a byte sequence that is one frame. -/
def decodeFrame (bytes : List Byte) : Except Reject Instr :=
  match takeFrame bytes with
  | .ok (i, []) => .ok i
  | .ok (_, _ :: _) => .error .trailingBytes
  | .error e => .error e

/-- The instruction of some bits, on either level. -/
def decode : Code → Except Reject Instr
  | .req r => decodeReq r
  | .frame bytes => decodeFrame bytes

/-- A request word with no operand (R62). -/
def reqWord (op : BitVec 4) : BitVec 32 := 0#28 ++ op

/-- The bits of an instruction (R58, R60, R62, R63). -/
def encode : Instr → Code
  | .crcInit => .req (reqWord 0x0#4)
  | .crcFeed b => .req (0#8 ++ b ++ 0x0001#16)
  | .getVariant => .req (reqWord 0x2#4)
  | .selfTest => .req (reqWord 0x3#4)
  | .getDrdy => .req (reqWord 0x4#4)
  | .readMeas => .req (reqWord 0x5#4)
  | .measSingle => .req (reqWord 0x6#4)
  | .startPeriodic => .req (reqWord 0x7#4)
  | .stopPeriodic => .req (reqWord 0x8#4)
  | .frc target => .req (target ++ 0x0009#16)
  | .pollReady => .req (reqWord 0xA#4)
  | .session onlyLast => .req (if onlyLast then 0x0000001B#32 else 0x0000000B#32)
  | .frameGetVariant => .frame frameGetVariant
  | .frameSelfTest => .frame frameSelfTest
  | .frameGetDrdy => .frame frameGetDrdy
  | .frameReadMeas => .frame frameReadMeas
  | .frameMeasSingle => .frame frameMeasSingle
  | .frameStartPeriodic => .frame frameStartPeriodic
  | .frameStopPeriodic => .frame frameStopPeriodic
  | .frameFrc target ck => .frame (frameFrcOf target ck)

/-- The value of an `Except`, if it has one. -/
def accepted {α : Type} : Except Reject α → Option α
  | .ok a => some a
  | .error _ => none

/-- The two bytes of a cmd16 row's bits: F = be16(frame[0], frame[1]) (R59). -/
def cmd16Bytes (w : Nat) : List Byte :=
  let f := BitVec.ofNat 16 w
  [hiByte f, loByte f]

/-- The five bytes of a cmd40 row's bits, frame[0] in bits 39:32 (R60). -/
def cmd40Bytes (w : Nat) : List Byte :=
  let f := BitVec.ofNat 40 w
  [f.extractLsb' 32 8, f.extractLsb' 24 8, f.extractLsb' 16 8, f.extractLsb' 8 8, f.extractLsb' 0 8]

/-- The bits of a row of spec/opcode_table.json, laid out as the hardware holds them: a req32 row is a request word, a
cmd16 or cmd40 row a frame. No row has another width. -/
def tableCode (nbits w : Nat) : Option Code :=
  if nbits = 32 then some (.req (BitVec.ofNat 32 w))
  else if nbits = 16 then some (.frame (cmd16Bytes w))
  else if nbits = 40 then some (.frame (cmd40Bytes w))
  else none

/-- The instruction the decoder reads from a table row's bits. -/
def decodeTableWord (nbits w : Nat) : Option Instr :=
  match tableCode nbits w with
  | some c => accepted (decode c)
  | none => none

end Sys2Proof
end

