-- ==== Sys2Proof/Machine/Memory.lean ====
section
/-! DEFINITION. The byte cells of the two frame buffers, the block's only memory (10_state.md R31): a list of
(address, byte) pairs with strictly rising addresses. An unlisted cell holds no value (R33, R34), so no entry can
repeat what an unlisted cell reads as. -/

namespace Sys2Proof.Machine

/-- The cell at an address, or `none` if no step has written it (R34). -/
def Memory.read : List Host.Cell → Nat → Option Byte
  | [], _ => none
  | (a, b) :: m, x => if a = x then some b else Memory.read m x

/-- The buffer with one cell written. -/
def Memory.write : List Host.Cell → Nat → Byte → List Host.Cell
  | [], x, v => [(x, v)]
  | (a, b) :: m, x, v =>
    if x < a then (x, v) :: (a, b) :: m
    else if x = a then (x, v) :: m
    else (a, b) :: Memory.write m x v

/-- The buffer with a byte sequence written from an address on: the loops of 20_memory.md R41 and R42. -/
def Memory.writeAll (m : List Host.Cell) (base : Nat) : List Byte → List Host.Cell
  | [] => m
  | b :: bs => Memory.writeAll (Memory.write m base b) (base + 1) bs

/-- The canonical form: addresses strictly rising. -/
def Memory.wf : List Host.Cell → Bool
  | [] => true
  | [_] => true
  | (a, _) :: (b, v) :: m => decide (a < b) && Memory.wf ((b, v) :: m)

/-- Whether every listed address lies in a buffer of `n` cells. -/
def Memory.within (n : Nat) (m : List Host.Cell) : Bool := m.all (fun c => c.1 < n)

/-- The bytes from an address on, up to `n` of them, stopping at the first cell that holds no value. -/
def Memory.leading (m : List Host.Cell) (base : Nat) : Nat → List Byte
  | 0 => []
  | n + 1 =>
    match Memory.read m base with
    | some b => b :: Memory.leading m (base + 1) n
    | none => []

end Sys2Proof.Machine
end

