-- ==== Sys2Proof/Machine/State.lean ====
section
/-! DEFINITION. The state of SCD41-CVS as plain data: every register of 10_state.md R21 to R31, the two buffers, and the
model's own record of the agents outside the block (the transport, the clock, the host and its observer). -/

namespace Sys2Proof.Machine

/-- PHASE, the step of the running request's sequence (R21): `idle` is the dash of (IDLE, —); X_WRITE to X_CHECK are a
transaction's (42_transactions.md R100), P_ATTEMPT and P_SLEEP polling's (43_polling.md R120), S_ENTRY to S_EXIT a
session's (44_session.md R130). -/
inductive Phase where
  | idle
  | xWrite | xWait | xRead | xCheck
  | pAttempt | pSleep
  | sEntry | sStart | sPoll | sRead | sKeep | sTest | sFinal | sAbort | sStop | sExit
  deriving DecidableEq, Repr

/-- PSTATE, the polling state (R28, 43_polling.md R120). -/
inductive PState where
  | pIdle | polling | ready | failed
  deriving DecidableEq, Repr

/-- The error kinds of 60_exceptions.md R150. Codes 6 and 7 are never produced. -/
inductive ErrKind where
  | none | transport | checksum | protocol | timeout | illegal
  deriving DecidableEq, Repr

/-- An error e = (K, op, g, i) as a raise carries it (60_exceptions.md R153), and as PERR holds it (R29). -/
structure Err where
  kind : ErrKind
  op : BitVec 4
  group : BitVec 2
  info : Word
  deriving DecidableEq, Repr

/-- The fields of ERR (R24). The reserved bits read 0 and have no field. -/
structure ErrReg where
  kind : ErrKind
  op : BitVec 4
  ctx : BitVec 4
  group : BitVec 2
  kind2 : ErrKind
  deriving DecidableEq, Repr

/-- SEQ = (CUR_OP, PHASE), in place of a program counter (R21). `none` is IDLE. -/
structure Seq where
  curOp : Option (BitVec 4)
  phase : Phase
  deriving DecidableEq, Repr

/-- The STATUS bits that are registers of their own (R23, R30). ERRF is computed from ERR, and the mirrors from the
registers they mirror. -/
structure StatusBits where
  busy : Bool
  done : Bool
  rvalid : Bool
  ready : Bool
  passed : Bool
  deriving DecidableEq, Repr

/-- The result registers a response writes (R26), and for each whether a request has written it: until then it holds
no value and reading it faults (R34). READ_MEAS writes CO2, T_RAW, RH_RAW and TS together. -/
structure Results where
  word : Word
  drdy : BitVec 11
  corr : Word
  co2 : Word
  tRaw : Word
  rhRaw : Word
  ts : Nat
  wordWritten : Bool
  drdyWritten : Bool
  corrWritten : Bool
  measWritten : Bool
  deriving DecidableEq, Repr

/-- The polling registers (R28). -/
structure PollRegs where
  pstate : PState
  attempt : BitVec 4
  deriving DecidableEq, Repr

/-- A reading record (TS, CO2, T_RAW, RH_RAW) (44_session.md R145). -/
structure Reading where
  ts : Nat
  co2 : Word
  tRaw : Word
  rhRaw : Word
  deriving DecidableEq, Repr

/-- The session sequencer's registers besides MEASURING and SHUTDOWN (R29), and the latched term of 44_session.md
R131. PERR and PERR2 are NONE when their kind is `none`. -/
structure SessionRegs where
  onlyLast : Bool
  t0 : Nat
  term : Nat
  last : Reading
  lastValid : Bool
  perr : Err
  perr2 : ErrKind
  deriving DecidableEq, Repr

/-- What is known of the clock (60_exceptions.md R160; log entry 3): the least time since its zero that can have gone by,
in ticks; and, in CLOCK_UNIT, the least sample that CLOCK_ADVANCES still admits (`floor`), and the least that it will admit
after a transaction that completes from here (`afterXact`), which is one more than the last sample. -/
structure Clock where
  time : Nat
  floor : Nat
  afterXact : Nat
  deriving DecidableEq, Repr

/-- One move of the host's shutdown observer (44_session.md R143): its first line, or one test of its loop. -/
inductive ObserverMove where
  | setShutdown
  | check
  deriving DecidableEq, Repr

/-- Where the observer stands in R143: no termination asked for, waiting for MEASURING = 0, or past its wait. -/
inductive Observer where
  | resting | waiting | passed
  deriving DecidableEq, Repr

/-- What a host does besides writing REQ: read a register, write TERM, or move its observer (R22 to R26, R143). -/
inductive HostAction where
  | read (r : HostReg)
  | writeTerm (v : Nat)
  | observer (m : ObserverMove)
  deriving DecidableEq, Repr

/-- One step of the host: a write of REQ, or another action. -/
inductive HostStep where
  | request (r : BitVec 32)
  | act (a : HostAction)
  deriving DecidableEq, Repr

/-- The agents outside the block, as the block meets them (00_scope.md R6). `silent` says that the transport call in
flight has not answered (20_memory.md R40 law c). `host` is the host's program; `during` gives the observer's moves at
each point of a request where it may move. `writes`, `reads` and `waits` are the coming transport answers and clock
draws; past their end each draw is a free value of Config at the count `draws`. -/
structure Env where
  silent : Bool
  observer : Observer
  host : List HostStep
  during : List (List ObserverMove)
  writes : List WriteAnswer
  reads : List ReadAnswer
  waits : List Nat
  draws : Nat
  deriving DecidableEq, Repr

/-- Why a `Delay` was run: a command's mandated wait, or the poll interval. -/
inductive Wait where
  | exec (c : Command)
  | poll
  deriving DecidableEq, Repr

/-- The events of 00_scope.md R11, one for each of its primitives (a delay's length is in ticks), and what the host and
its observer saw (log entry 22). -/
inductive Event where
  | memWrite (addr : BitVec 7) (frame : List Byte) (answer : WriteAnswer)
  | memRead (addr : BitVec 7) (n : Nat) (answer : ReadAnswer)
  | delay (why : Wait) (d : Nat)
  | now (t : Nat)
  | emit (rec : Reading)
  | raise (e : Err)
  | goto (label : Phase)
  | hostRead (r : HostReg) (value : Nat)
  | shutdownSet
  | observerSaw (measuring : Bool)
  deriving DecidableEq, Repr

/-- The state of the block and of the agents around it. -/
structure State where
  /-- The open parameters (00_scope.md R8). No step writes them (R36). -/
  params : Params
  /-- SEQ (R21). -/
  seq : Seq
  /-- REQ, as latched at acceptance (R22, R32). -/
  req : BitVec 32
  /-- TERM (R22). -/
  term : Nat
  /-- STATUS's own bits (R23). -/
  status : StatusBits
  /-- ERR (R24). -/
  err : ErrReg
  /-- ERR_INFO (R25). -/
  errInfo : Word
  /-- ACC, the accumulator the host can reach (R27). -/
  acc : Byte
  /-- The other result registers (R26). -/
  results : Results
  /-- PSTATE and ATTEMPT (R28). -/
  poll : PollRegs
  /-- MEASURING (R29). -/
  measuring : Bool
  /-- SHUTDOWN (R29). -/
  shutdown : Bool
  /-- The session's other registers (R29). -/
  session : SessionRegs
  /-- TXBUF[0..4] (R31). -/
  txbuf : List Host.Cell
  /-- RXBUF[0..8] (R31). -/
  rxbuf : List Host.Cell
  /-- The clock (60_exceptions.md R160). -/
  clock : Clock
  /-- The agents outside the block. -/
  env : Env
  /-- The events so far, the newest first (00_scope.md R11). -/
  trace : List Event
  deriving DecidableEq, Repr

/-- Why the machine stops with a fault. -/
inductive Fault where
  /-- A rule or a host reads a buffer cell or a result register that holds no value (10_state.md R34). Raised by
  `checkGroup`, by `hostRead` and by `step` when TXBUF holds no whole frame. Safe: the chip might return a value. -/
  | unwrittenRead
  /-- The host reads a result register, ERR or ERR_INFO while BUSY = 1 (70_reset_and_hazards.md R185). Raised by
  `hostRead`. Safe: the spec gives the read no value. -/
  | readWhileBusy
  /-- The host reads REQ, which is write-only (R22). Raised by `hostRead`. Safe: the spec gives the read no value. -/
  | readOfWriteOnly
  /-- The request in flight has no further step: the transport has not answered (20_memory.md R40 law c), and the host
  has nothing to do or writes REQ while BUSY = 1, which has no transition (R32). Raised by `step`. Safe: this is the
  spec's stuck state. -/
  | stuck
  /-- A frame is to be sent in a request that does not send it (30_encoding.md R67). Raised by the frames' meanings. No
  run reaches it. Safe: the spec gives it no effect. -/
  | strayFrame
  /-- A session's loop runs past the bound that the clock's laws put on it (log entry 23). Raised by `sessionPoll`. No
  state reaches it. Safe. -/
  | iterationBound
  deriving DecidableEq, Repr

/-- Why the machine refuses to go on. -/
inductive Refusal where
  /-- An instruction that has no meaning yet. Raised by `exec` alone. Safe: nothing runs. -/
  | notModelled (mnemonic : String)
  /-- TXBUF holds bytes that are no frame of this block (30_encoding.md R67, R69). Raised by `step`. No run reaches it.
  Safe: the spec gives such a frame no effect. -/
  | notAFrame
  deriving DecidableEq, Repr

/-- NONE, as PERR holds it (R33). -/
def Err.absent : Err := { kind := .none, op := 0, group := 0, info := 0 }

/-- ERR = 0 (R32, R33). -/
def ErrReg.zero : ErrReg := { kind := .none, op := 0, ctx := 0, group := 0, kind2 := .none }

/-- The block right after reset (R33, 70_reset_and_hazards.md R170). Where R33 says "unspecified" or "no value", the
register holds 0 and no rule reads it before a write (log entries 8 to 10); the agents' fields are log entries 1, 3, 6
and 31. -/
def State.reset : State where
  params := Config.params
  seq := { curOp := none, phase := .idle }
  req := 0
  term := 0
  status := { busy := false, done := false, rvalid := false, ready := false, passed := false }
  err := ErrReg.zero
  errInfo := 0
  acc := 0xFF#8
  results :=
    { word := 0, drdy := 0, corr := 0, co2 := 0, tRaw := 0, rhRaw := 0, ts := 0,
      wordWritten := false, drdyWritten := false, corrWritten := false, measWritten := false }
  poll := { pstate := .pIdle, attempt := 0 }
  measuring := false
  shutdown := false
  session :=
    { onlyLast := false, t0 := 0, term := 0, last := { ts := 0, co2 := 0, tRaw := 0, rhRaw := 0 },
      lastValid := false, perr := Err.absent, perr2 := .none }
  txbuf := []
  rxbuf := []
  clock := { time := 0, floor := 0, afterXact := 0 }
  env :=
    { silent := false, observer := .resting, host := [], during := [], writes := [], reads := [], waits := [],
      draws := 0 }
  trace := []

end Sys2Proof.Machine
end

