-- ==== Sys2Proof/Machine/Flags.lean ====
section
/-! DEFINITION. The flags and the packed words: ERRF, STATUS (10_state.md R23), ERR (R24), and the codes of
60_exceptions.md R150 and 43_polling.md R120. -/

namespace Sys2Proof.Machine

/-- The code of an error kind (60_exceptions.md R150). -/
def ErrKind.code : ErrKind → BitVec 3
  | .none => 0#3
  | .transport => 1#3
  | .checksum => 2#3
  | .protocol => 3#3
  | .timeout => 4#3
  | .illegal => 5#3

/-- The code of a polling state (43_polling.md R120). -/
def PState.code : PState → BitVec 2
  | .pIdle => 0#2
  | .polling => 1#2
  | .ready => 2#2
  | .failed => 3#2

/-- READY: the last decoded readiness, DRDY ≠ 0 (R23, R30). -/
def readyFlag (drdy : BitVec 11) : Bool := drdy ≠ 0

/-- PASSED: the last decoded self-test result, WORD = 0 (R23, R30). -/
def passedFlag (w : Word) : Bool := w = 0

/-- ERRF: ERR.KIND ≠ NONE, written with ERR (R23). -/
def State.errf (s : State) : Bool := s.err.kind ≠ .none

/-- STATUS as the host reads it (R23). -/
def State.statusWord (s : State) : BitVec 16 :=
  0#2 ++ s.poll.attempt ++ s.poll.pstate.code ++ BitVec.ofBool s.status.passed ++ BitVec.ofBool s.status.ready
    ++ BitVec.ofBool s.shutdown ++ BitVec.ofBool s.measuring ++ BitVec.ofBool s.status.rvalid
    ++ BitVec.ofBool s.errf ++ BitVec.ofBool s.status.done ++ BitVec.ofBool s.status.busy

/-- ERR as the host reads it (R24). -/
def ErrReg.packed (e : ErrReg) : BitVec 32 :=
  0#13 ++ e.kind2.code ++ 0#2 ++ e.group ++ e.ctx ++ e.op ++ 0#1 ++ e.kind.code

end Sys2Proof.Machine
end

