-- ==== Sys2Proof/Machine/Ops.lean ====
section
/-! DEFINITION. The shared operations: the result of a called rule, acceptance, raising and completing, the two
buffers, the transport port, the clock and the delay, the observer's turn, and the procedures `Xact` and
`CheckGroup`. -/

namespace Sys2Proof.Machine

/-! ### A rule's result -/

/-- How a rule that is run by `call` ends (60_exceptions.md R153): with a value, with a raise, in a transport call that
never answers (20_memory.md R40 law c), or in a fault. The first three leave a state. -/
inductive Res (α : Type) where
  | ok (a : α) (s : State)
  | raised (e : Err) (s : State)
  | silent (s : State)
  | fault (f : Fault)

/-- The next lines of a rule: run only if the lines before ended with a value (R153). -/
def Res.andThen {α β : Type} (r : Res α) (next : α → State → Res β) : Res β :=
  match r with
  | .ok a s => next a s
  | .raised e s => .raised e s
  | .silent s => .silent s
  | .fault f => .fault f

/-! ### Registers -/

/-- PHASE <- p. -/
def State.setPhase (s : State) (p : Phase) : State := { s with seq := { s.seq with phase := p } }

/-- RVALID <- 1. -/
def State.setRvalid (s : State) : State := { s with status := { s.status with rvalid := true } }

/-- ACC <- a. -/
def State.setAcc (s : State) (a : Byte) : State := { s with acc := a }

/-- WORD <- w. -/
def State.setWord (s : State) (w : Word) : State :=
  { s with results := { s.results with word := w, wordWritten := true } }

/-- DRDY <- w AND 0x07FF; READY <- (DRDY ≠ 0) (42_transactions.md R104). -/
def State.setDrdy (s : State) (w : Word) : State :=
  { s with
    results := { s.results with drdy := drdyOf w, drdyWritten := true }
    status := { s.status with ready := readyFlag (drdyOf w) } }

/-- PASSED <- (w = 0) (42_transactions.md R103). -/
def State.setPassed (s : State) (w : Word) : State := { s with status := { s.status with passed := passedFlag w } }

/-- CORR <- (toInt(w) - 0x8000)[15:0] (42_transactions.md R109). -/
def State.setCorr (s : State) (w : Word) : State :=
  { s with results := { s.results with corr := corrOf w, corrWritten := true } }

/-- CO2 <- w1; T_RAW <- w2; RH_RAW <- w3; TS <- t (42_transactions.md R105). -/
def State.setMeas (s : State) (w1 w2 w3 : Word) (t : Nat) : State :=
  { s with results := { s.results with co2 := w1, tRaw := w2, rhRaw := w3, ts := t, measWritten := true } }

/-- PSTATE <- p. -/
def State.setPState (s : State) (p : PState) : State := { s with poll := { s.poll with pstate := p } }

/-- PERR <- e. -/
def State.setPerr (s : State) (e : Err) : State := { s with session := { s.session with perr := e } }

/-- PERR2 <- k. -/
def State.setPerr2 (s : State) (k : ErrKind) : State := { s with session := { s.session with perr2 := k } }

/-- One more event, which the model records (00_scope.md R11). -/
def State.log (s : State) (e : Event) : State := { s with trace := e :: s.trace }

/-- `goto L` (R11): control goes to the phase L of the request's sequence. -/
def goto (label : Phase) (s : State) : State := (s.log (.goto label)).setPhase label

/-- `raise K(op, group, info)` (R11, 60_exceptions.md R153): an event, and the end of the rule. -/
def raise {α : Type} (e : Err) (s : State) : Res α := .raised e (s.log (.raise e))

/-! ### Acceptance, raise and completion -/

/-- The acceptance of a request, one atomic step (10_state.md R32). -/
def accept (r : BitVec 32) (s : State) : State :=
  { s with
    seq := { curOp := some (reqOp r), phase := .idle }
    req := r
    status := { s.status with busy := true, done := false, rvalid := false }
    err := ErrReg.zero
    errInfo := 0 }

/-- The end of a request with an error: R153's top-level step, with the ERR fields as given. ERRF follows ERR. -/
def endWithError (e : Err) (ctx : BitVec 4) (kind2 : ErrKind) (s : State) : State :=
  { s with
    seq := { curOp := none, phase := .idle }
    status := { s.status with busy := false, done := true, rvalid := false }
    err := { kind := e.kind, op := e.op, ctx := ctx, group := e.group, kind2 := kind2 }
    errInfo := e.info }

/-- What a raise at the top level of a request writes: CTX is CUR_OP and KIND2 is 0 (R153). A request that runs has a
CUR_OP. -/
def raiseTop (e : Err) (s : State) : State := endWithError e (s.seq.curOp.getD 0) .none s

/-- `complete` (R154). ERR keeps the zero written at acceptance, so ERRF is 0. -/
def complete (s : State) : State :=
  { s with
    seq := { curOp := none, phase := .idle }
    status := { s.status with busy := false, done := true } }

/-- The ILLEGAL error of a request word (30_encoding.md R66). -/
def illegalErr (r : BitVec 32) : Err := { kind := .illegal, op := reqOp r, group := 0, info := reqLow r }

/-- The end of a request whose rule is over: `complete`, or the top-level raise. A transport call that never answers
leaves the request in flight. -/
def finish : Res Unit → Host.Outcome State Fault Refusal
  | .ok _ s => .next (complete s)
  | .raised e s => .next (raiseTop e s)
  | .silent s => .next s
  | .fault f => .fault f

/-- The end of a request that writes results: RVALID <- 1, then `complete`. -/
def finishResult (r : Res Unit) : Host.Outcome State Fault Refusal :=
  finish (r.andThen fun _ s => .ok () s.setRvalid)

/-! ### The buffers -/

/-- TXBUF[i] <- frame[i] (20_memory.md R41). -/
def State.loadTx (s : State) (frame : List Byte) : State := { s with txbuf := Memory.writeAll s.txbuf 0 frame }

/-- RXBUF[i] <- bytes[i] (R42). The cells past them keep their contents. -/
def State.storeRx (s : State) (bytes : List Byte) : State := { s with rxbuf := Memory.writeAll s.rxbuf 0 bytes }

/-- TXBUF_LEN, the cells of TXBUF (10_state.md R31). -/
def txLen : Nat := 5

/-- RXBUF_LEN, the cells of RXBUF (R31). -/
def rxLen : Nat := 9

/-- RXBUF[i]; reading a cell that holds no value faults (R34). -/
def readRx (i : Nat) (s : State) : Res Byte :=
  match Memory.read s.rxbuf i with
  | some b => .ok b s
  | none => .fault .unwrittenRead

/-! ### The transport port -/

/-- A write answer under R40's law (a): a count is at most the bytes written. -/
def WriteAnswer.lawful (n : Nat) : WriteAnswer → WriteAnswer
  | .ok k => .ok (min k n)
  | .err => .err
  | .never => .never

/-- A read answer under R40's law (b): at most `n` bytes. -/
def ReadAnswer.lawful (n : Nat) : ReadAnswer → ReadAnswer
  | .ok bytes => .ok (bytes.take n)
  | .err => .err
  | .never => .never

/-- The transport's answer to a write of `n` bytes: the next listed one, else a free value. -/
def drawWrite (n : Nat) (s : State) : WriteAnswer × State :=
  match s.env.writes with
  | a :: rest => (WriteAnswer.lawful n a, { s with env := { s.env with writes := rest } })
  | [] => (WriteAnswer.lawful n (Config.freeWrite s.env.draws), { s with env := { s.env with draws := s.env.draws + 1 } })

/-- The transport's answer to a read of `n` bytes: the next listed one, else a free value. No answer is used twice
(R49). -/
def drawRead (n : Nat) (s : State) : ReadAnswer × State :=
  match s.env.reads with
  | a :: rest => (ReadAnswer.lawful n a, { s with env := { s.env with reads := rest } })
  | [] => (ReadAnswer.lawful n (Config.freeRead s.env.draws), { s with env := { s.env with draws := s.env.draws + 1 } })

/-- The transport call in flight does not answer: the sequencer has no further step (R40 law c). -/
def State.setSilent (s : State) : State := { s with env := { s.env with silent := true } }

/-- `MemWrite(I2C_ADDR, |frame|, frame)` (00_scope.md R11): the count, or `none` for `Err`. -/
def memWrite (frame : List Byte) (s : State) : Res (Option Nat) :=
  let d := drawWrite frame.length s
  let s' := d.2.log (.memWrite s.params.i2cAddr frame d.1)
  match d.1 with
  | .ok k => .ok (some k) s'
  | .err => .ok none s'
  | .never => .silent s'.setSilent

/-- `MemRead(I2C_ADDR, n)` (R11): the bytes, or `none` for `Err`. -/
def memRead (n : Nat) (s : State) : Res (Option (List Byte)) :=
  let d := drawRead n s
  let s' := d.2.log (.memRead s.params.i2cAddr n d.1)
  match d.1 with
  | .ok bytes => .ok (some bytes) s'
  | .err => .ok none s'
  | .never => .silent s'.setSilent

/-! ### The observer -/

/-- One move of the observer (44_session.md R143): SHUTDOWN is set at most once, by its first line; a test of the loop
reads MEASURING in one atomic access and passes only when it is 0. -/
def observerMove (m : ObserverMove) (s : State) : State :=
  match m, s.env.observer with
  | .setShutdown, .resting =>
    ({ s with shutdown := true, env := { s.env with observer := .waiting } } : State).log .shutdownSet
  | .setShutdown, .waiting => s
  | .setShutdown, .passed => s
  | .check, .waiting =>
    if s.measuring then s.log (.observerSaw true)
    else ({ s with env := { s.env with observer := .passed } } : State).log (.observerSaw false)
  | .check, .resting => s
  | .check, .passed => s

/-- Several moves of the observer, in order. -/
def observerMoves : List ObserverMove → State → State
  | [], s => s
  | m :: ms, s => observerMoves ms (observerMove m s)

/-- A point where the observer may move while a request runs (60_exceptions.md R157, R165): it makes the moves listed
for this point. -/
def observerTurn (s : State) : State :=
  match s.env.during with
  | [] => s
  | ms :: rest => observerMoves ms { s with env := { s.env with during := rest } }

/-! ### The clock -/

/-- How many units a sample lies past the earliest lawful one: the next listed distance, else a free value. -/
def drawWait (s : State) : Nat × State :=
  match s.env.waits with
  | w :: rest => (w, { s with env := { s.env with waits := rest } })
  | [] => (Config.freeWait s.env.draws, { s with env := { s.env with draws := s.env.draws + 1 } })

/-- The earliest lawful sample: the whole units in the least time since the clock's zero, and not below what CLOCK_ADVANCES
admits. -/
def State.least (s : State) : Nat := max (s.clock.time / s.params.unit) s.clock.floor

/-- `Now()` (60_exceptions.md R160), in CLOCK_UNIT: a sample never lies before the earliest lawful one, the time it shows
has then gone by, and after a transaction that completes from here the next sample is greater. -/
def now (s : State) : Nat × State :=
  let d := drawWait s
  let t := s.least + d.1
  (t, ({ d.2 with
    clock := { s.clock with time := max s.clock.time (t * s.params.unit), afterXact := t + 1 } } : State).log (.now t))

/-- The length d of a `Delay(d)`, in ticks. -/
def waitTicks (why : Wait) (p : Params) : Nat :=
  match why with
  | .exec c => p.waitOf c
  | .poll => p.pollInterval

/-- At least `d` ticks have gone by. -/
def State.advance (s : State) (d : Nat) : State := { s with clock := { s.clock with time := s.clock.time + d } }

/-- `Delay(d)` (R160, R165): a wait of at least d, in which the observer alone may move. -/
def delay (why : Wait) (s : State) : State :=
  (observerTurn (s.log (.delay why (waitTicks why s.params)))).advance (waitTicks why s.params)

/-- CLOCK_ADVANCES (R160): a sample after a completed transaction is greater than every sample before it. It is a law of
the samples: how much time has gone by stays as it was. -/
def State.xactDone (s : State) : State :=
  { s with clock := { s.clock with floor := max s.clock.floor s.clock.afterXact } }

/-- `Emit(rec)` (44_session.md R137): one event, and no wait for the host's answer. -/
def emit (rec : Reading) (s : State) : State := s.log (.emit rec)

/-! ### Transactions -/

/-- The TRANSPORT error of an operation (60_exceptions.md R150). -/
def transportErr (op : BitVec 4) (info : Word) : Err := { kind := .transport, op := op, group := 0, info := info }

/-- The CHECKSUM error of an operation's group (R150). -/
def checksumErr (op : BitVec 4) (group : BitVec 2) (info : Word) : Err :=
  { kind := .checksum, op := op, group := group, info := info }

/-- The PROTOCOL error of an operation (R150). -/
def protocolErr (op : BitVec 4) (info : Word) : Err := { kind := .protocol, op := op, group := 0, info := info }

/-- The end of an `Xact`, from its read on (42_transactions.md R100). -/
def xactRead (c : Command) (s : State) : Res Unit :=
  (memRead c.respLen (s.setPhase .xRead)).andThen fun r s =>
    match r with
    | none => raise (transportErr c.op 0xFFFF#16) s
    | some bytes =>
      if bytes.length ≠ c.respLen then raise (transportErr c.op (BitVec.ofNat 16 bytes.length)) s
      else .ok () ((s.storeRx bytes).setPhase .xCheck).xactDone

/-- The end of an `Xact`, from its wait on: a command with no response ends here (R100, 90_conflicts.md C4). -/
def xactWait (c : Command) (s : State) : Res Unit :=
  let s' := delay (.exec c) (s.setPhase .xWait)
  if c.respLen = 0 then .ok () s'.xactDone else xactRead c s'

/-- `Xact(op, frame, n)` (R100): one write, one timed wait, one read. The response stands in RXBUF. -/
def xact (c : Command) (frame : List Byte) (s : State) : Res Unit :=
  (memWrite frame ((s.setPhase .xWrite).loadTx frame)).andThen fun w s =>
    match w with
    | none => raise (transportErr c.op 0xFFFF#16) s
    | some k => if k ≠ frame.length then raise (transportErr c.op (BitVec.ofNat 16 k)) s else xactWait c s

/-- `CheckGroup(op, k)` (R101): the word of group k, once its checksum holds. -/
def checkGroup (op : BitVec 4) (k : Nat) (s : State) : Res Word :=
  (readRx (groupOffset k) s).andThen fun b0 s =>
  (readRx (groupOffset k + 1) s).andThen fun b1 s =>
  (readRx (groupOffset k + 2) s).andThen fun ck s =>
    if groupOk b0 b1 ck then .ok (be16 b0 b1) s
    else raise (checksumErr op (BitVec.ofNat 2 k) (be16 (crc8 [b0, b1]) ck)) s

end Sys2Proof.Machine
end

