-- ==== Sys2Proof/Machine/CrcRequests.lean ====
section
/-! DEFINITION. The two requests on the accumulator ACC (40_checksum.md R83, R84). -/

namespace Sys2Proof.Machine

/-- CRC_INIT (R83): ACC <- 0xFF. -/
def execCrcInit (s : State) : Host.Outcome State Fault Refusal := finishResult (.ok () (s.setAcc crcSeed))

/-- CRC_FEED (R84): ACC <- crc_step(ACC, B). -/
def execCrcFeed (b : Byte) (s : State) : Host.Outcome State Fault Refusal :=
  finishResult (.ok () (s.setAcc (crcStep s.acc b)))

end Sys2Proof.Machine
end

