-- ==== Sys2Proof/Machine/Transactions.lean ====
section
/-! DEFINITION. The eight requests that each run one sensor command (42_transactions.md R102 to R112). A rule's lines
without `RVALID <- 1` and `complete` are what POLL_READY and SESSION run by `call` (44_session.md). -/

namespace Sys2Proof.Machine

/-- R102's lines: the exchange, the group check, and VARIANT_OK. -/
def variantLines (s : State) : Res Unit :=
  (xact .getVariant frameGetVariant s).andThen fun _ s =>
  (checkGroup 0x2#4 1 s).andThen fun w s =>
    if s.params.isVariantOk w then .ok () (s.setWord w) else raise (protocolErr 0x2#4 w) s

/-- GET_VARIANT (R102). -/
def execGetVariant (s : State) : Host.Outcome State Fault Refusal := finishResult (variantLines s)

/-- R103's lines: PASSED is written after a valid checksum, whether the test passed or failed. -/
def selfTestLines (s : State) : Res Unit :=
  (xact .selfTest frameSelfTest s).andThen fun _ s =>
  (checkGroup 0x3#4 1 s).andThen fun w s =>
    if w = 0 then .ok () ((s.setPassed w).setWord w) else raise (protocolErr 0x3#4 w) (s.setPassed w)

/-- SELF_TEST (R103). -/
def execSelfTest (s : State) : Host.Outcome State Fault Refusal := finishResult (selfTestLines s)

/-- `QueryReady()` (R104): the readiness, with WORD, DRDY and READY written. -/
def queryReady (s : State) : Res Bool :=
  (xact .getDrdy frameGetDrdy s).andThen fun _ s =>
  (checkGroup 0x4#4 1 s).andThen fun w s =>
    .ok (readyFlag (drdyOf w)) ((s.setWord w).setDrdy w)

/-- GET_DRDY (R104). -/
def execGetDrdy (s : State) : Host.Outcome State Fault Refusal :=
  finishResult ((queryReady s).andThen fun _ s => .ok () s)

/-- R105's lines: the three group checks in order, then the clock sample, then the results. -/
def readMeasLines (s : State) : Res Unit :=
  (xact .readMeas frameReadMeas s).andThen fun _ s =>
  (checkGroup 0x5#4 1 s).andThen fun w1 s =>
  (checkGroup 0x5#4 2 s).andThen fun w2 s =>
  (checkGroup 0x5#4 3 s).andThen fun w3 s =>
    .ok () ((now s).2.setMeas w1 w2 w3 (now s).1)

/-- READ_MEAS (R105). -/
def execReadMeas (s : State) : Host.Outcome State Fault Refusal := finishResult (readMeasLines s)

/-- R109's lines from the response on: the FF FF sentinel comes before the checksum (90_conflicts.md C2). -/
def frcDecode (s : State) : Res Unit :=
  (readRx 0 s).andThen fun b0 s =>
  (readRx 1 s).andThen fun b1 s =>
    if b0 = 0xFF#8 ∧ b1 = 0xFF#8 then raise (protocolErr 0x9#4 0xFFFF#16) s
    else (checkGroup 0x9#4 1 s).andThen fun w s => .ok () ((s.setWord w).setCorr w)

/-- R109's lines, for the frame that is sent. -/
def frcLines (frame : List Byte) (s : State) : Res Unit :=
  (xact .frc frame s).andThen fun _ s => frcDecode s

/-- FRC (R109). -/
def execFrc (target : Word) (s : State) : Host.Outcome State Fault Refusal :=
  finishResult (frcLines (frameFrc target) s)

/-- R110's lines: the write and the wait. -/
def measSingleLines (s : State) : Res Unit := xact .measSingle frameMeasSingle s

/-- MEAS_SINGLE (R110). RVALID stays 0. -/
def execMeasSingle (s : State) : Host.Outcome State Fault Refusal := finish (measSingleLines s)

/-- R111's lines: the write and the wait. -/
def startPeriodicLines (s : State) : Res Unit := xact .startPeriodic frameStartPeriodic s

/-- START_PERIODIC (R111). RVALID stays 0. -/
def execStartPeriodic (s : State) : Host.Outcome State Fault Refusal := finish (startPeriodicLines s)

/-- R112's lines: the write and the wait. -/
def stopPeriodicLines (s : State) : Res Unit := xact .stopPeriodic frameStopPeriodic s

/-- STOP_PERIODIC (R112). RVALID stays 0. -/
def execStopPeriodic (s : State) : Host.Outcome State Fault Refusal := finish (stopPeriodicLines s)

end Sys2Proof.Machine
end

