-- ==== Sys2Proof/Machine/Polling.lean ====
section
/-! DEFINITION. The data-ready polling state machine (43_polling.md R120 to R127). -/

namespace Sys2Proof.Machine

/-- MAX_RETRIES (00_scope.md R7). -/
def maxRetries : Nat := 10

/-- MAX_ATTEMPTS, MAX_RETRIES + 1 (R7). -/
def maxAttempts : Nat := maxRetries + 1

/-- The TIMEOUT error: OP = 0xA, ERR_INFO = 11 (R124). -/
def timeoutErr : Err := { kind := .timeout, op := 0xA#4, group := 0, info := BitVec.ofNat 16 maxAttempts }

/-- PSTATE <- POLLING; ATTEMPT <- 0 (R121). -/
def pollEntry (s : State) : State := { s with poll := { pstate := .polling, attempt := 0 } }

/-- ATTEMPT <- ATTEMPT + 1 (R122). -/
def nextAttempt (s : State) : State :=
  ({ s with poll := { s.poll with attempt := s.poll.attempt + 1 } } : State).setPhase .pAttempt

/-- How many attempts R123 still allows: 11 - ATTEMPT, so ATTEMPT < 11 holds just when it is not 0. -/
def attemptsLeft (s : State) : Nat := maxAttempts - s.poll.attempt.toNat

/-- R127's loop from the exchange of the attempt that ATTEMPT counts, with `left` further attempts allowed. -/
def pollFrom : Nat → State → Res Unit
  | left, s =>
    match queryReady s with
    | .ok true s => .ok () (s.setPState .ready)
    | .ok false s =>
      match left with
      | 0 => raise timeoutErr (s.setPState .failed)
      | left + 1 => pollFrom left (nextAttempt (delay .poll (s.setPhase .pSleep)))
    | .raised e s => raise e (s.setPState .failed)
    | .silent s => .silent s
    | .fault f => .fault f

/-- `Poll()` (R127): a fresh start, then the first attempt. -/
def pollLines (s : State) : Res Unit :=
  let s' := nextAttempt (pollEntry s)
  pollFrom (attemptsLeft s') s'

/-- POLL_READY (R127). -/
def execPollReady (s : State) : Host.Outcome State Fault Refusal := finishResult (pollLines s)

end Sys2Proof.Machine
end

