-- ==== Sys2Proof/Machine/Session.lean ====
section
/-! DEFINITION. The session sequencer (44_session.md R130 to R146), one definition for each phase of R130, written from
the last phase to the first. -/

namespace Sys2Proof.Machine

/-- S_EXIT (R141): MEASURING <- 0 in one access, before which the observer may move (60_exceptions.md R157), then the
session's outcome. -/
def sessionExit (s : State) : Host.Outcome State Fault Refusal :=
  let s' := { observerTurn (s.setPhase .sExit) with measuring := false }
  if s'.session.perr.kind = .none then .next (complete s'.setRvalid)
  else .next (endWithError s'.session.perr 0xB#4 s'.session.perr2 s')

/-- The handler of S_STOP (R140): the first error wins. -/
def sessionAfterStop : Res Unit → Host.Outcome State Fault Refusal
  | .ok _ s => sessionExit s
  | .raised e s => sessionExit (if s.session.perr.kind = .none then s.setPerr e else s.setPerr2 e.kind)
  | .silent s => .next s
  | .fault f => .fault f

/-- `goto S_STOP`, and S_STOP (R140): `call STOP_PERIODIC`. Every way to S_STOP is a `goto` (R133, R139, R142). -/
def sessionStop (s : State) : Host.Outcome State Fault Refusal :=
  sessionAfterStop (stopPeriodicLines (goto .sStop s))

/-- `PERR <- e; goto S_ABORT` (R135, R136), and S_ABORT (R142). -/
def sessionAbort (e : Err) (s : State) : Host.Outcome State Fault Refusal :=
  let s' := goto .sAbort (s.setPerr e)
  sessionStop
    (if s'.params.emitLastOnAbort ∧ s'.session.onlyLast ∧ s'.session.lastValid then emit s'.session.last s' else s')

/-- `goto S_FINAL` (R138), and S_FINAL (R139). -/
def sessionFinal (s : State) : Host.Outcome State Fault Refusal :=
  let s' := goto .sFinal s
  sessionStop (if s'.session.onlyLast ∧ s'.session.lastValid then emit s'.session.last s' else s')

/-- S_TEST (R138): the clock sample, then SHUTDOWN, between which the observer may move; `again` is S_POLL,
to which control goes back by a `goto`. -/
def sessionTest (again : State → Host.Outcome State Fault Refusal) (s : State) : Host.Outcome State Fault Refusal :=
  let n := now (s.setPhase .sTest)
  let s' := observerTurn n.2
  if n.1 > s'.session.t0 + s'.session.term ∨ s'.shutdown then sessionFinal s' else again (goto .sPoll s')

/-- The reading record of the result registers (R137, R145). -/
def readingOf (s : State) : Reading :=
  { ts := s.results.ts, co2 := s.results.co2, tRaw := s.results.tRaw, rhRaw := s.results.rhRaw }

/-- S_KEEP (R137): hold the reading, or emit it. -/
def sessionKeep (s : State) : State :=
  let s' := s.setPhase .sKeep
  if s'.session.onlyLast then { s' with session := { s'.session with last := readingOf s', lastValid := true } }
  else emit (readingOf s') s'

/-- The lines after S_READ's call (R136). -/
def sessionAfterRead (again : State → Host.Outcome State Fault Refusal) :
    Res Unit → Host.Outcome State Fault Refusal
  | .ok _ s => sessionTest again (sessionKeep s)
  | .raised e s => sessionAbort e s
  | .silent s => .next s
  | .fault f => .fault f

/-- The lines after S_POLL's call (R135): S_READ calls READ_MEAS (R136). -/
def sessionAfterPoll (again : State → Host.Outcome State Fault Refusal) :
    Res Unit → Host.Outcome State Fault Refusal
  | .ok _ s => sessionAfterRead again (readMeasLines (s.setPhase .sRead))
  | .raised e s => sessionAbort e s
  | .silent s => .next s
  | .fault f => .fault f

/-- S_POLL and the loop (R135 to R138), for at most the given number of iterations (log entry 23). -/
def sessionPoll : Nat → State → Host.Outcome State Fault Refusal
  | 0, _ => .fault .iterationBound
  | n + 1, s => sessionAfterPoll (sessionPoll n) (pollLines (s.setPhase .sPoll))

/-- A number of iterations the loop never exceeds: each one after the first advances the clock (60_exceptions.md R160),
and the loop ends once the clock passes T0 + term. -/
def loopBound (s : State) : Nat := s.session.t0 + s.session.term + 2

/-- The lines after S_START's call (R133, R134): on success T0 <- Now(), on a raise `PERR <- e; goto S_STOP`. -/
def sessionAfterStart : Res Unit → Host.Outcome State Fault Refusal
  | .ok _ s =>
    let s' : State := { (now s).2 with session := { (now s).2.session with t0 := (now s).1 } }
    sessionPoll (loopBound s') s'
  | .raised e s => sessionStop (s.setPerr e)
  | .silent s => .next s
  | .fault f => .fault f

/-- S_START (R132): `call START_PERIODIC`. -/
def sessionStart (s : State) : Host.Outcome State Fault Refusal :=
  sessionAfterStart (startPeriodicLines (s.setPhase .sStart))

/-- S_ENTRY (R131). SHUTDOWN is not read. -/
def sessionEntry (onlyLast : Bool) (s : State) : State :=
  ({ s with
    measuring := true
    session :=
      { s.session with
        onlyLast := onlyLast, term := s.term, lastValid := false, perr := Err.absent, perr2 := .none } } : State).setPhase
    .sEntry

/-- SESSION (R144). -/
def execSession (onlyLast : Bool) (s : State) : Host.Outcome State Fault Refusal :=
  sessionStart (sessionEntry onlyLast s)

end Sys2Proof.Machine
end

