-- ==== Sys2Proof/Machine/Frames.lean ====
section
/-! DEFINITION. The eight wire frames (41_command_codec.md R91 to R98) as instructions: a frame that stands in TXBUF with
PHASE = X_WRITE is sent in its bus transaction (42_transactions.md R100), and the lines of the running request that
follow the transaction run after it (log entry 17). CUR_OP tells which request that is: one of the requests that R91 to
R98 and 30_encoding.md R58 name as the frame's senders. -/

namespace Sys2Proof.Machine

/-- The frame 20 2F, sent by GET_VARIANT (R91). -/
def execFrameGetVariant (s : State) : Host.Outcome State Fault Refusal :=
  if s.seq.curOp = some 0x2#4 then finishResult (variantLines s) else .fault .strayFrame

/-- The frame 36 39, sent by SELF_TEST (R92). -/
def execFrameSelfTest (s : State) : Host.Outcome State Fault Refusal :=
  if s.seq.curOp = some 0x3#4 then finishResult (selfTestLines s) else .fault .strayFrame

/-- The frame E4 B8, sent by GET_DRDY and by the attempt that ATTEMPT counts in POLL_READY and in SESSION (R93). -/
def execFrameGetDrdy (s : State) : Host.Outcome State Fault Refusal :=
  if s.seq.curOp = some 0x4#4 then finishResult ((queryReady s).andThen fun _ s => .ok () s)
  else if s.seq.curOp = some 0xA#4 then finishResult (pollFrom (attemptsLeft s) s)
  else if s.seq.curOp = some 0xB#4 then sessionAfterPoll (sessionPoll (loopBound s)) (pollFrom (attemptsLeft s) s)
  else .fault .strayFrame

/-- The frame EC 05, sent by READ_MEAS and by SESSION (R94, 44_session.md R136). -/
def execFrameReadMeas (s : State) : Host.Outcome State Fault Refusal :=
  if s.seq.curOp = some 0x5#4 then finishResult (readMeasLines s)
  else if s.seq.curOp = some 0xB#4 then sessionAfterRead (sessionPoll (loopBound s)) (readMeasLines s)
  else .fault .strayFrame

/-- The frame 21 9D, sent by MEAS_SINGLE (R95). -/
def execFrameMeasSingle (s : State) : Host.Outcome State Fault Refusal :=
  if s.seq.curOp = some 0x6#4 then finish (measSingleLines s) else .fault .strayFrame

/-- The frame 21 B1, sent by START_PERIODIC and by SESSION (R96). -/
def execFrameStartPeriodic (s : State) : Host.Outcome State Fault Refusal :=
  if s.seq.curOp = some 0x7#4 then finish (startPeriodicLines s)
  else if s.seq.curOp = some 0xB#4 then sessionAfterStart (startPeriodicLines s)
  else .fault .strayFrame

/-- The frame 3F 86, sent by STOP_PERIODIC and by SESSION (R97). -/
def execFrameStopPeriodic (s : State) : Host.Outcome State Fault Refusal :=
  if s.seq.curOp = some 0x8#4 then finish (stopPeriodicLines s)
  else if s.seq.curOp = some 0xB#4 then sessionAfterStop (stopPeriodicLines s)
  else .fault .strayFrame

/-- The frame 36 2F T_HI T_LO CK, sent by FRC (R98). -/
def execFrameFrc (target : Word) (ck : Byte) (s : State) : Host.Outcome State Fault Refusal :=
  if s.seq.curOp = some 0x9#4 then finishResult (frcLines (frameFrcOf target ck) s) else .fault .strayFrame

end Sys2Proof.Machine
end

