-- ==== Sys2Proof/Machine/Dispatch.lean ====
section
/-! DEFINITION. What each instruction does: one arm for each constructor of Instr. -/

namespace Sys2Proof.Machine

def exec (i : Instr) (s : State) : Host.Outcome State Fault Refusal :=
  match i with
  | .crcInit => Sys2Proof.Machine.execCrcInit s
  | .crcFeed b => Sys2Proof.Machine.execCrcFeed b s
  | .getVariant => Sys2Proof.Machine.execGetVariant s
  | .selfTest => Sys2Proof.Machine.execSelfTest s
  | .getDrdy => Sys2Proof.Machine.execGetDrdy s
  | .readMeas => Sys2Proof.Machine.execReadMeas s
  | .measSingle => Sys2Proof.Machine.execMeasSingle s
  | .startPeriodic => Sys2Proof.Machine.execStartPeriodic s
  | .stopPeriodic => Sys2Proof.Machine.execStopPeriodic s
  | .frc target => Sys2Proof.Machine.execFrc target s
  | .pollReady => Sys2Proof.Machine.execPollReady s
  | .session onlyLast => Sys2Proof.Machine.execSession onlyLast s
  | .frameGetVariant => Sys2Proof.Machine.execFrameGetVariant s
  | .frameSelfTest => Sys2Proof.Machine.execFrameSelfTest s
  | .frameGetDrdy => Sys2Proof.Machine.execFrameGetDrdy s
  | .frameReadMeas => Sys2Proof.Machine.execFrameReadMeas s
  | .frameMeasSingle => Sys2Proof.Machine.execFrameMeasSingle s
  | .frameStartPeriodic => Sys2Proof.Machine.execFrameStartPeriodic s
  | .frameStopPeriodic => Sys2Proof.Machine.execFrameStopPeriodic s
  | .frameFrc target ck => Sys2Proof.Machine.execFrameFrc target ck s

end Sys2Proof.Machine
end

