-- ==== Sys2Proof/Machine/HostAgent.lean ====
section
/-! DEFINITION. The host's side of the block: register reads (10_state.md R22 to R26), writes of TERM, its observer
(44_session.md R143), and the addresses of a wrapper that memory-maps the registers (00_scope.md R8). -/

namespace Sys2Proof.Machine

/-- A result register as the host reads it: while BUSY = 1 it has no value (70_reset_and_hazards.md R185), and before
its first write it holds none (R34). -/
def resultRead (s : State) (written : Bool) (v : Nat) : Except Fault Nat :=
  if s.status.busy then .error .readWhileBusy else if written then .ok v else .error .unwrittenRead

/-- The value the host reads from a register. STATUS and TERM are readable at any time. -/
def hostRead (s : State) : HostReg → Except Fault Nat
  | .req => .error .readOfWriteOnly
  | .term => .ok s.term
  | .status => .ok s.statusWord.toNat
  | .err => resultRead s true s.err.packed.toNat
  | .errInfo => resultRead s true s.errInfo.toNat
  | .acc => resultRead s true s.acc.toNat
  | .word => resultRead s s.results.wordWritten s.results.word.toNat
  | .drdy => resultRead s s.results.drdyWritten s.results.drdy.toNat
  | .corr => resultRead s s.results.corrWritten s.results.corr.toNat
  | .co2 => resultRead s s.results.measWritten s.results.co2.toNat
  | .tRaw => resultRead s s.results.measWritten s.results.tRaw.toNat
  | .rhRaw => resultRead s s.results.measWritten s.results.rhRaw.toNat
  | .ts => resultRead s s.results.measWritten s.results.ts

/-- TERM <- v, in CLOCK_W bits (R22). -/
def State.setTerm (s : State) (v : Nat) : State := { s with term := v % 2 ^ s.params.clockW }

/-- One action of the host. -/
def hostAct (a : HostAction) (s : State) : Host.Outcome State Fault Refusal :=
  match a with
  | .read r =>
    match hostRead s r with
    | .ok v => .next (s.log (.hostRead r v))
    | .error f => .fault f
  | .writeTerm v => .next (s.setTerm v)
  | .observer m => .next (observerMove m s)

/-- The register at an address, for a wrapper that maps the registers (R8, D6). DESIGN CHOICE: where the map gives one
address to two registers, reads and writes alike reach the first listed (20_memory.md R50 leaves the map open; log entry
26). -/
def Params.regAt (p : Params) (addr : Nat) : Option HostReg :=
  (p.hostRegAddr.find? (fun e => e.2 = addr)).map Prod.fst

/-- What a mapped read of an address is to the block. -/
def mappedRead (p : Params) (addr : Nat) : Option HostStep :=
  (Params.regAt p addr).map fun r => .act (.read r)

/-- What a mapped write of an address is to the block: only REQ and TERM can be written (R22 to R26). DESIGN CHOICE: of a
value wider than REQ the low 32 bits are kept, since neither R22 nor 20_memory.md R50 gives the wrapper's data width
(log entry 26). -/
def mappedWrite (p : Params) (addr v : Nat) : Option HostStep :=
  match Params.regAt p addr with
  | some .req => some (.request (BitVec.ofNat 32 v))
  | some .term => some (.act (.writeTerm v))
  | _ => none

end Sys2Proof.Machine
end

