-- ==== Sys2Proof/Machine/Fetch.lean ====
section
/-! DEFINITION. What the next step is: the acceptance of a request (10_state.md R32), the sending of a frame that stands in
TXBUF, or a step of the host alone. -/

namespace Sys2Proof.Machine

/-- What a step comes to: an instruction to run in a state, or an outcome with no instruction. -/
inductive Fetched where
  | run (i : Instr) (s : State)
  | done (o : Host.Outcome State Fault Refusal)

/-- The host's program goes on from here. -/
def State.setHost (s : State) (rest : List HostStep) : State := { s with env := { s.env with host := rest } }

/-- Idle: the block waits for a write of REQ (70_reset_and_hazards.md R170), accepts it whatever it holds, and raises
ILLEGAL for a word outside R62 (30_encoding.md R66). -/
def fetchRequest (s : State) : Fetched :=
  match s.env.host with
  | [] => .done (.next s)
  | .act a :: rest => .done (hostAct a (s.setHost rest))
  | .request r :: rest =>
    match decodeReq r with
    | .ok i => .run i (accept r (s.setHost rest))
    | .error _ => .done (finish (raise (illegalErr r) (accept r (s.setHost rest))))

/-- At X_WRITE: the frame in TXBUF, read in index order (20_memory.md R41, 30_encoding.md R69). -/
def fetchFrame (s : State) : Fetched :=
  match takeFrame (Memory.leading s.txbuf 0 txLen) with
  | .ok (i, _) => .run i s
  | .error .shortFrame => .done (.fault .unwrittenRead)
  | .error _ => .done (.refused .notAFrame)

/-- A transport call is in flight: only the host's reads, its writes of TERM and its observer can go on. A write of REQ
has no transition (R32), and with nothing else to do the request is stuck (20_memory.md R40 law c). -/
def hostAlone (s : State) : Host.Outcome State Fault Refusal :=
  match s.env.host with
  | .act a :: rest => hostAct a (s.setHost rest)
  | _ => .fault .stuck

/-- The next step of a state. -/
def fetch (s : State) : Fetched :=
  if s.status.busy then
    if s.seq.phase = .xWrite ∧ s.env.silent = false then fetchFrame s else .done (hostAlone s)
  else fetchRequest s

/-- The opcode of the request that sends a frame, by the frame's first two bytes (R58). -/
def senderOp : List Byte → BitVec 4
  | b0 :: b1 :: _ =>
    match Command.ofOpcode (be16 b0 b1) with
    | some c => c.op
    | none => 0
  | _ => 0

/-- The state in which some bits are the next instruction: a request word is the host's next write of REQ, with
BUSY = 0; a frame stands in TXBUF, with its sender at X_WRITE (log entries 21 and 28). -/
def placeCode (c : Code) (s : State) : State :=
  match c with
  | .req r =>
    { s with
      seq := { curOp := none, phase := .idle }
      status := { s.status with busy := false }
      env := { s.env with silent := false, host := .request r :: s.env.host } }
  | .frame bytes =>
    { s with
      seq := { curOp := some (senderOp bytes), phase := .xWrite }
      status := { s.status with busy := true }
      txbuf := Memory.writeAll s.txbuf 0 bytes
      env := { s.env with silent := false } }

end Sys2Proof.Machine
end

