-- ==== Sys2Proof/Machine/Assembler.lean ====
section
/-! DEFINITION. The assembler of 30_encoding.md R70: reading the text of a line, and the host's steps of a line that is
read. -/

namespace Sys2Proof.Machine

/-- One line of R70. -/
inductive AsmLine where
  | crcInit
  | crcFeed (imm : Nat)
  | getVariant | selfTest | getDrdy | readMeas | measSingle | startPeriodic | stopPeriodic
  | frc (imm : Nat)
  | pollReady
  | session
  | sessionLast
  | setTerm (imm : Nat)
  /-- The pseudo-instruction `CRC b0, b1, ...`. -/
  | crc (bytes : List Nat)
  deriving DecidableEq, Repr

/-- The write of REQ that starts a request; a frame has none. -/
def requestStep (i : Instr) : Option HostStep :=
  match encode i with
  | .req r => some (.request r)
  | .frame _ => none

/-- A request line is one REQ word. -/
def assembleInstr (i : Instr) : Option (List HostStep) := (requestStep i).map fun h => [h]

/-- `CRC_FEED imm8`, refused outside 0 to 0xFF. -/
def assembleFeed (imm : Nat) : Option (List HostStep) :=
  if imm ≤ 0xFF then assembleInstr (.crcFeed (BitVec.ofNat 8 imm)) else none

/-- `CRC_FEED` for each byte of a list. -/
def assembleFeeds : List Nat → Option (List HostStep)
  | [] => some []
  | b :: bs =>
    match assembleFeed b, assembleFeeds bs with
    | some x, some xs => some (x ++ xs)
    | _, _ => none

/-- The host's steps of a line, or `none` where an operand is out of range (R70). SET_TERM's range is TERM's width (log
entry 29). -/
def assemble (p : Params) : AsmLine → Option (List HostStep)
  | .crcInit => assembleInstr .crcInit
  | .crcFeed imm => assembleFeed imm
  | .getVariant => assembleInstr .getVariant
  | .selfTest => assembleInstr .selfTest
  | .getDrdy => assembleInstr .getDrdy
  | .readMeas => assembleInstr .readMeas
  | .measSingle => assembleInstr .measSingle
  | .startPeriodic => assembleInstr .startPeriodic
  | .stopPeriodic => assembleInstr .stopPeriodic
  | .frc imm => if imm ≤ 0xFFFF then assembleInstr (.frc (BitVec.ofNat 16 imm)) else none
  | .pollReady => assembleInstr .pollReady
  | .session => assembleInstr (.session false)
  | .sessionLast => assembleInstr (.session true)
  | .setTerm imm => if imm < 2 ^ p.clockW then some [.act (.writeTerm imm)] else none
  | .crc bytes =>
    match assembleInstr .crcInit, assembleFeeds bytes with
    | some x, some xs => some (x ++ xs)
    | _, _ => none

/-! ### The text of a line -/

/-- The value of a digit of a base up to 16. -/
def digitValue (base : Nat) (c : Char) : Option Nat :=
  let n := c.toNat
  let v := if 48 ≤ n ∧ n ≤ 57 then some (n - 48)
    else if 65 ≤ n ∧ n ≤ 70 then some (n - 55)
    else if 97 ≤ n ∧ n ≤ 102 then some (n - 87)
    else none
  v.filter (· < base)

/-- The value of digits, from the value of those before them. -/
def digitsValue (base : Nat) : List Char → Nat → Option Nat
  | [], acc => some acc
  | c :: cs, acc =>
    match digitValue base c with
    | some d => digitsValue base cs (acc * base + d)
    | none => none

/-- A number: `0x` prefixes hexadecimal, a plain number is decimal (00_scope.md R9). -/
def readNumber : List Char → Option Nat
  | '0' :: 'x' :: c :: cs => digitsValue 16 (c :: cs) 0
  | c :: cs => digitsValue 10 (c :: cs) 0
  | [] => none

/-- Text without the spaces at its ends. -/
def trimSpaces (l : List Char) : List Char :=
  ((l.dropWhile (· = ' ')).reverse.dropWhile (· = ' ')).reverse

/-- The pieces of some text between commas. -/
def splitCommas : List Char → List (List Char)
  | [] => [[]]
  | ',' :: cs => [] :: splitCommas cs
  | c :: cs =>
    match splitCommas cs with
    | p :: ps => (c :: p) :: ps
    | [] => [[c]]

/-- The operands of a line: numbers between commas, or none. -/
def readOperands (l : List Char) : Option (List Nat) :=
  if trimSpaces l = [] then some [] else (splitCommas l).mapM fun p => readNumber (trimSpaces p)

/-- The line of a mnemonic and its operands. DESIGN CHOICE: `CRC` with no operand is a line, of CRC_INIT alone (R70 writes
`CRC b0, b1, ..., bn-1` and does not say whether n may be 0; log entry 29). -/
def lineOf (mnemonic : List Char) (operands : List Nat) : Option AsmLine :=
  if mnemonic = "CRC".toList then some (.crc operands)
  else
    match operands with
    | [] =>
      if mnemonic = "CRC_INIT".toList then some .crcInit
      else if mnemonic = "GET_VARIANT".toList then some .getVariant
      else if mnemonic = "SELF_TEST".toList then some .selfTest
      else if mnemonic = "GET_DRDY".toList then some .getDrdy
      else if mnemonic = "READ_MEAS".toList then some .readMeas
      else if mnemonic = "MEAS_SINGLE".toList then some .measSingle
      else if mnemonic = "START_PERIODIC".toList then some .startPeriodic
      else if mnemonic = "STOP_PERIODIC".toList then some .stopPeriodic
      else if mnemonic = "POLL_READY".toList then some .pollReady
      else if mnemonic = "SESSION".toList then some .session
      else if mnemonic = "SESSION.LAST".toList then some .sessionLast
      else none
    | [n] =>
      if mnemonic = "CRC_FEED".toList then some (.crcFeed n)
      else if mnemonic = "FRC".toList then some (.frc n)
      else if mnemonic = "SET_TERM".toList then some (.setTerm n)
      else none
    | _ :: _ :: _ => none

/-- The line that some text stands for: `MNEMONIC [operand]` (R70). -/
def readLine (text : String) : Option AsmLine :=
  let l := trimSpaces text.toList
  match readOperands (l.dropWhile (· ≠ ' ')) with
  | some ops => lineOf (l.takeWhile (· ≠ ' ')) ops
  | none => none

/-- The host's steps of a line of text. -/
def assembleText (p : Params) (text : String) : Option (List HostStep) :=
  match readLine text with
  | some l => assemble p l
  | none => none

end Sys2Proof.Machine
end

