-- ==== Sys2Proof/Machine/Measurement.lean ====
section
/-! DEFINITION. The physical values of a reading (42_transactions.md R106 to R108) and the host's Measurement
(44_session.md R145). -/

namespace Sys2Proof.Machine

/-- temp(w) = -45 + 175 * toInt(w) / 65535, exactly (R106). -/
def temp (w : Word) : Rat := -45 + 175 * (w.toNat : Rat) / 65535

/-- rh(w) = 100 * toInt(w) / 65535, exactly (R107). -/
def rh (w : Word) : Rat := 100 * (w.toNat : Rat) / 65535

/-- A finite binary64 value, `mant * 2^exp`: zero, or a mantissa of 53 bits (R108; log entry 25). -/
structure B64 where
  mant : Int
  exp : Int
  deriving DecidableEq, Repr

/-- The numerator and denominator of a binary64 value. -/
def B64.num (x : B64) : Int := if 0 ≤ x.exp then x.mant * 2 ^ x.exp.toNat else x.mant

/-- See `B64.num`. -/
def B64.den (x : B64) : Nat := if 0 ≤ x.exp then 1 else 2 ^ (-x.exp).toNat

/-- The exact value of a binary64 number. -/
def B64.toRat (x : B64) : Rat := (x.num : Rat) / (x.den : Rat)

/-- n/d rounded to an integer, to the nearest and to the even one between two. -/
def roundEven (n d : Nat) : Nat :=
  let q := n / d
  let r := n % d
  if 2 * r < d ∨ (2 * r = d ∧ q % 2 = 0) then q else q + 1

/-- n/d scaled by 2^(-e), rounded to an integer. -/
def roundScaled (n d : Nat) (e : Int) : Nat :=
  if 0 ≤ e then roundEven n (d * 2 ^ e.toNat) else roundEven (n * 2 ^ (-e).toNat) d

/-- The exponent of n/d's 53-bit mantissa: 2^52 ≤ (n/d) * 2^(-e) < 2^53. -/
def scaleOf (n d : Nat) : Int :=
  let k : Int := (Nat.log2 n : Int) - (Nat.log2 d : Int)
  if (if 0 ≤ k then d * 2 ^ k.toNat ≤ n else d ≤ n * 2 ^ (-k).toNat) then k - 52 else k - 53

/-- n/d in binary64, rounded once, to nearest even (R108). -/
def roundFrac (n : Int) (d : Nat) : B64 :=
  if n = 0 then { mant := 0, exp := 0 }
  else
    let e := scaleOf n.natAbs d
    let m := roundScaled n.natAbs d e
    let x : Nat × Int := if m = 2 ^ 53 then (2 ^ 52, e + 1) else (m, e)
    { mant := if n < 0 then -(x.1 : Int) else x.1, exp := x.2 }

/-- double(n), for an integer of at most 53 bits: exact (R108). -/
def B64.ofInt (n : Int) : B64 := roundFrac n 1

/-- The sum, rounded once. -/
def B64.add (x y : B64) : B64 := roundFrac (x.num * y.den + y.num * x.den) (x.den * y.den)

/-- The product, rounded once. -/
def B64.mul (x y : B64) : B64 := roundFrac (x.num * y.num) (x.den * y.den)

/-- The quotient by a positive value, rounded once. -/
def B64.div (x y : B64) : B64 := roundFrac (x.num * y.den) (x.den * y.num.natAbs)

/-- The 64 bits of a value in the normal range, or of zero. -/
def B64.bits (x : B64) : BitVec 64 :=
  if x.mant = 0 then 0
  else BitVec.ofBool (decide (x.mant < 0)) ++ BitVec.ofNat 11 (x.exp + 1075).toNat ++ BitVec.ofNat 52 x.mant.natAbs

/-- tempF(w) = (-45.0) + (175.0 * (double(w) / 65535.0)) (R108). -/
def tempF (w : Word) : B64 :=
  B64.add (B64.ofInt (-45)) (B64.mul (B64.ofInt 175) (B64.div (B64.ofInt w.toNat) (B64.ofInt 65535)))

/-- rhF(w) = 100.0 * (double(w) / 65535.0) (R108). -/
def rhF (w : Word) : B64 := B64.mul (B64.ofInt 100) (B64.div (B64.ofInt w.toNat) (B64.ofInt 65535))

/-- The source's Measurement, which the host builds from a reading. The device identifier and the status code are the
host's own (44_session.md R145, D28). -/
structure Measurement where
  device : Int
  timestamp : Nat
  co2 : Nat
  temperature : B64
  humidity : B64
  statusCode : Int
  deriving DecidableEq, Repr

/-- The host's timestamp of a sample: the whole seconds since the clock's zero (R145: "second-resolution"; 60_exceptions.md
R160). DESIGN CHOICE: the epoch, and the part of a second dropped (log entry 32). -/
def Params.seconds (p : Params) (ts : Nat) : Nat := ts * p.unit / p.ticksPerSecond.val

/-- The Measurement of a reading, with the host's two fields (R145). -/
def Reading.measurement (p : Params) (device statusCode : Int) (r : Reading) : Measurement :=
  { device := device, timestamp := Params.seconds p r.ts, co2 := r.co2.toNat, temperature := tempF r.tRaw
    humidity := rhF r.rhRaw, statusCode := statusCode }

end Sys2Proof.Machine
end

