-- ==== Sys2Proof/Safety.lean ====
section
/-! DEFINITION. What claims are stated with: runs that stop at no fault, the invariant of the machine, the duties of the
host, what an exchange comes to by its answers, how a request ends, and what a run sent, waited for and emitted. -/

namespace Sys2Proof.Machine

/-! ### Safe steps and the host's duties -/

/-- A step that neither faults nor is refused. -/
def SafeStep (s : State) : Prop := ∃ t, step s = .next t

/-- The host's duty of 70_reset_and_hazards.md R185: results, ERR and ERR_INFO are read only with BUSY = 0 and
DONE = 1. -/
def dutifulRead (s : State) (r : HostReg) : Bool :=
  match r with
  | .req => false
  | .term => true
  | .status => true
  | _ => !s.status.busy && s.status.done

/-- The host's duty of 60_exceptions.md R160: the clock fits the CLOCK_W-bit registers. -/
def clockFits (s : State) : Bool := s.least < 2 ^ s.params.clockW

/-- The boot order of R172: GET_VARIANT, SELF_TEST, a write of TERM, then sessions. DESIGN CHOICE (log entry 33), as R172
gives the order of its steps and no more: nothing stands between the first three, not even a read, and after them no
request but SESSION is issued. -/
def bootOrder : List HostStep → Bool
  | .request a :: .request b :: .act (.writeTerm _) :: rest =>
    decide (accepted (decodeReq a) = some .getVariant) && decide (accepted (decodeReq b) = some .selfTest) &&
      rest.all fun h =>
        match h with
        | .request r =>
          decide (accepted (decodeReq r) = some (.session false)) || decide (accepted (decodeReq r) = some (.session true))
        | .act _ => true
  | _ => false

/-! ### The invariant -/

/-- What holds in every state a run reaches, and what every step keeps. -/
structure State.Inv (s : State) : Prop where
  /-- TXBUF is in canonical form and has five cells (10_state.md R31). -/
  tx : Memory.wf s.txbuf = true ∧ Memory.within txLen s.txbuf = true
  /-- RXBUF is in canonical form and has nine cells (R31). -/
  rx : Memory.wf s.rxbuf = true ∧ Memory.within rxLen s.rxbuf = true
  /-- ATTEMPT is at most 11 (R28). -/
  attempt : s.poll.attempt.toNat ≤ maxAttempts
  /-- TERM fits CLOCK_W bits (R22). -/
  term : s.term < 2 ^ s.params.clockW
  /-- READY says DRDY ≠ 0 (R23). -/
  ready : s.status.ready = readyFlag s.results.drdy
  /-- With BUSY = 0 the sequencer is (IDLE, —), no session is on, and no transport call is in flight (R21, R30). -/
  idle : s.status.busy = false →
    s.seq = { curOp := none, phase := .idle } ∧ s.measuring = false ∧ s.env.silent = false
  /-- With BUSY = 1 a request runs, DONE and RVALID are 0 and ERR is 0 (R32), and the sequencer is at the start of a
  transaction or in a transport call. -/
  running : s.status.busy = true →
    s.seq.curOp ≠ none ∧ s.status.done = false ∧ s.status.rvalid = false ∧ s.err = ErrReg.zero ∧ s.errInfo = 0 ∧
      (s.env.silent = true ∨ s.seq.phase = .xWrite)
  /-- MEASURING is 1 only in a session (R30). -/
  measuring : s.measuring = true → s.seq.curOp = some 0xB#4
  /-- RVALID is 1 only after a success (R23). -/
  rvalid : s.status.rvalid = true → s.status.done = true ∧ s.err.kind = .none
  /-- The observer has moved only if SHUTDOWN is 1 (44_session.md R143). -/
  observer : s.env.observer ≠ .resting → s.shutdown = true

/-! ### Illegal request words, from the table of 30_encoding.md R62 -/

/-- The must-be-0 bits of a legal OP (R62). -/
def mustBeZeroMask (op : Nat) : BitVec 32 :=
  if op = 0x1 then 0xFF00FFF0#32
  else if op = 0x9 then 0x0000FFF0#32
  else if op = 0xB then 0xFFFFFFE0#32
  else 0xFFFFFFF0#32

/-- A request word that is illegal by R66's two cases. -/
def illegalWord (r : BitVec 32) : Bool :=
  0xC ≤ (reqOp r).toNat || r &&& mustBeZeroMask (reqOp r).toNat ≠ 0

/-! ### What an exchange comes to, by the transport's answers (20_memory.md R40, 42_transactions.md R100) -/

/-- The end of a transaction: TRANSPORT with ERR_INFO, no answer, or the response. -/
inductive Exchange where
  | failed (info : Word)
  | unanswered
  | response (bytes : List Byte)
  deriving DecidableEq, Repr

/-- The end of a transaction that writes `nw` bytes and reads `nr`, given the answers. -/
def exchangeOf (nw nr : Nat) (a : WriteAnswer) (r : ReadAnswer) : Exchange :=
  match a with
  | .never => .unanswered
  | .err => .failed 0xFFFF#16
  | .ok k =>
    if k < nw then .failed (BitVec.ofNat 16 k)
    else if nr = 0 then .response []
    else
      match r with
      | .never => .unanswered
      | .err => .failed 0xFFFF#16
      | .ok bytes =>
        if bytes.length < nr then .failed (BitVec.ofNat 16 bytes.length) else .response (bytes.take nr)

/-- PHASE at the end of a transaction (R100): the call that failed or that is not answered, the wait of a command with no
response, or the response's check. -/
def xactPhase (nw nr : Nat) (a : WriteAnswer) (r : ReadAnswer) : Phase :=
  match a with
  | .ok k =>
    if k < nw then .xWrite
    else if nr = 0 then .xWait
    else
      match r with
      | .ok bytes => if bytes.length < nr then .xRead else .xCheck
      | _ => .xRead
  | _ => .xWrite

/-- The bytes of a valid group of a word (30_encoding.md R61). -/
def validGroup (w : Word) : List Byte :=
  [w.extractLsb' 8 8, w.extractLsb' 0 8, crc8 [w.extractLsb' 8 8, w.extractLsb' 0 8]]

/-- The first failing group of a response, from group `k` on, as the error it raises (R101, R105). -/
def groupFailure (op : BitVec 4) : Nat → List Byte → Option Err
  | k, b0 :: b1 :: ck :: rest =>
    if crc8 [b0, b1] = ck then groupFailure op (k + 1) rest
    else some { kind := .checksum, op := op, group := BitVec.ofNat 2 k, info := crc8 [b0, b1] ++ ck }
  | _, _ => none

/-- The error with which an exchange of the operation `op` fails, by TRANSPORT or in a group (60_exceptions.md R152). -/
def exchangeFailure (op : BitVec 4) : Exchange → Option Err
  | .failed info => some { kind := .transport, op := op, group := 0, info := info }
  | .unanswered => none
  | .response bytes => groupFailure op 1 bytes

/-- Listed answers with which a poll ends READY after `k` exchanges (43_polling.md R122, R123): `k - 1` status words that are
not ready, and then the ready one `w`. -/
def ReadyPoll (w : Word) (k : Nat) (writes : List WriteAnswer) (reads : List ReadAnswer) : Prop :=
  ∃ nr : List Word, (∀ x ∈ nr, x &&& 0x07FF#16 = 0#16) ∧ w &&& 0x07FF#16 ≠ 0#16 ∧ nr.length ≤ 10 ∧
    k = nr.length + 1 ∧ writes = List.replicate k (.ok 2) ∧ reads = (nr ++ [w]).map fun x => .ok (validGroup x)

/-- Listed answers with which a poll ends FAILED with the error `e` after `k` exchanges, of which those that complete give
the words `nr`, none of them ready: `k - 1` of them and an exchange that fails (R125), or eleven of them (R124). -/
def FailingPoll (e : Err) (nr : List Word) (k : Nat) (writes : List WriteAnswer) (reads : List ReadAnswer) : Prop :=
  (∀ x ∈ nr, x &&& 0x07FF#16 = 0#16) ∧
    ((∃ a r, exchangeFailure 0x4#4 (exchangeOf 2 3 a r) = some e ∧ nr.length ≤ 10 ∧ k = nr.length + 1 ∧
      writes = List.replicate nr.length (.ok 2) ++ [a] ∧ reads = nr.map (fun x => .ok (validGroup x)) ++ [r]) ∨
     (e = { kind := .timeout, op := 0xA#4, group := 0, info := 11#16 } ∧ nr.length = 11 ∧ k = 11 ∧
      writes = List.replicate 11 (.ok 2) ∧ reads = nr.map fun x => .ok (validGroup x)))

/-- Whether an event is one of a transaction's: its write, its wait, its read. -/
def Event.isBus : Event → Bool
  | .memWrite _ _ _ => true
  | .memRead _ _ _ => true
  | .delay _ _ => true
  | _ => false

/-- The bus events and waits of some events. -/
def busOf (evs : List Event) : List Event := evs.filter Event.isBus

/-- What a transaction does on the bus, by the transport's answers, the newest first (42_transactions.md R100): a failed
write is followed by no wait and no read. -/
def xactEvents (c : Command) (frame : List Byte) (a : WriteAnswer) (r : ReadAnswer) (p : Params) : List Event :=
  match a with
  | .ok k =>
    if k < frame.length then [.memWrite p.i2cAddr frame (.ok k)]
    else
      (if c.respLen = 0 then [] else [.memRead p.i2cAddr c.respLen (ReadAnswer.lawful c.respLen r)]) ++
        [.delay (.exec c) (p.waitOf c), .memWrite p.i2cAddr frame (.ok frame.length)]
  | a => [.memWrite p.i2cAddr frame a]

/-- What a poll does on the bus, by the answers to its exchanges, the newest first: a delay of POLL_INTERVAL between two
attempts, none before the first and none after the last (43_polling.md R122, R123). -/
def pollEvents (p : Params) : List (WriteAnswer × ReadAnswer) → List Event
  | [] => []
  | x :: rest =>
    pollEvents p rest ++ (if rest.isEmpty then [] else [.delay .poll p.pollInterval]) ++
      xactEvents .getDrdy [0xE4#8, 0xB8#8] x.1 x.2 p

/-- What a session's start does on the bus (44_session.md R132). -/
def startEvents (p : Params) (a : WriteAnswer) : List Event := xactEvents .startPeriodic [0x21#8, 0xB1#8] a .err p

/-- What an iteration of a session does on the bus, by the answers to its poll and to its read, the newest first (R135,
R136). -/
def iterationEvents (p : Params) (poll : List (WriteAnswer × ReadAnswer)) (a : WriteAnswer) (r : ReadAnswer) : List Event :=
  xactEvents .readMeas [0xEC#8, 0x05#8] a r p ++ pollEvents p poll

/-- Between `s` and `t` the bus saw `evs`, the newest first. -/
def OnBus (evs : List Event) (s t : State) : Prop := busOf t.trace = evs ++ busOf s.trace

/-- The next answers of the transport are listed: `a` to the next write and `r` to the next read. -/
def Answers (s : State) (a : WriteAnswer) (r : ReadAnswer) : Prop :=
  s.env.writes.head? = some a ∧ s.env.reads.head? = some r

/-! ### How a request ends -/

/-- The request has ended: BUSY = 0, DONE = 1, SEQ = (IDLE, —) (60_exceptions.md R153, R154). -/
def Ended (t : State) : Prop :=
  t.status.busy = false ∧ t.status.done = true ∧ t.seq = { curOp := none, phase := .idle }

/-- The request has ended with an error (R153): the fields of ERR, ERR_INFO, ERRF and RVALID. -/
def EndedWith (e : Err) (ctx : BitVec 4) (kind2 : ErrKind) (t : State) : Prop :=
  Ended t ∧ t.err = { kind := e.kind, op := e.op, ctx := ctx, group := e.group, kind2 := kind2 } ∧
    t.errInfo = e.info ∧ t.errf = true ∧ t.status.rvalid = false

/-- The request of `s` has ended with success (R154); `rvalid` is what RVALID then is. ERR is as it was. -/
def EndedWell (rvalid : Bool) (s t : State) : Prop :=
  Ended t ∧ t.err = s.err ∧ t.errInfo = s.errInfo ∧ t.status.rvalid = rvalid

/-- The request of `s` is still in flight: a transport call has not answered (20_memory.md R40 law c). -/
def InFlight (s t : State) : Prop :=
  t.env.silent = true ∧ t.status.busy = s.status.busy ∧ t.seq.curOp = s.seq.curOp ∧
    (t.seq.phase = .xWrite ∨ t.seq.phase = .xRead)

/-- The CTX that a raise of the request of `s` reports: CUR_OP (R153). -/
def ctxOf (s : State) : BitVec 4 := s.seq.curOp.getD 0

/-! ### The rules of the sensor commands, by what the exchange comes to -/

/-- The end of a request whose exchange came to `x`: TRANSPORT with OP = `op` (60_exceptions.md R150), still in flight, or
what `good` says of the response. Without a whole response no result is written (R153). -/
def ExchangeRule (op : BitVec 4) (x : Exchange) (s t : State) (good : List Byte → Prop) : Prop :=
  match x with
  | .unanswered => InFlight s t ∧ t.results = s.results ∧ t.status = s.status
  | .failed info =>
    EndedWith { kind := .transport, op := op, group := 0, info := info } (ctxOf s) .none t ∧
      t.results = s.results ∧ t.status.ready = s.status.ready ∧ t.status.passed = s.status.passed
  | .response bytes => good bytes

/-- CHECKSUM in group `g`, with the computed and the received byte (42_transactions.md R101). -/
def ChecksumEnd (op : BitVec 4) (g : BitVec 2) (computed received : Byte) (s t : State) : Prop :=
  EndedWith { kind := .checksum, op := op, group := g, info := computed ++ received } (ctxOf s) .none t ∧
    t.results = s.results ∧ t.status.ready = s.status.ready ∧ t.status.passed = s.status.passed

/-- GET_VARIANT's rule (R102). -/
def VariantRule (x : Exchange) (s t : State) : Prop :=
  ExchangeRule 0x2#4 x s t fun bytes =>
    ∃ b0 b1 ck, bytes = [b0, b1, ck] ∧
      if crc8 [b0, b1] ≠ ck then ChecksumEnd 0x2#4 1 (crc8 [b0, b1]) ck s t
      else if s.params.variantOk.contains (b0 ++ b1) then
        EndedWell true s t ∧ t.results = { s.results with word := b0 ++ b1, wordWritten := true }
      else
        EndedWith { kind := .protocol, op := 0x2#4, group := 0, info := b0 ++ b1 } (ctxOf s) .none t ∧
          t.results = s.results

/-- SELF_TEST's rule (R103). -/
def SelfTestRule (x : Exchange) (s t : State) : Prop :=
  ExchangeRule 0x3#4 x s t fun bytes =>
    ∃ b0 b1 ck, bytes = [b0, b1, ck] ∧
      if crc8 [b0, b1] ≠ ck then ChecksumEnd 0x3#4 1 (crc8 [b0, b1]) ck s t
      else if b0 ++ b1 = 0#16 then
        EndedWell true s t ∧ t.status.passed = true ∧
          t.results = { s.results with word := 0, wordWritten := true }
      else
        EndedWith { kind := .protocol, op := 0x3#4, group := 0, info := b0 ++ b1 } (ctxOf s) .none t ∧
          t.status.passed = false ∧ t.results = s.results

/-- GET_DRDY's rule (R104). -/
def DrdyRule (x : Exchange) (s t : State) : Prop :=
  ExchangeRule 0x4#4 x s t fun bytes =>
    ∃ b0 b1 ck, bytes = [b0, b1, ck] ∧
      if crc8 [b0, b1] ≠ ck then ChecksumEnd 0x4#4 1 (crc8 [b0, b1]) ck s t
      else
        EndedWell true s t ∧
          t.results =
            { s.results with
              word := b0 ++ b1, wordWritten := true, drdy := (b0 ++ b1).extractLsb' 0 11, drdyWritten := true } ∧
          t.status.ready = decide ((b0 ++ b1) &&& 0x07FF#16 ≠ 0)

/-- READ_MEAS's rule (R105): the first failing group is the one reported. -/
def MeasRule (x : Exchange) (s t : State) : Prop :=
  ExchangeRule 0x5#4 x s t fun bytes =>
    ∃ a0 a1 c1 b0 b1 c2 d0 d1 c3, bytes = [a0, a1, c1, b0, b1, c2, d0, d1, c3] ∧
      if crc8 [a0, a1] ≠ c1 then ChecksumEnd 0x5#4 1 (crc8 [a0, a1]) c1 s t
      else if crc8 [b0, b1] ≠ c2 then ChecksumEnd 0x5#4 2 (crc8 [b0, b1]) c2 s t
      else if crc8 [d0, d1] ≠ c3 then ChecksumEnd 0x5#4 3 (crc8 [d0, d1]) c3 s t
      else
        EndedWell true s t ∧
          ∃ ts, s.least ≤ ts ∧ t.trace.head? = some (.now ts) ∧
            t.results =
              { s.results with co2 := a0 ++ a1, tRaw := b0 ++ b1, rhRaw := d0 ++ d1, ts := ts, measWritten := true }

/-- FRC's rule (R109): FF FF comes before the checksum. -/
def FrcRule (x : Exchange) (s t : State) : Prop :=
  ExchangeRule 0x9#4 x s t fun bytes =>
    ∃ b0 b1 ck, bytes = [b0, b1, ck] ∧
      if b0 = 0xFF#8 ∧ b1 = 0xFF#8 then
        EndedWith { kind := .protocol, op := 0x9#4, group := 0, info := 0xFFFF#16 } (ctxOf s) .none t ∧
          t.results = s.results
      else if crc8 [b0, b1] ≠ ck then ChecksumEnd 0x9#4 1 (crc8 [b0, b1]) ck s t
      else
        EndedWell true s t ∧
          ∃ corr : Word, corr.toInt = ((b0 ++ b1).toNat : Int) - 0x8000 ∧
            t.results =
              { s.results with word := b0 ++ b1, wordWritten := true, corr := corr, corrWritten := true }

/-- The rule of a command with no response (R110 to R112): RVALID is left alone. -/
def NoResponseRule (op : BitVec 4) (x : Exchange) (s t : State) : Prop :=
  ExchangeRule op x s t fun bytes =>
    bytes = [] ∧ EndedWell s.status.rvalid s t ∧ t.results = s.results ∧ t.rxbuf = s.rxbuf

/-! ### What a request leaves alone -/

/-- Nothing but bus traffic and the observer touched these between `s` and `t`. SHUTDOWN is never cleared, and the events
only grow. -/
structure SameRegs (s t : State) : Prop where
  params : t.params = s.params
  curOp : t.seq.curOp = s.seq.curOp
  req : t.req = s.req
  term : t.term = s.term
  status : t.status = s.status
  err : t.err = s.err
  errInfo : t.errInfo = s.errInfo
  acc : t.acc = s.acc
  results : t.results = s.results
  poll : t.poll = s.poll
  measuring : t.measuring = s.measuring
  session : t.session = s.session
  host : t.env.host = s.env.host
  shutdown : s.shutdown = true → t.shutdown = true
  trace : ∃ evs, t.trace = evs ++ s.trace

/-- Where no move of the observer is listed, SHUTDOWN stays as it was: nothing but the observer sets it (10_state.md R29,
R30). -/
def Still (s t : State) : Prop := s.env.during = [] → t.env.during = [] ∧ t.shutdown = s.shutdown

/-- SHUTDOWN is 1, or the observer, not having moved yet, sets it in one of its next `n` turns (44_session.md R143; the
points where it has a turn are log entry 5). -/
def ShutdownWithin (n : Nat) (s : State) : Prop :=
  s.shutdown = true ∨ (s.env.observer = .resting ∧ ∃ ms ∈ s.env.during.take n, ObserverMove.setShutdown ∈ ms)

/-- What every request but SESSION leaves alone: the parameters, REQ, TERM, MEASURING, the session's registers and the
host's program. -/
structure SameHostSide (s t : State) : Prop where
  params : t.params = s.params
  req : t.req = s.req
  term : t.term = s.term
  measuring : t.measuring = s.measuring
  session : t.session = s.session
  host : t.env.host = s.env.host
  shutdown : s.shutdown = true → t.shutdown = true
  still : Still s t
  trace : ∃ evs, t.trace = evs ++ s.trace

/-- Only the first `n` cells of TXBUF may have been written. -/
def TxKept (n : Nat) (s t : State) : Prop := ∀ a, n ≤ a → Memory.read t.txbuf a = Memory.read s.txbuf a

/-- Only the first `n` cells of RXBUF may have been written. -/
def RxKept (n : Nat) (s t : State) : Prop := ∀ a, n ≤ a → Memory.read t.rxbuf a = Memory.read s.rxbuf a

/-- The registers that READ_MEAS writes are as they were: CO2, T_RAW, RH_RAW and TS. -/
def MeasKept (s t : State) : Prop := readingOf t = readingOf s ∧ t.results.measWritten = s.results.measWritten

/-- The registers that a poll writes are as they were: PSTATE, ATTEMPT, WORD, DRDY and READY. -/
def PollKept (s t : State) : Prop :=
  t.poll = s.poll ∧ t.results.word = s.results.word ∧ t.results.wordWritten = s.results.wordWritten ∧
    t.results.drdy = s.results.drdy ∧ t.results.drdyWritten = s.results.drdyWritten ∧ t.status.ready = s.status.ready

/-- CO2, T_RAW, RH_RAW and TS hold the reading `r`. -/
def MeasHeld (r : Reading) (t : State) : Prop := readingOf t = r ∧ t.results.measWritten = true

/-- The registers of a poll that ended READY on attempt `k` with the status word `w` (42_transactions.md R104, 43_polling.md
R122). -/
def PolledReady (w : Word) (k : Nat) (t : State) : Prop :=
  t.poll = { pstate := .ready, attempt := BitVec.ofNat 4 k } ∧ t.results.word = w ∧ t.results.wordWritten = true ∧
    t.results.drdy = w.extractLsb' 0 11 ∧ t.results.drdyWritten = true ∧ t.status.ready = true

/-- WORD, DRDY and READY hold the status word `w` (42_transactions.md R104). -/
def Queried (w : Word) (t : State) : Prop :=
  t.results.word = w ∧ t.results.wordWritten = true ∧ t.results.drdy = w.extractLsb' 0 11 ∧
    t.results.drdyWritten = true ∧ t.status.ready = decide (w &&& 0x07FF#16 ≠ 0#16)

/-- WORD, DRDY and READY after status exchanges of which those that completed gave the words `ws`: they hold the last word,
or are as they were in `s` where none completed (43_polling.md R127, 60_exceptions.md R153). -/
def LastAnswer (ws : List Word) (s t : State) : Prop :=
  match ws.getLast? with
  | some w => Queried w t
  | none =>
    t.results.word = s.results.word ∧ t.results.wordWritten = s.results.wordWritten ∧
      t.results.drdy = s.results.drdy ∧ t.results.drdyWritten = s.results.drdyWritten ∧
      t.status.ready = s.status.ready

/-- The registers of a poll that ended FAILED on attempt `k`, where `ws` are the status words since `s` (R124, R125). -/
def PolledFailed (ws : List Word) (k : Nat) (s t : State) : Prop :=
  t.poll = { pstate := .failed, attempt := BitVec.ofNat 4 k } ∧ LastAnswer ws s t

/-- A register after two runs: both wrote the same value to it, or neither wrote it. -/
def WroteAlike {α : Type} (f : State → α) (s u s' u' : State) : Prop :=
  f s' = f u' ∨ (f s' = f s ∧ f u' = f u)

/-! ### What a run sent, waited for and emitted -/

/-- The frame of an event that is a `MemWrite`. -/
def Event.sent : Event → Option (List Byte)
  | .memWrite _ frame _ => some frame
  | _ => none

/-- The reading of an event that is an `Emit`. -/
def Event.emitted : Event → Option Reading
  | .emit rec => some rec
  | _ => none

/-- The sample of an event that is a `Now`. -/
def Event.sampled : Event → Option Nat
  | .now t => some t
  | _ => none

/-- The clock samples of some events, in the events' order. -/
def samplesOf (evs : List Event) : List Nat := evs.filterMap Event.sampled

/-- Every clock sample so far lies before the least that CLOCK_ADVANCES admits after a transaction that completes from here
(60_exceptions.md R160). -/
def Sampled (s : State) : Prop := ∀ n ∈ samplesOf s.trace, n < s.clock.afterXact

/-- The frames of some events, in the events' order. -/
def framesOf (evs : List Event) : List (List Byte) := evs.filterMap Event.sent

/-- The readings of some events, in the events' order. -/
def readingsOf (evs : List Event) : List Reading := evs.filterMap Event.emitted

/-- How often a frame was sent. -/
def sentCount (frame : List Byte) (evs : List Event) : Nat := (framesOf evs).count frame

/-- Whether an event is a delay of POLL_INTERVAL between two attempts. -/
def Event.isPollDelay : Event → Bool
  | .delay .poll _ => true
  | _ => false

/-- How many delays of POLL_INTERVAL were made. -/
def pollDelays (evs : List Event) : Nat := evs.countP Event.isPollDelay

/-- Whether an event keeps R40's laws (a) and (b), and sends one of the eight frames of 30_encoding.md R58 (R67). -/
def Event.lawful : Event → Bool
  | .memWrite _ frame a =>
    (match a with
      | .ok k => decide (k ≤ frame.length)
      | _ => true) &&
    (match takeFrame frame with
      | .ok (_, []) => true
      | _ => false)
  | .memRead _ n r =>
    match r with
    | .ok bytes => decide (bytes.length ≤ n)
    | _ => true
  | _ => true

/-- The session of `s` has ended with the error `e` (44_session.md R140, R141): CTX = 0xB, KIND2 says whether the stop
failed too by its answer `b`, MEASURING = 0, and it emitted `readings`, sent `frames` and saw `bus` on the bus before its
one stop, the newest first. -/
def AbortedWith (e : Err) (b : WriteAnswer) (readings : List Reading) (frames : List (List Byte)) (bus : List Event)
    (s t : State) : Prop :=
  EndedWith e 0xB#4 (if exchangeOf 2 0 b .err = .response [] then .none else .transport) t ∧ t.measuring = false ∧
    readingsOf t.trace = readings ++ readingsOf s.trace ∧
    framesOf t.trace = [0x3F#8, 0x86#8] :: frames ++ framesOf s.trace ∧
    OnBus (xactEvents .stopPeriodic [0x3F#8, 0x86#8] b .err s.params ++ bus) s t

/-- The session of `s` has gone through its loop without an error: MEASURING = 0, `readings` were emitted, `frames` sent and
`bus` seen on the bus before its one stop, the newest first, and it completes, or reports a failed stop (R139 to R141). -/
def StoppedAfter (b : WriteAnswer) (readings : List Reading) (frames : List (List Byte)) (bus : List Event) (s t : State) :
    Prop :=
  t.measuring = false ∧ readingsOf t.trace = readings ++ readingsOf s.trace ∧
    framesOf t.trace = [0x3F#8, 0x86#8] :: frames ++ framesOf s.trace ∧
    OnBus (xactEvents .stopPeriodic [0x3F#8, 0x86#8] b .err s.params ++ bus) s t ∧
    match exchangeOf 2 0 b .err with
    | .failed info => EndedWith { kind := .transport, op := 0x8#4, group := 0, info := info } 0xB#4 .none t
    | _ => EndedWell true s t

/-! ### Programs -/

/-- Instructions one after another, stopping at the first that does not answer `next`. -/
def execAll : List Instr → State → Host.Outcome State Fault Refusal
  | [], s => .next s
  | i :: is, s =>
    match exec i s with
    | .next t => execAll is t
    | .fault f => .fault f
    | .refused r => .refused r

/-- Whether an instruction is one of the two that write ACC (10_state.md R27). -/
def writesAcc : Instr → Bool
  | .crcInit => true
  | .crcFeed _ => true
  | _ => false

end Sys2Proof.Machine
end

