-- ==== Sys2Proof/Certificates/Slice0/Obligations.lean ====
section
/-! DEFINITION. The statements for the provers, each from the numbered rules of spec/. -/

open Sys2Proof Sys2Proof.Machine

/-! ### Encoding -/

/-- Decoding the bits of a well-formed instruction gives it back (30_encoding.md R57 to R69). -/
def Obligations.EncodeThenDecode : Prop :=
  ∀ i : Instr, i.wellFormed = true → decode (encode i) = .ok i

/-- Bits that decode are the encoding of a well-formed instruction: no two words, and no two frames, stand for one
instruction, and no reserved bit is dropped (R58, R62, R66, R69). -/
def Obligations.DecodedBitsAreTheEncoding : Prop :=
  ∀ (c : Code) (i : Instr), decode c = .ok i → encode i = c ∧ i.wellFormed = true

/-- Words written out from the spec's encodings (R58, R60, R63; 95_test_vectors.md E1 to E14, V2). -/
def Obligations.SpecWordsDecode : Prop :=
  decode (.req 0x00BE0001#32) = .ok (.crcFeed 0xBE#8) ∧
  decode (.req 0x00000005#32) = .ok .readMeas ∧
  decode (.req 0x01900009#32) = .ok (.frc 400#16) ∧
  decode (.req 0x0000000A#32) = .ok .pollReady ∧
  decode (.req 0x0000001B#32) = .ok (.session true) ∧
  decode (.frame [0xEC#8, 0x05#8]) = .ok .frameReadMeas ∧
  decode (.frame [0x36#8, 0x2F#8, 0x01#8, 0x90#8, 0x4C#8]) = .ok (.frameFrc 400#16 0x4C#8)

/-- A request word is rejected just when R66's two cases, over R62's must-be-0 bits, say so. -/
def Obligations.IllegalWordsAreTheRejectedOnes : Prop :=
  ∀ r : BitVec 32, illegalWord r = true ↔ ∃ e, decodeReq r = .error e

/-- Every FRC frame has five bytes and ends with the checksum of its target; every other frame has two bytes, which are
its opcode (41_command_codec.md R99). -/
def Obligations.FramesHaveTheirLengthAndChecksum : Prop :=
  (∀ target : Word, (frameFrc target).length = 5 ∧
    (frameFrc target)[4]? = some (crc8 [target.extractLsb' 8 8, target.extractLsb' 0 8])) ∧
  ∀ (c : Command) (target : Word), c ≠ .frc →
    ∃ b0 b1, wireFrame c target = [b0, b1] ∧ b0 ++ b1 = c.opcode ∧ Command.ofOpcode (b0 ++ b1) = some c

/-! ### One step -/

/-- With BUSY = 0 and a legal word as the host's next write of REQ, a step is the acceptance (R32) and then the decoded
instruction. -/
def Obligations.StepRunsTheRequest : Prop :=
  ∀ (s : State) (r : BitVec 32) (rest : List HostStep) (i : Instr), s.status.busy = false →
    s.env.host = .request r :: rest → decodeReq r = .ok i →
      step s = exec i (accept r { s with env := { s.env with host := rest } })

/-- At X_WRITE, a step is the instruction of the frame that TXBUF starts with. -/
def Obligations.StepRunsTheFrame : Prop :=
  ∀ (s : State) (i : Instr) (rest : List Byte), s.status.busy = true → s.env.silent = false →
    s.seq.phase = .xWrite → takeFrame (Memory.leading s.txbuf 0 5) = .ok (i, rest) → step s = exec i s

/-- Placing a legal request word, or a whole frame, makes it what the next step runs. -/
def Obligations.PlacedCodeRunsNext : Prop :=
  (∀ (s : State) (r : BitVec 32) (i : Instr), decodeReq r = .ok i →
    step (placeCode (.req r) s) = exec i (accept r (placeCode (.req r) s |>.setHost s.env.host))) ∧
  ∀ (s : State) (bytes : List Byte) (i : Instr), decodeFrame bytes = .ok i →
    step (placeCode (.frame bytes) s) = exec i (placeCode (.frame bytes) s)

/-- The acceptance of a request: exactly R32's writes, with REQ latched. While BUSY = 1 no write of REQ is taken: with a
transport call in flight the host's write has no transition, and no other step takes it from the host's program. -/
def Obligations.AcceptanceAndBusy : Prop :=
  (∀ (r : BitVec 32) (s : State), accept r s =
    { s with
      seq := { curOp := some (r.extractLsb' 0 4), phase := .idle }
      req := r
      status := { s.status with busy := true, done := false, rvalid := false }
      err := { kind := .none, op := 0, ctx := 0, group := 0, kind2 := .none }
      errInfo := 0 }) ∧
  (∀ (s : State) (r : BitVec 32) (rest : List HostStep), s.status.busy = true → s.env.silent = true →
    s.env.host = .request r :: rest → step s = .fault .stuck) ∧
  ∀ (s t : State) (r : BitVec 32) (rest : List HostStep), s.status.busy = true →
    s.env.host = .request r :: rest → step s = .next t → t.env.host = .request r :: rest ∧ t.req = s.req

/-- A request word that R66 calls illegal is accepted and raises ILLEGAL with OP = CTX = its OP and ERR_INFO =
REQ[15:0]; beside the raise itself nothing happens, and nothing else changes. -/
def Obligations.IllegalRequestRaisesIllegal : Prop :=
  ∀ (s : State) (r : BitVec 32) (rest : List HostStep), s.status.busy = false →
    s.env.host = .request r :: rest → illegalWord r = true →
      step s = .next
        { s with
          seq := { curOp := none, phase := .idle }
          req := r
          status := { s.status with busy := false, done := true, rvalid := false }
          err :=
            { kind := .illegal, op := r.extractLsb' 0 4, ctx := r.extractLsb' 0 4, group := 0, kind2 := .none }
          errInfo := r.extractLsb' 0 16
          env := { s.env with host := rest }
          trace :=
            .raise { kind := .illegal, op := r.extractLsb' 0 4, group := 0, info := r.extractLsb' 0 16 } :: s.trace }

/-- With a transport call in flight and nothing for the host to do, there is no further step (20_memory.md R40 law c);
the idle block waits for the host (70_reset_and_hazards.md R170). -/
def Obligations.SilentTransportIsStuck : Prop :=
  (∀ s : State, s.status.busy = true → s.env.silent = true → s.env.host = [] → step s = .fault .stuck) ∧
  ∀ s : State, s.status.busy = false → s.env.host = [] → step s = .next s

/-! ### The checksum -/

/-- CRC_INIT (40_checksum.md R83): its word; ILLEGAL for any other word with OP = 0, with no bus traffic and ACC as it
was; ACC = 0xFF, RVALID, completion, and nothing else. -/
def Obligations.CrcInitSetsTheSeed : Prop :=
  decodeReq 0x00000000#32 = .ok .crcInit ∧
  (∀ (r : BitVec 32) (s : State) (rest : List HostStep), r.extractLsb' 0 4 = 0#4 → r ≠ 0#32 →
    s.status.busy = false → s.env.host = .request r :: rest →
      ∃ t, step s = .next t ∧ t.acc = s.acc ∧
        t.trace = .raise { kind := .illegal, op := 0x0#4, group := 0, info := r.extractLsb' 0 16 } :: s.trace ∧
        EndedWith { kind := .illegal, op := 0x0#4, group := 0, info := r.extractLsb' 0 16 } 0x0#4 .none t) ∧
  ∀ s : State, exec .crcInit s = .next
    { s with
      acc := 0xFF#8
      seq := { curOp := none, phase := .idle }
      status := { s.status with busy := false, done := true, rvalid := true } }

/-- CRC_FEED (R84): its words, and ILLEGAL for the others with OP = 1, with no bus traffic and ACC as it was; ACC =
crc_step(ACC, B), RVALID, completion, and nothing else; B = ACC leaves 0; ACC starts at the seed after reset. -/
def Obligations.CrcFeedFoldsOneByte : Prop :=
  (∀ r : BitVec 32, r.extractLsb' 0 4 = 1#4 → r.extractLsb' 24 8 = 0#8 → r.extractLsb' 4 12 = 0#12 →
    decodeReq r = .ok (.crcFeed (r.extractLsb' 16 8))) ∧
  (∀ (r : BitVec 32) (s : State) (rest : List HostStep), r.extractLsb' 0 4 = 1#4 →
    ¬(r.extractLsb' 24 8 = 0#8 ∧ r.extractLsb' 4 12 = 0#12) →
    s.status.busy = false → s.env.host = .request r :: rest →
      ∃ t, step s = .next t ∧ t.acc = s.acc ∧
        t.trace = .raise { kind := .illegal, op := 0x1#4, group := 0, info := r.extractLsb' 0 16 } :: s.trace ∧
        EndedWith { kind := .illegal, op := 0x1#4, group := 0, info := r.extractLsb' 0 16 } 0x1#4 .none t) ∧
  State.reset.acc = 0xFF#8 ∧
  (∀ (s : State) (b : Byte), exec (.crcFeed b) s = .next
    { s with
      acc := crcStep s.acc b
      seq := { curOp := none, phase := .idle }
      status := { s.status with busy := false, done := true, rvalid := true } }) ∧
  ∀ b : Byte, crcStep b b = 0#8

/-- CRC_INIT and then CRC_FEED of each byte of a sequence leaves its checksum in ACC (R85), whatever other requests run
in between. -/
def Obligations.FedBytesLeaveTheirChecksum : Prop :=
  (∀ (bs : List Byte) (s : State), ∃ t,
    execAll (.crcInit :: bs.map .crcFeed) s = .next t ∧ t.acc = crc8 bs) ∧
  ∀ (bs : List Byte) (is : List Instr) (s t : State), is.filter writesAcc = .crcInit :: bs.map .crcFeed →
    execAll is s = .next t → t.acc = crc8 bs

/-- Only CRC_INIT and CRC_FEED write ACC (10_state.md R27). -/
def Obligations.OnlyCrcRequestsWriteAcc : Prop :=
  ∀ (i : Instr) (s t : State), writesAcc i = false → exec i s = .next t → t.acc = s.acc

/-- Any one flipped bit of a valid group, in its data or in its checksum, makes it invalid (40_checksum.md R82). -/
def Obligations.SingleFlipIsDetected : Prop :=
  (∀ (w : Word) (i : Nat), i < 16 →
    groupOk ((w ^^^ BitVec.twoPow 16 i).extractLsb' 8 8) ((w ^^^ BitVec.twoPow 16 i).extractLsb' 0 8)
      (crc8 [w.extractLsb' 8 8, w.extractLsb' 0 8]) = false) ∧
  ∀ (b0 b1 : Byte) (i : Nat), i < 8 → groupOk b0 b1 (crc8 [b0, b1] ^^^ BitVec.twoPow 8 i) = false

/-! ### The bus transaction and the group check -/

/-- `Xact` (42_transactions.md R100): the frame is loaded into TXBUF and written; a failed write is followed by no wait and
no read; a good one by the wait of T_EXEC, and by one read if the command has a response, which goes to RXBUF. It
raises TRANSPORT with the count, or 0xFFFF for `Err`. PHASE stands at the step where it ended. It touches nothing else;
SHUTDOWN is never cleared, and is as it was where no move of the observer is listed. -/
def Obligations.XactRunsOneTransaction : Prop :=
  ∀ (c : Command) (frame : List Byte) (s : State) (a : WriteAnswer) (r : ReadAnswer), Answers s a r →
    ∃ t, SameRegs s t ∧ Still s t ∧ t.seq.phase = xactPhase frame.length c.respLen a r ∧
      busOf t.trace = xactEvents c frame a r s.params ++ busOf s.trace ∧
      (∀ i, i < frame.length → Memory.read t.txbuf i = frame[i]?) ∧ TxKept frame.length s t ∧
      match exchangeOf frame.length c.respLen a r with
      | .failed info =>
        xact c frame s = .raised { kind := .transport, op := c.op, group := 0, info := info } t ∧
          t.trace.head? = some (.raise { kind := .transport, op := c.op, group := 0, info := info }) ∧ RxKept 0 s t
      | .unanswered => xact c frame s = .silent t ∧ t.env.silent = true ∧ RxKept 0 s t
      | .response bytes =>
        xact c frame s = .ok () t ∧ bytes.length = c.respLen ∧
          (∀ i, i < c.respLen → Memory.read t.rxbuf i = bytes[i]?) ∧ RxKept c.respLen s t

/-- `CheckGroup` (R101): the word of the group, or CHECKSUM with the group, the computed and the received byte; a cell that
holds no value faults (10_state.md R34). It writes no register; a raise is recorded. -/
def Obligations.CheckGroupValidatesOneGroup : Prop :=
  ∀ (op : BitVec 4) (k : Nat) (s : State), 1 ≤ k → k ≤ 3 →
    (∀ b0 b1 ck : Byte, Memory.read s.rxbuf (3 * (k - 1)) = some b0 → Memory.read s.rxbuf (3 * (k - 1) + 1) = some b1 →
      Memory.read s.rxbuf (3 * (k - 1) + 2) = some ck →
        checkGroup op k s =
          if crc8 [b0, b1] = ck then .ok (b0 ++ b1) s
          else
            .raised { kind := .checksum, op := op, group := BitVec.ofNat 2 k, info := crc8 [b0, b1] ++ ck }
              (s.log
                (.raise { kind := .checksum, op := op, group := BitVec.ofNat 2 k, info := crc8 [b0, b1] ++ ck }))) ∧
    ∀ i < 3, Memory.read s.rxbuf (3 * (k - 1) + i) = none → checkGroup op k s = .fault .unwrittenRead

/-! ### Sensor commands: each request completes as its rule says, whatever the transport answers -/

/-- GET_VARIANT (42_transactions.md R102): its word, its frame, its outcome by the answers, and its one transaction on the
bus with the wait of T_EXEC (R100); the same of each sensor command below. -/
def Obligations.GetVariantFollowsItsRule : Prop :=
  decodeReq 0x00000002#32 = .ok .getVariant ∧
  ∀ (s : State) (a : WriteAnswer) (r : ReadAnswer), Answers s a r →
    ∃ t, exec .getVariant s = .next t ∧ VariantRule (exchangeOf 2 3 a r) s t ∧
      framesOf t.trace = [0x20#8, 0x2F#8] :: framesOf s.trace ∧
      busOf t.trace = xactEvents .getVariant [0x20#8, 0x2F#8] a r s.params ++ busOf s.trace

/-- SELF_TEST (R103). -/
def Obligations.SelfTestFollowsItsRule : Prop :=
  decodeReq 0x00000003#32 = .ok .selfTest ∧
  ∀ (s : State) (a : WriteAnswer) (r : ReadAnswer), Answers s a r →
    ∃ t, exec .selfTest s = .next t ∧ SelfTestRule (exchangeOf 2 3 a r) s t ∧
      framesOf t.trace = [0x36#8, 0x39#8] :: framesOf s.trace ∧
      busOf t.trace = xactEvents .selfTest [0x36#8, 0x39#8] a r s.params ++ busOf s.trace

/-- GET_DRDY (R104). -/
def Obligations.GetDrdyFollowsItsRule : Prop :=
  decodeReq 0x00000004#32 = .ok .getDrdy ∧
  ∀ (s : State) (a : WriteAnswer) (r : ReadAnswer), Answers s a r →
    ∃ t, exec .getDrdy s = .next t ∧ DrdyRule (exchangeOf 2 3 a r) s t ∧
      framesOf t.trace = [0xE4#8, 0xB8#8] :: framesOf s.trace ∧
      busOf t.trace = xactEvents .getDrdy [0xE4#8, 0xB8#8] a r s.params ++ busOf s.trace

/-- READ_MEAS (R105). -/
def Obligations.ReadMeasFollowsItsRule : Prop :=
  decodeReq 0x00000005#32 = .ok .readMeas ∧
  ∀ (s : State) (a : WriteAnswer) (r : ReadAnswer), Answers s a r →
    ∃ t, exec .readMeas s = .next t ∧ MeasRule (exchangeOf 2 9 a r) s t ∧
      framesOf t.trace = [0xEC#8, 0x05#8] :: framesOf s.trace ∧
      busOf t.trace = xactEvents .readMeas [0xEC#8, 0x05#8] a r s.params ++ busOf s.trace

/-- FRC (R109), for every target. -/
def Obligations.FrcFollowsItsRule : Prop :=
  ∀ target : Word, decodeReq (target ++ 0x0009#16) = .ok (.frc target) ∧
  ∀ (s : State) (a : WriteAnswer) (r : ReadAnswer), Answers s a r →
    ∃ t, exec (.frc target) s = .next t ∧ FrcRule (exchangeOf 5 3 a r) s t ∧
      framesOf t.trace =
        [0x36#8, 0x2F#8, target.extractLsb' 8 8, target.extractLsb' 0 8,
          crc8 [target.extractLsb' 8 8, target.extractLsb' 0 8]] :: framesOf s.trace ∧
      busOf t.trace =
        xactEvents .frc
          [0x36#8, 0x2F#8, target.extractLsb' 8 8, target.extractLsb' 0 8,
            crc8 [target.extractLsb' 8 8, target.extractLsb' 0 8]] a r s.params ++ busOf s.trace

/-- MEAS_SINGLE, START_PERIODIC and STOP_PERIODIC (R110 to R112): a write and then the wait of T_EXEC, and no read. -/
def Obligations.WriteOnlyRequestsFollowTheirRules : Prop :=
  decodeReq 0x00000006#32 = .ok .measSingle ∧ decodeReq 0x00000007#32 = .ok .startPeriodic ∧
  decodeReq 0x00000008#32 = .ok .stopPeriodic ∧
  ∀ (s : State) (a : WriteAnswer), s.env.writes.head? = some a →
    (∃ t, exec .measSingle s = .next t ∧ NoResponseRule 0x6#4 (exchangeOf 2 0 a .err) s t ∧
      framesOf t.trace = [0x21#8, 0x9D#8] :: framesOf s.trace ∧ t.env.reads = s.env.reads ∧
      busOf t.trace = xactEvents .measSingle [0x21#8, 0x9D#8] a .err s.params ++ busOf s.trace) ∧
    (∃ t, exec .startPeriodic s = .next t ∧ NoResponseRule 0x7#4 (exchangeOf 2 0 a .err) s t ∧
      framesOf t.trace = [0x21#8, 0xB1#8] :: framesOf s.trace ∧ t.env.reads = s.env.reads ∧
      busOf t.trace = xactEvents .startPeriodic [0x21#8, 0xB1#8] a .err s.params ++ busOf s.trace) ∧
    (∃ t, exec .stopPeriodic s = .next t ∧ NoResponseRule 0x8#4 (exchangeOf 2 0 a .err) s t ∧
      framesOf t.trace = [0x3F#8, 0x86#8] :: framesOf s.trace ∧ t.env.reads = s.env.reads ∧
      busOf t.trace = xactEvents .stopPeriodic [0x3F#8, 0x86#8] a .err s.params ++ busOf s.trace)

/-- A frame sent by its own request runs that request's lines (41_command_codec.md R91 to R98; log entry 17: what a frame
does as an instruction is the model's reading of those rules). -/
def Obligations.FramesRunTheirRequests : Prop :=
  ∀ (s : State) (a : WriteAnswer) (r : ReadAnswer), Answers s a r →
    (s.seq.curOp = some 0x2#4 → ∃ t, exec .frameGetVariant s = .next t ∧ VariantRule (exchangeOf 2 3 a r) s t) ∧
    (s.seq.curOp = some 0x3#4 → ∃ t, exec .frameSelfTest s = .next t ∧ SelfTestRule (exchangeOf 2 3 a r) s t) ∧
    (s.seq.curOp = some 0x4#4 → ∃ t, exec .frameGetDrdy s = .next t ∧ DrdyRule (exchangeOf 2 3 a r) s t) ∧
    (s.seq.curOp = some 0x5#4 → ∃ t, exec .frameReadMeas s = .next t ∧ MeasRule (exchangeOf 2 9 a r) s t) ∧
    (s.seq.curOp = some 0x6#4 →
      ∃ t, exec .frameMeasSingle s = .next t ∧ NoResponseRule 0x6#4 (exchangeOf 2 0 a r) s t) ∧
    (s.seq.curOp = some 0x7#4 →
      ∃ t, exec .frameStartPeriodic s = .next t ∧ NoResponseRule 0x7#4 (exchangeOf 2 0 a r) s t) ∧
    (s.seq.curOp = some 0x8#4 →
      ∃ t, exec .frameStopPeriodic s = .next t ∧ NoResponseRule 0x8#4 (exchangeOf 2 0 a r) s t) ∧
    ∀ target ck, s.seq.curOp = some 0x9#4 →
      ∃ t, exec (.frameFrc target ck) s = .next t ∧ FrcRule (exchangeOf 5 3 a r) s t

/-- A frame sent inside POLL_READY or SESSION runs the rest of it, to its end or to a transport call that never answers
(R93, R94, R96, R97; log entry 17): a poll is its entry and then its first frame, START_PERIODIC's frame is where a
session starts, and from any of a session's frames on a session that ends sends one stop frame. -/
def Obligations.FramesResumePollAndSession : Prop :=
  (∀ s : State, s.env.silent = false → s.seq.curOp = some 0xA#4 →
    ∃ t, exec .frameGetDrdy s = .next t ∧ (InFlight s t ∨ Ended t)) ∧
  (∀ s : State, s.seq.curOp = some 0xA#4 →
    exec .pollReady s = exec .frameGetDrdy (nextAttempt (pollEntry s))) ∧
  (∀ s : State, s.env.silent = false → s.seq.curOp = some 0xB#4 →
    ∀ i ∈ [Instr.frameStartPeriodic, .frameGetDrdy, .frameReadMeas, .frameStopPeriodic],
      ∃ t, exec i s = .next t ∧
        ((InFlight s t ∧ t.measuring = s.measuring) ∨
         (Ended t ∧ t.measuring = false ∧
          sentCount [0x3F#8, 0x86#8] t.trace = sentCount [0x3F#8, 0x86#8] s.trace + 1))) ∧
  ∀ (onlyLast : Bool) (s : State), s.seq.curOp = some 0xB#4 →
    exec (.session onlyLast) s = exec .frameStartPeriodic ((sessionEntry onlyLast s).setPhase .sStart)

/-- A frame sent by its own request does exactly what that request does from there on, and so leaves alone what it leaves
alone (R91 to R98; log entry 17). -/
def Obligations.FramesActAsTheirRequests : Prop :=
  ∀ s : State,
    (s.seq.curOp = some 0x2#4 → exec .frameGetVariant s = exec .getVariant s) ∧
    (s.seq.curOp = some 0x3#4 → exec .frameSelfTest s = exec .selfTest s) ∧
    (s.seq.curOp = some 0x4#4 → exec .frameGetDrdy s = exec .getDrdy s) ∧
    (s.seq.curOp = some 0x5#4 → exec .frameReadMeas s = exec .readMeas s) ∧
    (s.seq.curOp = some 0x6#4 → exec .frameMeasSingle s = exec .measSingle s) ∧
    (s.seq.curOp = some 0x7#4 → exec .frameStartPeriodic s = exec .startPeriodic s) ∧
    (s.seq.curOp = some 0x8#4 → exec .frameStopPeriodic s = exec .stopPeriodic s) ∧
    ∀ target : Word, s.seq.curOp = some 0x9#4 →
      exec (.frameFrc target (crc8 [target.extractLsb' 8 8, target.extractLsb' 0 8])) s = exec (.frc target) s

/-- What a frame that resumes a poll or a session leaves alone (log entry 17): what the poll, or the session after its
entry, leaves alone. -/
def Obligations.ResumedFramesFrame : Prop :=
  (∀ s t : State, s.seq.curOp = some 0xA#4 → exec .frameGetDrdy s = .next t →
    SameHostSide s t ∧ t.acc = s.acc ∧ t.status.passed = s.status.passed ∧ TxKept 2 s t ∧ RxKept 3 s t ∧
      t.results =
        { s.results with
          word := t.results.word, wordWritten := t.results.wordWritten
          drdy := t.results.drdy, drdyWritten := t.results.drdyWritten }) ∧
  ∀ s t : State, s.seq.curOp = some 0xB#4 →
    ∀ i ∈ [Instr.frameStartPeriodic, .frameGetDrdy, .frameReadMeas, .frameStopPeriodic], exec i s = .next t →
      t.params = s.params ∧ t.req = s.req ∧ t.term = s.term ∧ t.acc = s.acc ∧ t.env.host = s.env.host ∧
        t.results.corr = s.results.corr ∧ t.results.corrWritten = s.results.corrWritten ∧
        t.status.passed = s.status.passed ∧ t.session.onlyLast = s.session.onlyLast ∧
        t.session.term = s.session.term ∧ (s.shutdown = true → t.shutdown = true) ∧ Still s t ∧
        (∃ evs, t.trace = evs ++ s.trace) ∧ TxKept 2 s t ∧ RxKept 9 s t ∧
        (sentCount [0xEC#8, 0x05#8] t.trace = sentCount [0xEC#8, 0x05#8] s.trace → MeasKept s t) ∧
        (sentCount [0xE4#8, 0xB8#8] t.trace = sentCount [0xE4#8, 0xB8#8] s.trace → PollKept s t)

/-- A frame in a request that does not send it is the one fault a frame has (30_encoding.md R67; log entry 18: the
fault is the model's). -/
def Obligations.StrayFramesFault : Prop :=
  ∀ (c : Command) (target : Word) (ck : Byte) (s : State), s.seq.curOp ≠ some c.op →
    (s.seq.curOp = some 0xA#4 → c ≠ .getDrdy) →
    (s.seq.curOp = some 0xB#4 → c ∉ [.startPeriodic, .getDrdy, .readMeas, .stopPeriodic]) →
      exec
        (match c with
          | .getVariant => .frameGetVariant
          | .selfTest => .frameSelfTest
          | .getDrdy => .frameGetDrdy
          | .readMeas => .frameReadMeas
          | .measSingle => .frameMeasSingle
          | .startPeriodic => .frameStartPeriodic
          | .stopPeriodic => .frameStopPeriodic
          | .frc => .frameFrc target ck) s = .fault .strayFrame

/-- Every request answers a next state in every state: no request faults and none is refused, listed answers or not. -/
def Obligations.NoRequestFaults : Prop :=
  ∀ (s : State) (b : Byte) (target : Word) (onlyLast : Bool),
    ∀ i ∈ [Instr.crcInit, .crcFeed b, .getVariant, .selfTest, .getDrdy, .readMeas, .measSingle, .startPeriodic,
        .stopPeriodic, .frc target, .pollReady, .session onlyLast],
      ∃ t, exec i s = .next t

/-- What a one-command request leaves alone: everything on the host's side, ACC, the polling registers, the cells of TXBUF
past the frame and of RXBUF past the response; and TXBUF starts with the frame. -/
def Obligations.CommandRequestsFrame : Prop :=
  ∀ (target : Word) (s t : State),
    ∀ x ∈ [(Instr.getVariant, [0x20#8, 0x2F#8], 3), (.selfTest, [0x36#8, 0x39#8], 3), (.getDrdy, [0xE4#8, 0xB8#8], 3),
        (.readMeas, [0xEC#8, 0x05#8], 9), (.measSingle, [0x21#8, 0x9D#8], 0), (.startPeriodic, [0x21#8, 0xB1#8], 0),
        (.stopPeriodic, [0x3F#8, 0x86#8], 0), (.frc target, frameFrc target, 3)],
      exec x.1 s = .next t →
        SameHostSide s t ∧ t.acc = s.acc ∧ t.poll = s.poll ∧ TxKept x.2.1.length s t ∧ RxKept x.2.2 s t ∧
          (∀ i, i < x.2.1.length → Memory.read t.txbuf i = x.2.1[i]?) ∧
          (x.1 ≠ .selfTest → t.status.passed = s.status.passed) ∧ (x.1 ≠ .getDrdy → t.status.ready = s.status.ready)

/-- Which result registers a one-command request leaves alone (10_state.md R26). -/
def Obligations.CommandResultsFrame : Prop :=
  ∀ (target : Word) (s t : State),
    (∀ i ∈ [Instr.measSingle, .startPeriodic, .stopPeriodic], exec i s = .next t → t.results = s.results) ∧
    (∀ i ∈ [Instr.getVariant, .selfTest], exec i s = .next t →
      t.results = { s.results with word := t.results.word, wordWritten := t.results.wordWritten }) ∧
    (exec .getDrdy s = .next t →
      t.results =
        { s.results with
          word := t.results.word, wordWritten := t.results.wordWritten
          drdy := t.results.drdy, drdyWritten := t.results.drdyWritten }) ∧
    (exec .readMeas s = .next t →
      t.results =
        { s.results with
          co2 := t.results.co2, tRaw := t.results.tRaw, rhRaw := t.results.rhRaw, ts := t.results.ts
          measWritten := t.results.measWritten }) ∧
    (exec (.frc target) s = .next t →
      t.results =
        { s.results with
          word := t.results.word, wordWritten := t.results.wordWritten
          corr := t.results.corr, corrWritten := t.results.corrWritten })

/-- Decoding depends on the response bytes alone (42_transactions.md R113): two runs of one request whose ERR and RVALID are
as their acceptance left them, and that get the same answers, write the same values to each result register but TS, and
to READY and PASSED, or both write none; and they raise the same error. What the two states hold otherwise is free. -/
def Obligations.DecodingDependsOnTheBytesAlone : Prop :=
  ∀ (target : Word) (s u s' u' : State) (a : WriteAnswer) (r : ReadAnswer),
    Answers s a r → Answers u a r → s.params = u.params → s.seq.curOp = u.seq.curOp →
    s.status.rvalid = u.status.rvalid → s.err = u.err → s.errInfo = u.errInfo →
    ∀ i ∈ [Instr.getVariant, .selfTest, .getDrdy, .readMeas, .frc target],
      exec i s = .next s' → exec i u = .next u' →
        s'.status.rvalid = u'.status.rvalid ∧ s'.err = u'.err ∧ s'.errInfo = u'.errInfo ∧
          WroteAlike (·.results.word) s u s' u' ∧ WroteAlike (·.results.drdy) s u s' u' ∧
          WroteAlike (·.results.corr) s u s' u' ∧ WroteAlike (·.results.co2) s u s' u' ∧
          WroteAlike (·.results.tRaw) s u s' u' ∧ WroteAlike (·.results.rhRaw) s u s' u' ∧
          WroteAlike (·.status.ready) s u s' u' ∧ WroteAlike (·.status.passed) s u s' u'

/-! ### Polling -/

/-- A poll ends in one of R126's ways, or stays in flight: READY after k attempts with k exchanges and k - 1 delays;
FAILED by TIMEOUT with exactly 11 exchanges and 10 delays, and its minimum time (43_polling.md R124, R126); FAILED by the
error of the last exchange, with OP = 0x4 and no further attempt (R125). -/
def Obligations.PollEndsReadyOrFailed : Prop :=
  ∀ s : State, s.env.silent = false → ∃ t k, exec .pollReady s = .next t ∧ 1 ≤ k ∧ k ≤ 11 ∧
    t.poll.attempt = BitVec.ofNat 4 k ∧
    framesOf t.trace = List.replicate k [0xE4#8, 0xB8#8] ++ framesOf s.trace ∧
    pollDelays t.trace = pollDelays s.trace + (k - 1) ∧
    ((t.poll.pstate = .polling ∧ InFlight s t) ∨
     (t.poll.pstate = .ready ∧ EndedWell true s t ∧ t.status.ready = true) ∨
     (t.poll.pstate = .failed ∧ k = 11 ∧
      EndedWith { kind := .timeout, op := 0xA#4, group := 0, info := 11#16 } (ctxOf s) .none t ∧
      t.status.ready = false ∧
      s.clock.time + 10 * s.params.pollInterval + 11 * s.params.tExec.getDrdy ≤ t.clock.time) ∨
     (t.poll.pstate = .failed ∧ ∃ e : Err, (e.kind = .transport ∨ e.kind = .checksum) ∧ e.op = 0x4#4 ∧
      EndedWith e (ctxOf s) .none t))

/-- A poll on listed answers (R122 to R127, R129): up to ten "not ready" answers and then a ready one end READY on the attempt
of the ready one, with its word in WORD and DRDY and with READY = 1. An exchange that fails after up to ten "not ready"
answers ends FAILED on its attempt with that same error, by TRANSPORT or CHECKSUM with OP = 0x4, and eleven "not ready"
answers end FAILED by TIMEOUT; WORD, DRDY and READY then hold the last completed exchange's values. On the bus each attempt
is its write, its wait of T_EXEC and its read, with a delay of POLL_INTERVAL between two attempts and nowhere else
(70_reset_and_hazards.md R183). -/
def Obligations.PollCountsItsAnswers : Prop :=
  ∀ (s : State) (k : Nat) (pw ws : List WriteAnswer) (pr rs : List ReadAnswer),
    s.env.writes = pw ++ ws → s.env.reads = pr ++ rs →
      (∀ w : Word, ReadyPoll w k pw pr →
        ∃ t, exec .pollReady s = .next t ∧ EndedWell true s t ∧ PolledReady w k t ∧
          OnBus (pollEvents s.params (pw.zip pr)) s t) ∧
      ∀ (e : Err) (nr : List Word), FailingPoll e nr k pw pr →
        ∃ t, exec .pollReady s = .next t ∧ EndedWith e (ctxOf s) .none t ∧ PolledFailed nr k s t ∧
          OnBus (pollEvents s.params (pw.zip pr)) s t

/-- What a poll leaves alone: the host's side, ACC, PASSED, every result register but WORD and DRDY, and the buffers past
the frame and the response. -/
def Obligations.PollFrame : Prop :=
  ∀ s t : State, exec .pollReady s = .next t →
    SameHostSide s t ∧ t.acc = s.acc ∧ t.status.passed = s.status.passed ∧ TxKept 2 s t ∧ RxKept 3 s t ∧
      t.results =
        { s.results with
          word := t.results.word, wordWritten := t.results.wordWritten
          drdy := t.results.drdy, drdyWritten := t.results.drdyWritten }

/-! ### Sessions -/

/-- Every session that ends sends STOP_PERIODIC exactly once and leaves MEASURING = 0 (44_session.md R146 a, b); one whose
transport never answers stays in flight with MEASURING = 1 (R141). -/
def Obligations.SessionEndsWithOneStop : Prop :=
  ∀ (onlyLast : Bool) (s : State), s.env.silent = false → ∃ t, exec (.session onlyLast) s = .next t ∧
    ((InFlight s t ∧ t.measuring = true) ∨
     (Ended t ∧ t.measuring = false ∧
      sentCount [0x3F#8, 0x86#8] t.trace = sentCount [0x3F#8, 0x86#8] s.trace + 1))

/-- A session whose start fails sends the stop frame and nothing more, emits nothing, samples no clock, writes no result
register and none of a poll's, and reports the start's error with OP = 0x7, CTX = 0xB, and with a failed stop in KIND2 (R133,
R140, R141). On the bus the failed write is followed by no wait, and the stop's write, where it succeeds, by the stop's wait
of T_EXEC (42_transactions.md R100). -/
def Obligations.FailedStartIsReportedFirst : Prop :=
  ∀ (onlyLast : Bool) (s : State) (a b : WriteAnswer) (ws : List WriteAnswer) (info : Word),
    s.env.writes = a :: b :: ws → exchangeOf 2 0 a .err = .failed info → b ≠ .never →
      ∃ t, exec (.session onlyLast) s = .next t ∧ t.results = s.results ∧ PollKept s t ∧
        samplesOf t.trace = samplesOf s.trace ∧
        AbortedWith { kind := .transport, op := 0x7#4, group := 0, info := info } b [] [[0x21#8, 0xB1#8]] (startEvents s.params a) s t

/-- A session whose start, first poll and first read succeed, with TERM = 0, or with SHUTDOWN set by its first S_TEST, runs
its body once, emits the reading once, stops once and completes (R131, R138, R139, R146 d); a failed stop is then the
primary error (R140). The result registers hold the reading, and the poll's registers its end. The bus sees the start, the
poll, the read and the stop, each exchange with its wait of T_EXEC (42_transactions.md R100). SHUTDOWN may have been 1 before, or
the observer sets it in one of its 2k + 2 turns up to S_TEST's reading of it, k being the exchanges of the poll: in a wait
after a frame, between two attempts, or between the sample and the reading (60_exceptions.md R156, R157; log entry 5). Until
then it changes nothing. -/
def Obligations.OneIterationSession : Prop :=
  ∀ (onlyLast : Bool) (s : State) (b : WriteAnswer) (ws pw : List WriteAnswer) (rs pr : List ReadAnswer) (k : Nat)
    (w w1 w2 w3 : Word),
    (s.term = 0 ∨ ShutdownWithin (2 * k + 2) s) → ReadyPoll w k pw pr → b ≠ .never →
    s.env.writes = .ok 2 :: (pw ++ .ok 2 :: b :: ws) →
    s.env.reads = pr ++ .ok (validGroup w1 ++ validGroup w2 ++ validGroup w3) :: rs →
      ∃ t ts, exec (.session onlyLast) s = .next t ∧ MeasHeld { ts := ts, co2 := w1, tRaw := w2, rhRaw := w3 } t ∧
        PolledReady w k t ∧
        StoppedAfter b [{ ts := ts, co2 := w1, tRaw := w2, rhRaw := w3 }]
          ([0xEC#8, 0x05#8] :: List.replicate k [0xE4#8, 0xB8#8] ++ [[0x21#8, 0xB1#8]])
          (iterationEvents s.params (pw.zip pr) (.ok 2) (.ok (validGroup w1 ++ validGroup w2 ++ validGroup w3)) ++
            startEvents s.params (.ok 2)) s t

/-- The loop of a session without an error (R138, R139), where SHUTDOWN is not set by the first S_TEST: after the first
reading the sample `n1` of S_TEST decides. Past T0 + TERM the session stops, with that reading emitted; else it polls and
reads again. At the second S_TEST the sample `n2`, or SHUTDOWN set by then, ends the loop, and so on. In all-readings mode
both readings are then emitted, in their order; in only-last mode the second alone. The result registers hold the last
reading, and the poll's registers the end of the last poll. The bus sees the exchanges and their waits in this order. An
iteration with a poll of k exchanges has 2k + 1 turns of the
observer up to S_TEST's reading of SHUTDOWN, and the start has one (log entry 5). -/
def Obligations.SessionLoopsWithinItsTerm : Prop :=
  ∀ (onlyLast : Bool) (s : State) (b : WriteAnswer) (ws pw qw : List WriteAnswer) (rs pr qr : List ReadAnswer)
    (k m : Nat) (w w1 w2 w3 v v1 v2 v3 : Word),
    ¬ ShutdownWithin (2 * k + 2) s → ReadyPoll w k pw pr → ReadyPoll v m qw qr → b ≠ .never →
    s.env.writes = .ok 2 :: (pw ++ .ok 2 :: (qw ++ .ok 2 :: b :: ws)) →
    s.env.reads =
      pr ++ .ok (validGroup w1 ++ validGroup w2 ++ validGroup w3) ::
        (qr ++ .ok (validGroup v1 ++ validGroup v2 ++ validGroup v3) :: rs) →
      ∃ t t0 ts1 n1 later, exec (.session onlyLast) s = .next t ∧
        samplesOf t.trace = later ++ [n1, ts1, t0] ++ samplesOf s.trace ∧
        (t0 + s.term < n1 → later = [] ∧ MeasHeld { ts := ts1, co2 := w1, tRaw := w2, rhRaw := w3 } t ∧
          PolledReady w k t ∧
          StoppedAfter (.ok 2) [{ ts := ts1, co2 := w1, tRaw := w2, rhRaw := w3 }]
            ([0xEC#8, 0x05#8] :: List.replicate k [0xE4#8, 0xB8#8] ++ [[0x21#8, 0xB1#8]])
            (iterationEvents s.params (pw.zip pr) (.ok 2) (.ok (validGroup w1 ++ validGroup w2 ++ validGroup w3)) ++
              startEvents s.params (.ok 2)) s t) ∧
        (n1 ≤ t0 + s.term → ∃ ts2 n2 more, later = more ++ [n2, ts2] ∧ n1 < ts2 ∧
          (t0 + s.term < n2 ∨ ShutdownWithin (2 * k + 2 * m + 3) s →
            more = [] ∧ MeasHeld { ts := ts2, co2 := v1, tRaw := v2, rhRaw := v3 } t ∧ PolledReady v m t ∧
            StoppedAfter b
              ({ ts := ts2, co2 := v1, tRaw := v2, rhRaw := v3 } ::
                if onlyLast then [] else [{ ts := ts1, co2 := w1, tRaw := w2, rhRaw := w3 }])
              ([0xEC#8, 0x05#8] :: List.replicate m [0xE4#8, 0xB8#8] ++ [0xEC#8, 0x05#8] ::
                List.replicate k [0xE4#8, 0xB8#8] ++ [[0x21#8, 0xB1#8]])
              (iterationEvents s.params (qw.zip qr) (.ok 2) (.ok (validGroup v1 ++ validGroup v2 ++ validGroup v3)) ++
                iterationEvents s.params (pw.zip pr) (.ok 2) (.ok (validGroup w1 ++ validGroup w2 ++ validGroup w3)) ++
                  startEvents s.params (.ok 2)) s t))

/-- A session whose first read fails, by TRANSPORT or in any of its three groups, emits nothing, for either value of
EMIT_LAST_ON_ABORT, stops once, and reports the read's error with OP = 0x5 and CTX = 0xB, and a failed stop in KIND2
(R136, R140, R142, R146). CO2, T_RAW, RH_RAW and TS are as they were (60_exceptions.md R153), and the poll's registers hold
its end. The bus sees the start, the poll, the failing read and the stop, with their waits (42_transactions.md R100). -/
def Obligations.FailedFirstReadEmitsNothing : Prop :=
  ∀ (onlyLast : Bool) (s : State) (a b : WriteAnswer) (r : ReadAnswer) (ws pw : List WriteAnswer)
    (rs pr : List ReadAnswer) (k : Nat) (w : Word) (e : Err),
    ReadyPoll w k pw pr → b ≠ .never → exchangeFailure 0x5#4 (exchangeOf 2 9 a r) = some e →
    s.env.writes = .ok 2 :: (pw ++ a :: b :: ws) → s.env.reads = pr ++ r :: rs →
      ∃ t, exec (.session onlyLast) s = .next t ∧ MeasKept s t ∧ PolledReady w k t ∧
        AbortedWith e b [] ([0xEC#8, 0x05#8] :: List.replicate k [0xE4#8, 0xB8#8] ++ [[0x21#8, 0xB1#8]])
          (iterationEvents s.params (pw.zip pr) a r ++ startEvents s.params (.ok 2)) s t

/-- A session whose first poll fails reports its error (R135), on whichever attempt it fails: that of the exchange, by
TRANSPORT or CHECKSUM with OP = 0x4, or TIMEOUT with OP = 0xA after eleven answers that are not ready; with CTX = 0xB, no
read and no reading, CO2, T_RAW, RH_RAW and TS as they were, and one stop. A failure of the second poll, likewise on
whichever attempt, or of the second read, where SHUTDOWN is not set by the first S_TEST and the term is not over, finds the first
reading in the result registers, and emitted in all-readings mode, held in only-last mode: there S_ABORT emits it just when
EMIT_LAST_ON_ABORT says so (R136, R142). After a failing poll WORD, DRDY and READY hold the last completed exchange's values,
where the failing poll has none those of the poll before, and where there is none they are as they were (43_polling.md R127).
The bus sees the exchanges, their waits and the delays between attempts in their order, up to the stop's. -/
def Obligations.FailedPollOrLaterReadAborts : Prop :=
  ∀ (onlyLast : Bool) (s : State) (b : WriteAnswer) (ws pw qw : List WriteAnswer) (rs pr qr : List ReadAnswer)
    (k m : Nat) (e : Err) (nr : List Word), b ≠ .never →
    (FailingPoll e nr k pw pr → s.env.writes = .ok 2 :: (pw ++ b :: ws) → s.env.reads = pr ++ rs →
      ∃ t, exec (.session onlyLast) s = .next t ∧ PolledFailed nr k s t ∧ MeasKept s t ∧
        AbortedWith e b [] (List.replicate k [0xE4#8, 0xB8#8] ++ [[0x21#8, 0xB1#8]])
          (pollEvents s.params (pw.zip pr) ++ startEvents s.params (.ok 2)) s t) ∧
    ∀ w w1 w2 w3 : Word, ¬ ShutdownWithin (2 * k + 2) s → ReadyPoll w k pw pr →
      (FailingPoll e nr m qw qr → s.env.writes = .ok 2 :: (pw ++ .ok 2 :: (qw ++ b :: ws)) →
        s.env.reads = pr ++ .ok (validGroup w1 ++ validGroup w2 ++ validGroup w3) :: (qr ++ rs) →
          ∃ t t0 ts n later, exec (.session onlyLast) s = .next t ∧
            samplesOf t.trace = later ++ [n, ts, t0] ++ samplesOf s.trace ∧
            (n ≤ t0 + s.term → later = [] ∧ PolledFailed (w :: nr) m s t ∧
              MeasHeld { ts := ts, co2 := w1, tRaw := w2, rhRaw := w3 } t ∧
              AbortedWith e b
                (if onlyLast && !s.params.emitLastOnAbort then [] else [{ ts := ts, co2 := w1, tRaw := w2, rhRaw := w3 }])
                (List.replicate m [0xE4#8, 0xB8#8] ++ [0xEC#8, 0x05#8] :: List.replicate k [0xE4#8, 0xB8#8] ++
                  [[0x21#8, 0xB1#8]])
                (pollEvents s.params (qw.zip qr) ++ iterationEvents s.params (pw.zip pr) (.ok 2)
                  (.ok (validGroup w1 ++ validGroup w2 ++ validGroup w3)) ++ startEvents s.params (.ok 2)) s t)) ∧
      ∀ (v : Word) (a : WriteAnswer) (r : ReadAnswer), ReadyPoll v m qw qr →
        exchangeFailure 0x5#4 (exchangeOf 2 9 a r) = some e →
        s.env.writes = .ok 2 :: (pw ++ .ok 2 :: (qw ++ a :: b :: ws)) →
        s.env.reads = pr ++ .ok (validGroup w1 ++ validGroup w2 ++ validGroup w3) :: (qr ++ r :: rs) →
          ∃ t t0 ts n later, exec (.session onlyLast) s = .next t ∧
            samplesOf t.trace = later ++ [n, ts, t0] ++ samplesOf s.trace ∧
            (n ≤ t0 + s.term → later = [] ∧ MeasHeld { ts := ts, co2 := w1, tRaw := w2, rhRaw := w3 } t ∧
              PolledReady v m t ∧
              AbortedWith e b
                (if onlyLast && !s.params.emitLastOnAbort then [] else [{ ts := ts, co2 := w1, tRaw := w2, rhRaw := w3 }])
                ([0xEC#8, 0x05#8] :: List.replicate m [0xE4#8, 0xB8#8] ++ [0xEC#8, 0x05#8] ::
                  List.replicate k [0xE4#8, 0xB8#8] ++ [[0x21#8, 0xB1#8]])
                (iterationEvents s.params (qw.zip qr) a r ++ iterationEvents s.params (pw.zip pr) (.ok 2)
                  (.ok (validGroup w1 ++ validGroup w2 ++ validGroup w3)) ++ startEvents s.params (.ok 2)) s t)

/-- The observer does not pass its wait while MEASURING = 1, and so not within a session (R143, R147): no move of it and no
session takes it past. -/
def Obligations.ObserverWaitsForTheSession : Prop :=
  (∀ (m : ObserverMove) (s : State), s.measuring = true → s.env.observer ≠ .passed →
    (observerMove m s).env.observer ≠ .passed) ∧
  ∀ (onlyLast : Bool) (s t : State), exec (.session onlyLast) s = .next t → s.env.observer ≠ .passed →
    t.env.observer ≠ .passed

/-- The observer's moves (R143): the first sets SHUTDOWN in one access, at most once; a test passes just when MEASURING = 0.
Neither touches anything else, and a move out of turn nothing at all (log entry 20). -/
def Obligations.ObserverMoves : Prop :=
  (∀ s : State, s.env.observer = .resting → observerMove .setShutdown s =
    { s with shutdown := true, env := { s.env with observer := .waiting }, trace := .shutdownSet :: s.trace } ∧
    observerMove .check s = s) ∧
  (∀ s : State, s.env.observer = .waiting → observerMove .setShutdown s = s) ∧
  (∀ s : State, s.env.observer = .passed → observerMove .setShutdown s = s ∧ observerMove .check s = s) ∧
  ∀ s : State, s.env.observer = .waiting → observerMove .check s =
    { s with
      env := { s.env with observer := if s.measuring then .waiting else .passed }
      trace := .observerSaw s.measuring :: s.trace }

/-- What a session leaves alone: the parameters, REQ, TERM, ACC, CORR, PASSED and the host's program; and it latches its
mode and TERM (R131). SHUTDOWN is never cleared, and only the observer sets it. CO2, T_RAW, RH_RAW and TS are as they were
where the session sent no read frame, and the poll's registers where it sent no status frame. -/
def Obligations.SessionFrame : Prop :=
  ∀ (onlyLast : Bool) (s t : State), exec (.session onlyLast) s = .next t →
    t.params = s.params ∧ t.req = s.req ∧ t.term = s.term ∧ t.acc = s.acc ∧ t.env.host = s.env.host ∧
      t.results.corr = s.results.corr ∧ t.results.corrWritten = s.results.corrWritten ∧
      t.status.passed = s.status.passed ∧ t.session.onlyLast = onlyLast ∧ t.session.term = s.term ∧
      (s.shutdown = true → t.shutdown = true) ∧ Still s t ∧ (∃ evs, t.trace = evs ++ s.trace) ∧ TxKept 2 s t ∧
      RxKept 9 s t ∧
      (sentCount [0xEC#8, 0x05#8] t.trace = sentCount [0xEC#8, 0x05#8] s.trace → MeasKept s t) ∧
      (sentCount [0xE4#8, 0xB8#8] t.trace = sentCount [0xE4#8, 0xB8#8] s.trace → PollKept s t)

/-! ### Errors, completion and the host's registers -/

/-- A top-level raise and a completion: exactly the writes of 60_exceptions.md R153 and R154, and ERRF follows ERR. A raise
and a `goto` are events that the model records (00_scope.md R11). -/
def Obligations.RaiseAndComplete : Prop :=
  (∀ (e : Err) (s : State), finish (raise e s) = .next (raiseTop e { s with trace := .raise e :: s.trace })) ∧
  (∀ (l : Phase) (s : State), goto l s = { s with seq := { s.seq with phase := l }, trace := .goto l :: s.trace }) ∧
  (∀ (e : Err) (op : BitVec 4) (s : State), s.seq.curOp = some op → raiseTop e s =
    { s with
      err := { kind := e.kind, op := e.op, ctx := op, group := e.group, kind2 := .none }
      errInfo := e.info
      status := { s.status with busy := false, done := true, rvalid := false }
      seq := { curOp := none, phase := .idle } }) ∧
  (∀ (e : Err) (s : State), e.kind ≠ .none → (raiseTop e s).errf = true) ∧
  ∀ s : State, complete s =
    { s with
      status := { s.status with busy := false, done := true }
      seq := { curOp := none, phase := .idle } }

/-- STATUS's packing (10_state.md R23): every field in its place, and the reserved bits 0. -/
def Obligations.StatusPacking : Prop :=
  ∀ s : State,
    s.statusWord.getLsbD 0 = s.status.busy ∧ s.statusWord.getLsbD 1 = s.status.done ∧
    s.statusWord.getLsbD 2 = decide (s.err.kind ≠ .none) ∧ s.statusWord.getLsbD 3 = s.status.rvalid ∧
    s.statusWord.getLsbD 4 = s.measuring ∧ s.statusWord.getLsbD 5 = s.shutdown ∧
    s.statusWord.getLsbD 6 = s.status.ready ∧ s.statusWord.getLsbD 7 = s.status.passed ∧
    s.statusWord.extractLsb' 8 2 =
      (match s.poll.pstate with
        | .pIdle => 0#2
        | .polling => 1#2
        | .ready => 2#2
        | .failed => 3#2) ∧
    s.statusWord.extractLsb' 10 4 = s.poll.attempt ∧ s.statusWord.extractLsb' 14 2 = 0#2

/-- ERR's packing (R24), with the codes of 60_exceptions.md R150; codes 6 and 7 never stand in it. -/
def Obligations.ErrPacking : Prop :=
  ∀ e : ErrReg,
    e.packed.extractLsb' 0 3 =
      (match e.kind with
        | .none => 0#3
        | .transport => 1#3
        | .checksum => 2#3
        | .protocol => 3#3
        | .timeout => 4#3
        | .illegal => 5#3) ∧
    e.packed.extractLsb' 3 1 = 0#1 ∧ e.packed.extractLsb' 4 4 = e.op ∧ e.packed.extractLsb' 8 4 = e.ctx ∧
    e.packed.extractLsb' 12 2 = e.group ∧ e.packed.extractLsb' 14 2 = 0#2 ∧
    e.packed.extractLsb' 16 3 = e.kind2.code ∧ e.packed.extractLsb' 19 13 = 0#13 ∧ (e.packed.extractLsb' 16 3).toNat < 6

/-- The host's reads (R22, R34, 70_reset_and_hazards.md R185): while BUSY = 1 results, ERR and ERR_INFO fault; with
BUSY = 0 a result register that no request has written faults, and a written one gives its value; STATUS and TERM are
read at any time; REQ never. A read changes nothing but the events. -/
def Obligations.HostReads : Prop :=
  ∀ s : State,
    (∀ r ∈ [HostReg.err, .errInfo, .acc, .word, .drdy, .corr, .co2, .tRaw, .rhRaw, .ts], s.status.busy = true →
      hostAct (.read r) s = .fault .readWhileBusy) ∧
    (s.status.busy = false →
      hostAct (.read .err) s = .next (s.log (.hostRead .err s.err.packed.toNat)) ∧
      hostAct (.read .errInfo) s = .next (s.log (.hostRead .errInfo s.errInfo.toNat)) ∧
      hostAct (.read .acc) s = .next (s.log (.hostRead .acc s.acc.toNat)) ∧
      ∀ x ∈ [(HostReg.word, s.results.wordWritten, s.results.word.toNat),
          (.drdy, s.results.drdyWritten, s.results.drdy.toNat), (.corr, s.results.corrWritten, s.results.corr.toNat),
          (.co2, s.results.measWritten, s.results.co2.toNat), (.tRaw, s.results.measWritten, s.results.tRaw.toNat),
          (.rhRaw, s.results.measWritten, s.results.rhRaw.toNat), (.ts, s.results.measWritten, s.results.ts)],
        hostAct (.read x.1) s =
          if x.2.1 then .next (s.log (.hostRead x.1 x.2.2)) else .fault .unwrittenRead) ∧
    hostAct (.read .status) s = .next (s.log (.hostRead .status s.statusWord.toNat)) ∧
    hostAct (.read .term) s = .next (s.log (.hostRead .term s.term)) ∧
    hostAct (.read .req) s = .fault .readOfWriteOnly

/-- The host's next action, whatever it is, is a step of its own, with BUSY = 0 and beside a transport call in flight: it
does what `hostAct` says, and for a move of the observer that is the move. A write of TERM takes the value in CLOCK_W bits
(R22; the reduction is log entry 15), and nothing else changes. -/
def Obligations.HostWritesTerm : Prop :=
  (∀ (s : State) (a : HostAction) (rest : List HostStep),
    s.status.busy = false ∨ (s.status.busy = true ∧ s.env.silent = true) → s.env.host = .act a :: rest →
      step s = hostAct a { s with env := { s.env with host := rest } }) ∧
  (∀ (m : ObserverMove) (s : State), hostAct (.observer m) s = .next (observerMove m s)) ∧
  (∀ (v : Nat) (s : State), hostAct (.writeTerm v) s = .next { s with term := v % 2 ^ s.params.clockW }) ∧
  ∀ (s : State) (v : Nat) (rest : List HostStep), s.status.busy = false → s.env.host = .act (.writeTerm v) :: rest →
    ∃ t, step s = .next t ∧ (v < 2 ^ s.params.clockW → t.term = v) ∧ t.term < 2 ^ s.params.clockW ∧
      t = { s with term := t.term, env := { s.env with host := rest } }

/-- The reset values that R33 states, and a fault for every register it leaves with no value. -/
def Obligations.ResetValues : Prop :=
  State.reset.seq = { curOp := none, phase := .idle } ∧ State.reset.term = 0 ∧ State.reset.statusWord = 0x0000#16 ∧
  State.reset.err.packed = 0#32 ∧ State.reset.errInfo = 0#16 ∧ State.reset.acc = 0xFF#8 ∧
  State.reset.poll = { pstate := .pIdle, attempt := 0 } ∧ State.reset.measuring = false ∧
  State.reset.shutdown = false ∧ State.reset.session.lastValid = false ∧ State.reset.session.perr.kind = .none ∧
  State.reset.session.perr2 = .none ∧ (∀ a, Memory.read State.reset.txbuf a = none) ∧
  (∀ a, Memory.read State.reset.rxbuf a = none) ∧
  hostRead State.reset .req = .error .readOfWriteOnly ∧
  ∀ r ∈ [HostReg.word, .drdy, .corr, .co2, .tRaw, .rhRaw, .ts], hostRead State.reset r = .error .unwrittenRead

/-! ### Invariants and whole-machine rules -/

/-- The invariant holds after reset. -/
def Obligations.ResetMeetsTheInvariant : Prop := State.reset.Inv

/-- Every step keeps the invariant. -/
def Obligations.StepKeepsTheInvariant : Prop :=
  ∀ s t : State, s.Inv → step s = .next t → t.Inv

/-- No step writes the parameters (10_state.md R36). -/
def Obligations.ParametersAreNeverWritten : Prop :=
  ∀ s t : State, step s = .next t → t.params = s.params

/-- SHUTDOWN is never cleared (R29, R30). -/
def Obligations.ShutdownIsNeverCleared : Prop :=
  ∀ s t : State, s.shutdown = true → step s = .next t → t.shutdown = true

/-- The port's laws and R67: every step keeps it true that each count is at most what was written, each response is at most
what was asked for, and each frame sent is one of the eight of R58, with its checksum. -/
def Obligations.PortIsLawful : Prop :=
  ∀ s t : State, s.trace.all Event.lawful = true → step s = .next t → t.trace.all Event.lawful = true

/-- The clock's laws (60_exceptions.md R160). A sample is never below the least that the time gone by and CLOCK_ADVANCES
admit, and that least never goes down, in a delay, a move of the observer, a transaction however it ends, and any step, so
samples never decrease. A sample after a transaction that completes is strictly greater than every sample before its write:
`afterXact` lies above all samples so far after reset and after each of these, so what lies between the two does not matter.
The sample after the whole step of a one-command request meets it too. A transaction takes at least its command's wait
(R180), and no step moves the clock back. That time goes by in ticks, with a unit of so many of them, is the model's choice
(log entries 3 and 14). -/
def Obligations.ClockLaws : Prop :=
  (∀ s : State, s.clock.time / s.params.unit ≤ s.least ∧ s.least ≤ (now s).1 ∧ (now s).2.least = (now s).1 ∧
    (now s).1 ≤ (now (now s).2).1 ∧ (now s).2.clock.afterXact = (now s).1 + 1 ∧
    (now s).1 * s.params.unit ≤ (now s).2.clock.time) ∧
  (∀ s t : State,
    (∃ why, delay why s = t) ∨ (∃ m, observerMove m s = t) ∨
      (∃ c frame, xact c frame s = .ok () t ∨ (∃ e, xact c frame s = .raised e t) ∨ xact c frame s = .silent t) →
      s.least ≤ t.least ∧ t.clock.afterXact = s.clock.afterXact ∧ (Sampled s → Sampled t)) ∧
  (∀ (c : Command) (frame : List Byte) (s u : State), xact c frame s = .ok () u →
    s.clock.afterXact ≤ (now u).1 ∧ (Sampled s → ∀ n ∈ samplesOf s.trace, n < (now u).1)) ∧
  Sampled State.reset ∧
  (∀ s t : State, step s = .next t → s.least ≤ t.least ∧ (Sampled s → Sampled t)) ∧
  (∀ s t : State, step (now s).2 = .next t → (now s).1 ≤ (now t).1) ∧
  (∀ (target : Word) (s t : State) (a : WriteAnswer) (r : ReadAnswer) (bytes : List Byte), Answers s a r →
    ∀ x ∈ [(Instr.getVariant, 2, 3), (.selfTest, 2, 3), (.getDrdy, 2, 3), (.readMeas, 2, 9), (.measSingle, 2, 0),
        (.startPeriodic, 2, 0), (.stopPeriodic, 2, 0), (.frc target, 5, 3)],
      exchangeOf x.2.1 x.2.2 a r = .response bytes → exec x.1 s = .next t → s.clock.afterXact ≤ (now t).1) ∧
  (∀ (c : Command) (frame : List Byte) (s u : State), xact c frame s = .ok () u →
    s.clock.time + s.params.waitOf c ≤ u.clock.time) ∧
  (∀ (why : Wait) (s : State), (delay why s).clock.time = s.clock.time + waitTicks why s.params) ∧
  ∀ s t : State, step s = .next t → s.clock.time ≤ t.clock.time

/-! ### Physical values and the assembler -/

/-- temp and rh (42_transactions.md R106, R107): the functions, with nothing clamped, the endpoints, the range, and strictly
increasing. -/
def Obligations.PhysicalValues : Prop :=
  (∀ w : Word, 65535 * (temp w + 45) = 175 * (w.toNat : Rat) ∧ 65535 * rh w = 100 * (w.toNat : Rat)) ∧
  temp 0#16 = -45 ∧ temp 0xFFFF#16 = 130 ∧ rh 0#16 = 0 ∧ rh 0xFFFF#16 = 100 ∧
  (∀ v w : Word, v.toNat < w.toNat → temp v < temp w ∧ rh v < rh w) ∧ ∀ w : Word, 0 ≤ rh w ∧ rh w ≤ 100

/-- The binary64 values at the ends of the range are exact (R108). -/
def Obligations.FloatEndpointsAreExact : Prop :=
  (tempF 0#16).bits = 0xC046800000000000#64 ∧ (tempF 0xFFFF#16).bits = 0x4060400000000000#64 ∧
  (rhF 0#16).bits = 0#64 ∧ (rhF 0xFFFF#16).bits = 0x4059000000000000#64

/-- The assembler (30_encoding.md R70): each line without an operand has its word; an operand in range gives the word of
R62, and one out of range is refused; a line's words are requests that decode; `CRC` expands to CRC_INIT and its CRC_FEEDs;
and SET_TERM is a write of TERM. That SET_TERM's range is CLOCK_W bits, and that `CRC` may stand with no byte, are the
model's choice (log entry 29). -/
def Obligations.AssemblerEmitsLegalWords : Prop :=
  (∀ p : Params,
    ["CRC_INIT", "GET_VARIANT", "SELF_TEST", "GET_DRDY", "READ_MEAS", "MEAS_SINGLE", "START_PERIODIC", "STOP_PERIODIC",
      "POLL_READY", "SESSION", "SESSION.LAST"].map (assembleText p) =
    [0x00000000#32, 0x00000002#32, 0x00000003#32, 0x00000004#32, 0x00000005#32, 0x00000006#32, 0x00000007#32,
      0x00000008#32, 0x0000000A#32, 0x0000000B#32, 0x0000001B#32].map fun r => some [.request r]) ∧
  (∀ p : Params, assembleText p "CRC_FEED 0xBE" = some [.request 0x00BE0001#32] ∧
    assembleText p "FRC 400" = some [.request 0x01900009#32]) ∧
  (∀ (p : Params) (imm : Nat), imm ≤ 0xFF → lineOf "CRC_FEED".toList [imm] = some (.crcFeed imm) ∧
    assemble p (.crcFeed imm) = some [.request (0#8 ++ BitVec.ofNat 8 imm ++ 0x0001#16)]) ∧
  (∀ (p : Params) (imm : Nat), imm ≤ 0xFFFF → lineOf "FRC".toList [imm] = some (.frc imm) ∧
    assemble p (.frc imm) = some [.request (BitVec.ofNat 16 imm ++ 0x0009#16)]) ∧
  (∀ (p : Params) (imm : Nat), imm < 2 ^ p.clockW → lineOf "SET_TERM".toList [imm] = some (.setTerm imm) ∧
    assemble p (.setTerm imm) = some [.act (.writeTerm imm)]) ∧
  (∀ (p : Params) (imm : Nat), 0xFF < imm → assemble p (.crcFeed imm) = none) ∧
  (∀ (p : Params) (imm : Nat), 0xFFFF < imm → assemble p (.frc imm) = none) ∧
  (∀ (p : Params) (imm : Nat), 2 ^ p.clockW ≤ imm → assemble p (.setTerm imm) = none) ∧
  (∀ (p : Params) (bytes : List Nat) (b : Nat), b ∈ bytes → 0xFF < b → assemble p (.crc bytes) = none) ∧
  (∀ (p : Params) (l : AsmLine) (hs : List HostStep) (r : BitVec 32), assemble p l = some hs → .request r ∈ hs →
    ∃ i, decodeReq r = .ok i) ∧
  ∀ (p : Params) (bs : List Byte),
    lineOf "CRC".toList (bs.map BitVec.toNat) = some (.crc (bs.map BitVec.toNat)) ∧
    assemble p (.crc (bs.map BitVec.toNat)) =
      some (.request 0#32 :: bs.map fun b => .request (0#8 ++ b ++ 0x0001#16))
end

