-- ==== Sys2Proof/Laws/Encoding.lean ====
section
/-! SUPPORT. The fields of a request word made of two halves (30_encoding.md R62), and a word's two bytes (20_memory.md
R43, R44). -/

namespace Sys2Proof.Machine

/-- A field that lies in the low half of a request word is the low half's. -/
theorem field_low (h l : Word) {start len : Nat} (hb : start + len ≤ 16) :
    ((h ++ l : BitVec 32)).extractLsb' start len = l.extractLsb' start len := by
  apply BitVec.eq_of_getLsbD_eq
  intro i hi
  rw [BitVec.getLsbD_extractLsb', BitVec.getLsbD_extractLsb',
    show (h ++ l : BitVec 32).getLsbD (start + i) = _ from BitVec.getLsbD_append, if_pos (by omega)]

/-- A field that lies in the high half of a request word is the high half's. -/
theorem field_high (h l : Word) (start len : Nat) :
    ((h ++ l : BitVec 32)).extractLsb' (16 + start) len = h.extractLsb' start len := by
  apply BitVec.eq_of_getLsbD_eq
  intro i hi
  rw [BitVec.getLsbD_extractLsb', BitVec.getLsbD_extractLsb',
    show (h ++ l : BitVec 32).getLsbD (16 + start + i) = _ from BitVec.getLsbD_append, if_neg (by omega)]
  congr 2
  omega

theorem reqOp_append (h l : Word) : reqOp (h ++ l) = l.extractLsb' 0 4 := field_low h l (by decide)

theorem reqUnused_append (h l : Word) : reqUnused (h ++ l) = l.extractLsb' 5 11 := field_low h l (by decide)

theorem reqLow_append (h l : Word) : reqLow (h ++ l) = l := by
  rw [reqLow, field_low h l (by decide), BitVec.extractLsb'_eq_self]

theorem reqOL_append (h l : Word) : reqOL (h ++ l) = l.getLsbD 4 := by
  rw [reqOL, show (h ++ l : BitVec 32).getLsbD 4 = _ from BitVec.getLsbD_append, if_pos (by decide)]

theorem reqArg_append (h l : Word) : reqArg (h ++ l) = h :=
  (field_high h l 0 16).trans BitVec.extractLsb'_eq_self

theorem reqByte_append (h l : Word) : reqByte (h ++ l) = h.extractLsb' 0 8 := field_high h l 0 8

theorem reqArgHi_append (h l : Word) : reqArgHi (h ++ l) = h.extractLsb' 8 8 := field_high h l 8 8

/-- A word is its two bytes. -/
theorem be16_bytes (w : Word) : be16 (hiByte w) (loByte w) = w := by
  apply BitVec.eq_of_getLsbD_eq
  intro i hi
  rw [be16, show (hiByte w ++ loByte w).getLsbD i = _ from BitVec.getLsbD_append, hiByte, loByte]
  split <;> rw [BitVec.getLsbD_extractLsb']
  · simp [*]
  · have : i - 8 < 8 := by omega
    simp only [this, decide_true, Bool.true_and]
    congr 1
    omega

theorem hiByte_be16 (b0 b1 : Byte) : hiByte (be16 b0 b1) = b0 := by
  apply BitVec.eq_of_getLsbD_eq
  intro i hi
  rw [hiByte, BitVec.getLsbD_extractLsb', be16,
    show (b0 ++ b1).getLsbD (8 + i) = _ from BitVec.getLsbD_append, if_neg (by omega)]
  simp [hi]

theorem loByte_be16 (b0 b1 : Byte) : loByte (be16 b0 b1) = b1 := by
  apply BitVec.eq_of_getLsbD_eq
  intro i hi
  rw [loByte, BitVec.getLsbD_extractLsb', be16,
    show (b0 ++ b1).getLsbD (0 + i) = _ from BitVec.getLsbD_append, if_pos (by omega)]
  simp [hi]

/-- DRDY is the low 11 bits of the word (00_scope.md R7, DRDY_MASK). -/
theorem drdyOf_eq (w : Word) : drdyOf w = w.extractLsb' 0 11 := by
  apply BitVec.eq_of_getLsbD_eq
  intro i hi
  have h : ∀ i, i < 11 → (0x07FF#16).getLsbD i = true := by decide
  rw [drdyOf, BitVec.getLsbD_extractLsb', BitVec.getLsbD_extractLsb', Nat.zero_add, BitVec.getLsbD_and, h i hi,
    Bool.and_true]

/-- READY asks whether the word under DRDY_MASK is 0 (42_transactions.md R104). -/
theorem readyFlag_eq (w : Word) : readyFlag (drdyOf w) = decide (w &&& 0x07FF#16 ≠ 0) := by
  have h : ∀ i, i < 16 → ¬i < 11 → (0x07FF#16).getLsbD i = false := by decide
  refine decide_eq_decide.2 (not_congr ⟨fun hd => ?_, fun hw => by rw [drdyOf, hw]; rfl⟩)
  apply BitVec.eq_of_getLsbD_eq
  intro i hi
  by_cases h11 : i < 11
  · have := congrArg (fun v => BitVec.getLsbD v i) hd
    simpa [drdyOf, BitVec.getLsbD_extractLsb', h11] using this
  · rw [BitVec.getLsbD_and, h i hi h11, Bool.and_false]
    exact BitVec.getLsbD_zero.symm

/-- CORR's value as a signed number (42_transactions.md R109). -/
theorem corrOf_toInt (w : Word) : (corrOf w).toInt = corrInt w := by
  have := w.isLt
  simp only [corrOf, corrInt, BitVec.toInt_eq_toNat_cond, BitVec.toNat_sub, BitVec.toNat_ofNat]
  omega

/-- The operand of CRC_FEED fills the high half of its word. -/
theorem feedWord (b : Byte) : (0#8 ++ b ++ 0x0001#16 : BitVec 32) = be16 0#8 b ++ 0x0001#16 := rfl

end Sys2Proof.Machine
end

