-- ==== Sys2Proof/Laws/Memory.lean ====
section
/-! SUPPORT. The laws of the buffer cells: a read after a write, a write elsewhere, and that every write keeps the
canonical form. -/

namespace Sys2Proof.Machine

theorem Memory.read_write_same (m : List Host.Cell) (a : Nat) (v : Byte) :
    Memory.read (Memory.write m a v) a = some v := by
  induction m with
  | nil => simp [Memory.write, Memory.read]
  | cons c m ih =>
    obtain ⟨b, u⟩ := c
    unfold Memory.write
    split
    · simp [Memory.read]
    · split
      · simp [Memory.read]
      · rename_i _ hne
        have hba : ¬b = a := fun h => hne h.symm
        simp [Memory.read, hba, ih]

theorem Memory.read_write_other (m : List Host.Cell) {a x : Nat} (v : Byte) (h : x ≠ a) :
    Memory.read (Memory.write m a v) x = Memory.read m x := by
  have hax : ¬a = x := fun e => h e.symm
  induction m with
  | nil => simp [Memory.write, Memory.read, hax]
  | cons c m ih =>
    obtain ⟨b, u⟩ := c
    unfold Memory.write
    split
    · simp [Memory.read, hax]
    · split
      · rename_i _ heq
        subst heq
        simp [Memory.read, hax]
      · simp [Memory.read, ih]

theorem Memory.read_writeAll_before (bs : List Byte) :
    ∀ (m : List Host.Cell) (base x : Nat), x < base →
      Memory.read (Memory.writeAll m base bs) x = Memory.read m x := by
  induction bs with
  | nil => intro m base x _; rfl
  | cons b bs ih =>
    intro m base x h
    rw [Memory.writeAll, ih _ _ _ (by omega), Memory.read_write_other _ _ (by omega)]

theorem Memory.read_writeAll_after (bs : List Byte) :
    ∀ (m : List Host.Cell) (base x : Nat), base + bs.length ≤ x →
      Memory.read (Memory.writeAll m base bs) x = Memory.read m x := by
  induction bs with
  | nil => intro m base x _; rfl
  | cons b bs ih =>
    intro m base x h
    simp only [List.length_cons] at h
    rw [Memory.writeAll, ih _ _ _ (by omega), Memory.read_write_other _ _ (by omega)]

theorem Memory.read_writeAll_at (bs : List Byte) :
    ∀ (m : List Host.Cell) (base i : Nat), i < bs.length →
      Memory.read (Memory.writeAll m base bs) (base + i) = bs[i]? := by
  induction bs with
  | nil => intro m base i h; simp at h
  | cons b bs ih =>
    intro m base i h
    rw [Memory.writeAll]
    cases i with
    | zero =>
      rw [Memory.read_writeAll_before _ _ _ _ (by omega)]
      simp [Memory.read_write_same]
    | succ i =>
      have h' : base + (i + 1) = base + 1 + i := by omega
      rw [h', ih _ _ _ (by simpa using h)]
      simp

/-- A buffer in canonical form all of whose addresses are greater than `a` may follow an entry at `a`. -/
theorem Memory.wf_cons {a : Nat} {v : Byte} {m : List Host.Cell} (hm : Memory.wf m = true)
    (h : ∀ c ∈ m.head?, a < c.1) : Memory.wf ((a, v) :: m) = true := by
  cases m with
  | nil => rfl
  | cons c m =>
    obtain ⟨b, u⟩ := c
    simpa [Memory.wf, hm] using h (b, u) (by simp)

theorem Memory.wf_tail {c : Host.Cell} {m : List Host.Cell} (h : Memory.wf (c :: m) = true) :
    Memory.wf m = true := by
  cases m with
  | nil => rfl
  | cons d m =>
    obtain ⟨a, v⟩ := c
    obtain ⟨b, u⟩ := d
    simp [Memory.wf] at h
    exact h.2

theorem Memory.wf_head {c : Host.Cell} {m : List Host.Cell} (h : Memory.wf (c :: m) = true) :
    ∀ d ∈ m.head?, c.1 < d.1 := by
  cases m with
  | nil => simp
  | cons d m =>
    obtain ⟨a, v⟩ := c
    obtain ⟨b, u⟩ := d
    simp [Memory.wf] at h
    simpa using h.1

/-- The first address after a write is the one written or the first one before. -/
theorem Memory.head_write (m : List Host.Cell) (a : Nat) (v : Byte) :
    ∀ d ∈ (Memory.write m a v).head?, d.1 = a ∨ ∃ c ∈ m.head?, d.1 = c.1 := by
  cases m with
  | nil => simp [Memory.write]
  | cons c m =>
    obtain ⟨b, u⟩ := c
    unfold Memory.write
    split
    · simp
    · split <;> simp

theorem Memory.wf_write {m : List Host.Cell} (a : Nat) (v : Byte) (h : Memory.wf m = true) :
    Memory.wf (Memory.write m a v) = true := by
  induction m with
  | nil => rfl
  | cons c m ih =>
    obtain ⟨b, u⟩ := c
    unfold Memory.write
    split
    · rename_i hlt
      exact Memory.wf_cons h (by simpa using hlt)
    · split
      · rename_i _ heq
        subst heq
        exact Memory.wf_cons (Memory.wf_tail h) (Memory.wf_head h)
      · rename_i hnlt hne
        refine Memory.wf_cons (ih (Memory.wf_tail h)) ?_
        intro d hd
        rcases Memory.head_write m a v d hd with h1 | ⟨c, hc, h1⟩
        · omega
        · have := Memory.wf_head h c hc
          simp only at this
          omega

theorem Memory.wf_writeAll (bs : List Byte) :
    ∀ (m : List Host.Cell) (base : Nat), Memory.wf m = true → Memory.wf (Memory.writeAll m base bs) = true := by
  induction bs with
  | nil => intro m base h; exact h
  | cons b bs ih => intro m base h; exact ih _ _ (Memory.wf_write base b h)

theorem Memory.within_write {n : Nat} {m : List Host.Cell} {a : Nat} (v : Byte) (ha : a < n)
    (h : Memory.within n m = true) : Memory.within n (Memory.write m a v) = true := by
  unfold Memory.within at *
  induction m with
  | nil => simpa [Memory.write] using ha
  | cons c m ih =>
    obtain ⟨b, u⟩ := c
    simp only [List.all_cons, Bool.and_eq_true, decide_eq_true_eq] at h
    have hi := ih (by simpa using h.2)
    unfold Memory.write
    split
    · simp only [List.all_cons, Bool.and_eq_true, decide_eq_true_eq]
      exact ⟨ha, h.1, h.2⟩
    · split
      · simp only [List.all_cons, Bool.and_eq_true, decide_eq_true_eq]
        exact ⟨ha, h.2⟩
      · simp only [List.all_cons, Bool.and_eq_true, decide_eq_true_eq]
        exact ⟨h.1, hi⟩

theorem Memory.within_writeAll {n : Nat} (bs : List Byte) :
    ∀ (m : List Host.Cell) (base : Nat), base + bs.length ≤ n → Memory.within n m = true →
      Memory.within n (Memory.writeAll m base bs) = true := by
  induction bs with
  | nil => intro m base _ h; exact h
  | cons b bs ih =>
    intro m base hb h
    simp only [List.length_cons] at hb
    exact ih _ _ (by omega) (Memory.within_write b (by omega) h)

/-- The bytes written from the start of a buffer are the bytes it then leads with. -/
theorem Memory.leading_eq_of_read {m : List Host.Cell} (bs : List Byte) :
    ∀ (base : Nat), (∀ i, i < bs.length → Memory.read m (base + i) = bs[i]?) →
      Memory.leading m base bs.length = bs := by
  induction bs with
  | nil => intro base _; rfl
  | cons b bs ih =>
    intro base h
    have h0 := h 0 (by simp)
    simp only [Nat.add_zero, List.getElem?_cons_zero] at h0
    simp only [List.length_cons, Memory.leading, h0]
    rw [ih (base + 1)]
    intro i hi
    have := h (i + 1) (by simpa using hi)
    rw [show base + 1 + i = base + (i + 1) from by omega, this]
    simp

end Sys2Proof.Machine
end

