-- ==== Sys2Proof/Laws/State.lean ====
section
/-! SUPPORT. What each update of State does to each field, one lemma for each pair, so that no proof unfolds a record
update. -/

namespace Sys2Proof.Machine

variable (s : State)

/-! ### setPhase -/

@[simp] theorem setPhase_params (p : Phase) : (s.setPhase p).params = s.params := rfl
@[simp] theorem setPhase_seq (p : Phase) : (s.setPhase p).seq = { s.seq with phase := p } := rfl
@[simp] theorem setPhase_req (p : Phase) : (s.setPhase p).req = s.req := rfl
@[simp] theorem setPhase_term (p : Phase) : (s.setPhase p).term = s.term := rfl
@[simp] theorem setPhase_status (p : Phase) : (s.setPhase p).status = s.status := rfl
@[simp] theorem setPhase_err (p : Phase) : (s.setPhase p).err = s.err := rfl
@[simp] theorem setPhase_errInfo (p : Phase) : (s.setPhase p).errInfo = s.errInfo := rfl
@[simp] theorem setPhase_acc (p : Phase) : (s.setPhase p).acc = s.acc := rfl
@[simp] theorem setPhase_results (p : Phase) : (s.setPhase p).results = s.results := rfl
@[simp] theorem setPhase_poll (p : Phase) : (s.setPhase p).poll = s.poll := rfl
@[simp] theorem setPhase_measuring (p : Phase) : (s.setPhase p).measuring = s.measuring := rfl
@[simp] theorem setPhase_shutdown (p : Phase) : (s.setPhase p).shutdown = s.shutdown := rfl
@[simp] theorem setPhase_session (p : Phase) : (s.setPhase p).session = s.session := rfl
@[simp] theorem setPhase_txbuf (p : Phase) : (s.setPhase p).txbuf = s.txbuf := rfl
@[simp] theorem setPhase_rxbuf (p : Phase) : (s.setPhase p).rxbuf = s.rxbuf := rfl
@[simp] theorem setPhase_clock (p : Phase) : (s.setPhase p).clock = s.clock := rfl
@[simp] theorem setPhase_env (p : Phase) : (s.setPhase p).env = s.env := rfl
@[simp] theorem setPhase_trace (p : Phase) : (s.setPhase p).trace = s.trace := rfl

/-! ### setRvalid -/

@[simp] theorem setRvalid_params : (s.setRvalid).params = s.params := rfl
@[simp] theorem setRvalid_seq : (s.setRvalid).seq = s.seq := rfl
@[simp] theorem setRvalid_req : (s.setRvalid).req = s.req := rfl
@[simp] theorem setRvalid_term : (s.setRvalid).term = s.term := rfl
@[simp] theorem setRvalid_status : (s.setRvalid).status = { s.status with rvalid := true } := rfl
@[simp] theorem setRvalid_err : (s.setRvalid).err = s.err := rfl
@[simp] theorem setRvalid_errInfo : (s.setRvalid).errInfo = s.errInfo := rfl
@[simp] theorem setRvalid_acc : (s.setRvalid).acc = s.acc := rfl
@[simp] theorem setRvalid_results : (s.setRvalid).results = s.results := rfl
@[simp] theorem setRvalid_poll : (s.setRvalid).poll = s.poll := rfl
@[simp] theorem setRvalid_measuring : (s.setRvalid).measuring = s.measuring := rfl
@[simp] theorem setRvalid_shutdown : (s.setRvalid).shutdown = s.shutdown := rfl
@[simp] theorem setRvalid_session : (s.setRvalid).session = s.session := rfl
@[simp] theorem setRvalid_txbuf : (s.setRvalid).txbuf = s.txbuf := rfl
@[simp] theorem setRvalid_rxbuf : (s.setRvalid).rxbuf = s.rxbuf := rfl
@[simp] theorem setRvalid_clock : (s.setRvalid).clock = s.clock := rfl
@[simp] theorem setRvalid_env : (s.setRvalid).env = s.env := rfl
@[simp] theorem setRvalid_trace : (s.setRvalid).trace = s.trace := rfl

/-! ### setAcc -/

@[simp] theorem setAcc_params (a : Byte) : (s.setAcc a).params = s.params := rfl
@[simp] theorem setAcc_seq (a : Byte) : (s.setAcc a).seq = s.seq := rfl
@[simp] theorem setAcc_req (a : Byte) : (s.setAcc a).req = s.req := rfl
@[simp] theorem setAcc_term (a : Byte) : (s.setAcc a).term = s.term := rfl
@[simp] theorem setAcc_status (a : Byte) : (s.setAcc a).status = s.status := rfl
@[simp] theorem setAcc_err (a : Byte) : (s.setAcc a).err = s.err := rfl
@[simp] theorem setAcc_errInfo (a : Byte) : (s.setAcc a).errInfo = s.errInfo := rfl
@[simp] theorem setAcc_acc (a : Byte) : (s.setAcc a).acc = a := rfl
@[simp] theorem setAcc_results (a : Byte) : (s.setAcc a).results = s.results := rfl
@[simp] theorem setAcc_poll (a : Byte) : (s.setAcc a).poll = s.poll := rfl
@[simp] theorem setAcc_measuring (a : Byte) : (s.setAcc a).measuring = s.measuring := rfl
@[simp] theorem setAcc_shutdown (a : Byte) : (s.setAcc a).shutdown = s.shutdown := rfl
@[simp] theorem setAcc_session (a : Byte) : (s.setAcc a).session = s.session := rfl
@[simp] theorem setAcc_txbuf (a : Byte) : (s.setAcc a).txbuf = s.txbuf := rfl
@[simp] theorem setAcc_rxbuf (a : Byte) : (s.setAcc a).rxbuf = s.rxbuf := rfl
@[simp] theorem setAcc_clock (a : Byte) : (s.setAcc a).clock = s.clock := rfl
@[simp] theorem setAcc_env (a : Byte) : (s.setAcc a).env = s.env := rfl
@[simp] theorem setAcc_trace (a : Byte) : (s.setAcc a).trace = s.trace := rfl

/-! ### setWord -/

@[simp] theorem setWord_params (w : Word) : (s.setWord w).params = s.params := rfl
@[simp] theorem setWord_seq (w : Word) : (s.setWord w).seq = s.seq := rfl
@[simp] theorem setWord_req (w : Word) : (s.setWord w).req = s.req := rfl
@[simp] theorem setWord_term (w : Word) : (s.setWord w).term = s.term := rfl
@[simp] theorem setWord_status (w : Word) : (s.setWord w).status = s.status := rfl
@[simp] theorem setWord_err (w : Word) : (s.setWord w).err = s.err := rfl
@[simp] theorem setWord_errInfo (w : Word) : (s.setWord w).errInfo = s.errInfo := rfl
@[simp] theorem setWord_acc (w : Word) : (s.setWord w).acc = s.acc := rfl
@[simp] theorem setWord_results (w : Word) :
    (s.setWord w).results = { s.results with word := w, wordWritten := true } := rfl
@[simp] theorem setWord_poll (w : Word) : (s.setWord w).poll = s.poll := rfl
@[simp] theorem setWord_measuring (w : Word) : (s.setWord w).measuring = s.measuring := rfl
@[simp] theorem setWord_shutdown (w : Word) : (s.setWord w).shutdown = s.shutdown := rfl
@[simp] theorem setWord_session (w : Word) : (s.setWord w).session = s.session := rfl
@[simp] theorem setWord_txbuf (w : Word) : (s.setWord w).txbuf = s.txbuf := rfl
@[simp] theorem setWord_rxbuf (w : Word) : (s.setWord w).rxbuf = s.rxbuf := rfl
@[simp] theorem setWord_clock (w : Word) : (s.setWord w).clock = s.clock := rfl
@[simp] theorem setWord_env (w : Word) : (s.setWord w).env = s.env := rfl
@[simp] theorem setWord_trace (w : Word) : (s.setWord w).trace = s.trace := rfl

/-! ### setDrdy -/

@[simp] theorem setDrdy_params (w : Word) : (s.setDrdy w).params = s.params := rfl
@[simp] theorem setDrdy_seq (w : Word) : (s.setDrdy w).seq = s.seq := rfl
@[simp] theorem setDrdy_req (w : Word) : (s.setDrdy w).req = s.req := rfl
@[simp] theorem setDrdy_term (w : Word) : (s.setDrdy w).term = s.term := rfl
@[simp] theorem setDrdy_status (w : Word) :
    (s.setDrdy w).status = { s.status with ready := readyFlag (drdyOf w) } := rfl
@[simp] theorem setDrdy_err (w : Word) : (s.setDrdy w).err = s.err := rfl
@[simp] theorem setDrdy_errInfo (w : Word) : (s.setDrdy w).errInfo = s.errInfo := rfl
@[simp] theorem setDrdy_acc (w : Word) : (s.setDrdy w).acc = s.acc := rfl
@[simp] theorem setDrdy_results (w : Word) :
    (s.setDrdy w).results = { s.results with drdy := drdyOf w, drdyWritten := true } := rfl
@[simp] theorem setDrdy_poll (w : Word) : (s.setDrdy w).poll = s.poll := rfl
@[simp] theorem setDrdy_measuring (w : Word) : (s.setDrdy w).measuring = s.measuring := rfl
@[simp] theorem setDrdy_shutdown (w : Word) : (s.setDrdy w).shutdown = s.shutdown := rfl
@[simp] theorem setDrdy_session (w : Word) : (s.setDrdy w).session = s.session := rfl
@[simp] theorem setDrdy_txbuf (w : Word) : (s.setDrdy w).txbuf = s.txbuf := rfl
@[simp] theorem setDrdy_rxbuf (w : Word) : (s.setDrdy w).rxbuf = s.rxbuf := rfl
@[simp] theorem setDrdy_clock (w : Word) : (s.setDrdy w).clock = s.clock := rfl
@[simp] theorem setDrdy_env (w : Word) : (s.setDrdy w).env = s.env := rfl
@[simp] theorem setDrdy_trace (w : Word) : (s.setDrdy w).trace = s.trace := rfl

/-! ### setPassed -/

@[simp] theorem setPassed_params (w : Word) : (s.setPassed w).params = s.params := rfl
@[simp] theorem setPassed_seq (w : Word) : (s.setPassed w).seq = s.seq := rfl
@[simp] theorem setPassed_req (w : Word) : (s.setPassed w).req = s.req := rfl
@[simp] theorem setPassed_term (w : Word) : (s.setPassed w).term = s.term := rfl
@[simp] theorem setPassed_status (w : Word) : (s.setPassed w).status = { s.status with passed := passedFlag w } := rfl
@[simp] theorem setPassed_err (w : Word) : (s.setPassed w).err = s.err := rfl
@[simp] theorem setPassed_errInfo (w : Word) : (s.setPassed w).errInfo = s.errInfo := rfl
@[simp] theorem setPassed_acc (w : Word) : (s.setPassed w).acc = s.acc := rfl
@[simp] theorem setPassed_results (w : Word) : (s.setPassed w).results = s.results := rfl
@[simp] theorem setPassed_poll (w : Word) : (s.setPassed w).poll = s.poll := rfl
@[simp] theorem setPassed_measuring (w : Word) : (s.setPassed w).measuring = s.measuring := rfl
@[simp] theorem setPassed_shutdown (w : Word) : (s.setPassed w).shutdown = s.shutdown := rfl
@[simp] theorem setPassed_session (w : Word) : (s.setPassed w).session = s.session := rfl
@[simp] theorem setPassed_txbuf (w : Word) : (s.setPassed w).txbuf = s.txbuf := rfl
@[simp] theorem setPassed_rxbuf (w : Word) : (s.setPassed w).rxbuf = s.rxbuf := rfl
@[simp] theorem setPassed_clock (w : Word) : (s.setPassed w).clock = s.clock := rfl
@[simp] theorem setPassed_env (w : Word) : (s.setPassed w).env = s.env := rfl
@[simp] theorem setPassed_trace (w : Word) : (s.setPassed w).trace = s.trace := rfl

/-! ### setCorr -/

@[simp] theorem setCorr_params (w : Word) : (s.setCorr w).params = s.params := rfl
@[simp] theorem setCorr_seq (w : Word) : (s.setCorr w).seq = s.seq := rfl
@[simp] theorem setCorr_req (w : Word) : (s.setCorr w).req = s.req := rfl
@[simp] theorem setCorr_term (w : Word) : (s.setCorr w).term = s.term := rfl
@[simp] theorem setCorr_status (w : Word) : (s.setCorr w).status = s.status := rfl
@[simp] theorem setCorr_err (w : Word) : (s.setCorr w).err = s.err := rfl
@[simp] theorem setCorr_errInfo (w : Word) : (s.setCorr w).errInfo = s.errInfo := rfl
@[simp] theorem setCorr_acc (w : Word) : (s.setCorr w).acc = s.acc := rfl
@[simp] theorem setCorr_results (w : Word) :
    (s.setCorr w).results = { s.results with corr := corrOf w, corrWritten := true } := rfl
@[simp] theorem setCorr_poll (w : Word) : (s.setCorr w).poll = s.poll := rfl
@[simp] theorem setCorr_measuring (w : Word) : (s.setCorr w).measuring = s.measuring := rfl
@[simp] theorem setCorr_shutdown (w : Word) : (s.setCorr w).shutdown = s.shutdown := rfl
@[simp] theorem setCorr_session (w : Word) : (s.setCorr w).session = s.session := rfl
@[simp] theorem setCorr_txbuf (w : Word) : (s.setCorr w).txbuf = s.txbuf := rfl
@[simp] theorem setCorr_rxbuf (w : Word) : (s.setCorr w).rxbuf = s.rxbuf := rfl
@[simp] theorem setCorr_clock (w : Word) : (s.setCorr w).clock = s.clock := rfl
@[simp] theorem setCorr_env (w : Word) : (s.setCorr w).env = s.env := rfl
@[simp] theorem setCorr_trace (w : Word) : (s.setCorr w).trace = s.trace := rfl

/-! ### setMeas -/

@[simp] theorem setMeas_params (w1 w2 w3 : Word) (t : Nat) : (s.setMeas w1 w2 w3 t).params = s.params := rfl
@[simp] theorem setMeas_seq (w1 w2 w3 : Word) (t : Nat) : (s.setMeas w1 w2 w3 t).seq = s.seq := rfl
@[simp] theorem setMeas_req (w1 w2 w3 : Word) (t : Nat) : (s.setMeas w1 w2 w3 t).req = s.req := rfl
@[simp] theorem setMeas_term (w1 w2 w3 : Word) (t : Nat) : (s.setMeas w1 w2 w3 t).term = s.term := rfl
@[simp] theorem setMeas_status (w1 w2 w3 : Word) (t : Nat) : (s.setMeas w1 w2 w3 t).status = s.status := rfl
@[simp] theorem setMeas_err (w1 w2 w3 : Word) (t : Nat) : (s.setMeas w1 w2 w3 t).err = s.err := rfl
@[simp] theorem setMeas_errInfo (w1 w2 w3 : Word) (t : Nat) : (s.setMeas w1 w2 w3 t).errInfo = s.errInfo := rfl
@[simp] theorem setMeas_acc (w1 w2 w3 : Word) (t : Nat) : (s.setMeas w1 w2 w3 t).acc = s.acc := rfl
@[simp] theorem setMeas_results (w1 w2 w3 : Word) (t : Nat) :
    (s.setMeas w1 w2 w3 t).results = { s.results with co2 := w1, tRaw := w2, rhRaw := w3, ts := t, measWritten := true } := rfl
@[simp] theorem setMeas_poll (w1 w2 w3 : Word) (t : Nat) : (s.setMeas w1 w2 w3 t).poll = s.poll := rfl
@[simp] theorem setMeas_measuring (w1 w2 w3 : Word) (t : Nat) : (s.setMeas w1 w2 w3 t).measuring = s.measuring := rfl
@[simp] theorem setMeas_shutdown (w1 w2 w3 : Word) (t : Nat) : (s.setMeas w1 w2 w3 t).shutdown = s.shutdown := rfl
@[simp] theorem setMeas_session (w1 w2 w3 : Word) (t : Nat) : (s.setMeas w1 w2 w3 t).session = s.session := rfl
@[simp] theorem setMeas_txbuf (w1 w2 w3 : Word) (t : Nat) : (s.setMeas w1 w2 w3 t).txbuf = s.txbuf := rfl
@[simp] theorem setMeas_rxbuf (w1 w2 w3 : Word) (t : Nat) : (s.setMeas w1 w2 w3 t).rxbuf = s.rxbuf := rfl
@[simp] theorem setMeas_clock (w1 w2 w3 : Word) (t : Nat) : (s.setMeas w1 w2 w3 t).clock = s.clock := rfl
@[simp] theorem setMeas_env (w1 w2 w3 : Word) (t : Nat) : (s.setMeas w1 w2 w3 t).env = s.env := rfl
@[simp] theorem setMeas_trace (w1 w2 w3 : Word) (t : Nat) : (s.setMeas w1 w2 w3 t).trace = s.trace := rfl

/-! ### setPState -/

@[simp] theorem setPState_params (p : PState) : (s.setPState p).params = s.params := rfl
@[simp] theorem setPState_seq (p : PState) : (s.setPState p).seq = s.seq := rfl
@[simp] theorem setPState_req (p : PState) : (s.setPState p).req = s.req := rfl
@[simp] theorem setPState_term (p : PState) : (s.setPState p).term = s.term := rfl
@[simp] theorem setPState_status (p : PState) : (s.setPState p).status = s.status := rfl
@[simp] theorem setPState_err (p : PState) : (s.setPState p).err = s.err := rfl
@[simp] theorem setPState_errInfo (p : PState) : (s.setPState p).errInfo = s.errInfo := rfl
@[simp] theorem setPState_acc (p : PState) : (s.setPState p).acc = s.acc := rfl
@[simp] theorem setPState_results (p : PState) : (s.setPState p).results = s.results := rfl
@[simp] theorem setPState_poll (p : PState) : (s.setPState p).poll = { s.poll with pstate := p } := rfl
@[simp] theorem setPState_measuring (p : PState) : (s.setPState p).measuring = s.measuring := rfl
@[simp] theorem setPState_shutdown (p : PState) : (s.setPState p).shutdown = s.shutdown := rfl
@[simp] theorem setPState_session (p : PState) : (s.setPState p).session = s.session := rfl
@[simp] theorem setPState_txbuf (p : PState) : (s.setPState p).txbuf = s.txbuf := rfl
@[simp] theorem setPState_rxbuf (p : PState) : (s.setPState p).rxbuf = s.rxbuf := rfl
@[simp] theorem setPState_clock (p : PState) : (s.setPState p).clock = s.clock := rfl
@[simp] theorem setPState_env (p : PState) : (s.setPState p).env = s.env := rfl
@[simp] theorem setPState_trace (p : PState) : (s.setPState p).trace = s.trace := rfl

/-! ### setPerr -/

@[simp] theorem setPerr_params (e : Err) : (s.setPerr e).params = s.params := rfl
@[simp] theorem setPerr_seq (e : Err) : (s.setPerr e).seq = s.seq := rfl
@[simp] theorem setPerr_req (e : Err) : (s.setPerr e).req = s.req := rfl
@[simp] theorem setPerr_term (e : Err) : (s.setPerr e).term = s.term := rfl
@[simp] theorem setPerr_status (e : Err) : (s.setPerr e).status = s.status := rfl
@[simp] theorem setPerr_err (e : Err) : (s.setPerr e).err = s.err := rfl
@[simp] theorem setPerr_errInfo (e : Err) : (s.setPerr e).errInfo = s.errInfo := rfl
@[simp] theorem setPerr_acc (e : Err) : (s.setPerr e).acc = s.acc := rfl
@[simp] theorem setPerr_results (e : Err) : (s.setPerr e).results = s.results := rfl
@[simp] theorem setPerr_poll (e : Err) : (s.setPerr e).poll = s.poll := rfl
@[simp] theorem setPerr_measuring (e : Err) : (s.setPerr e).measuring = s.measuring := rfl
@[simp] theorem setPerr_shutdown (e : Err) : (s.setPerr e).shutdown = s.shutdown := rfl
@[simp] theorem setPerr_session (e : Err) : (s.setPerr e).session = { s.session with perr := e } := rfl
@[simp] theorem setPerr_txbuf (e : Err) : (s.setPerr e).txbuf = s.txbuf := rfl
@[simp] theorem setPerr_rxbuf (e : Err) : (s.setPerr e).rxbuf = s.rxbuf := rfl
@[simp] theorem setPerr_clock (e : Err) : (s.setPerr e).clock = s.clock := rfl
@[simp] theorem setPerr_env (e : Err) : (s.setPerr e).env = s.env := rfl
@[simp] theorem setPerr_trace (e : Err) : (s.setPerr e).trace = s.trace := rfl

/-! ### setPerr2 -/

@[simp] theorem setPerr2_params (k : ErrKind) : (s.setPerr2 k).params = s.params := rfl
@[simp] theorem setPerr2_seq (k : ErrKind) : (s.setPerr2 k).seq = s.seq := rfl
@[simp] theorem setPerr2_req (k : ErrKind) : (s.setPerr2 k).req = s.req := rfl
@[simp] theorem setPerr2_term (k : ErrKind) : (s.setPerr2 k).term = s.term := rfl
@[simp] theorem setPerr2_status (k : ErrKind) : (s.setPerr2 k).status = s.status := rfl
@[simp] theorem setPerr2_err (k : ErrKind) : (s.setPerr2 k).err = s.err := rfl
@[simp] theorem setPerr2_errInfo (k : ErrKind) : (s.setPerr2 k).errInfo = s.errInfo := rfl
@[simp] theorem setPerr2_acc (k : ErrKind) : (s.setPerr2 k).acc = s.acc := rfl
@[simp] theorem setPerr2_results (k : ErrKind) : (s.setPerr2 k).results = s.results := rfl
@[simp] theorem setPerr2_poll (k : ErrKind) : (s.setPerr2 k).poll = s.poll := rfl
@[simp] theorem setPerr2_measuring (k : ErrKind) : (s.setPerr2 k).measuring = s.measuring := rfl
@[simp] theorem setPerr2_shutdown (k : ErrKind) : (s.setPerr2 k).shutdown = s.shutdown := rfl
@[simp] theorem setPerr2_session (k : ErrKind) : (s.setPerr2 k).session = { s.session with perr2 := k } := rfl
@[simp] theorem setPerr2_txbuf (k : ErrKind) : (s.setPerr2 k).txbuf = s.txbuf := rfl
@[simp] theorem setPerr2_rxbuf (k : ErrKind) : (s.setPerr2 k).rxbuf = s.rxbuf := rfl
@[simp] theorem setPerr2_clock (k : ErrKind) : (s.setPerr2 k).clock = s.clock := rfl
@[simp] theorem setPerr2_env (k : ErrKind) : (s.setPerr2 k).env = s.env := rfl
@[simp] theorem setPerr2_trace (k : ErrKind) : (s.setPerr2 k).trace = s.trace := rfl

/-! ### log -/

@[simp] theorem log_params (e : Event) : (s.log e).params = s.params := rfl
@[simp] theorem log_seq (e : Event) : (s.log e).seq = s.seq := rfl
@[simp] theorem log_req (e : Event) : (s.log e).req = s.req := rfl
@[simp] theorem log_term (e : Event) : (s.log e).term = s.term := rfl
@[simp] theorem log_status (e : Event) : (s.log e).status = s.status := rfl
@[simp] theorem log_err (e : Event) : (s.log e).err = s.err := rfl
@[simp] theorem log_errInfo (e : Event) : (s.log e).errInfo = s.errInfo := rfl
@[simp] theorem log_acc (e : Event) : (s.log e).acc = s.acc := rfl
@[simp] theorem log_results (e : Event) : (s.log e).results = s.results := rfl
@[simp] theorem log_poll (e : Event) : (s.log e).poll = s.poll := rfl
@[simp] theorem log_measuring (e : Event) : (s.log e).measuring = s.measuring := rfl
@[simp] theorem log_shutdown (e : Event) : (s.log e).shutdown = s.shutdown := rfl
@[simp] theorem log_session (e : Event) : (s.log e).session = s.session := rfl
@[simp] theorem log_txbuf (e : Event) : (s.log e).txbuf = s.txbuf := rfl
@[simp] theorem log_rxbuf (e : Event) : (s.log e).rxbuf = s.rxbuf := rfl
@[simp] theorem log_clock (e : Event) : (s.log e).clock = s.clock := rfl
@[simp] theorem log_env (e : Event) : (s.log e).env = s.env := rfl
@[simp] theorem log_trace (e : Event) : (s.log e).trace = e :: s.trace := rfl

/-! ### loadTx -/

@[simp] theorem loadTx_params (f : List Byte) : (s.loadTx f).params = s.params := rfl
@[simp] theorem loadTx_seq (f : List Byte) : (s.loadTx f).seq = s.seq := rfl
@[simp] theorem loadTx_req (f : List Byte) : (s.loadTx f).req = s.req := rfl
@[simp] theorem loadTx_term (f : List Byte) : (s.loadTx f).term = s.term := rfl
@[simp] theorem loadTx_status (f : List Byte) : (s.loadTx f).status = s.status := rfl
@[simp] theorem loadTx_err (f : List Byte) : (s.loadTx f).err = s.err := rfl
@[simp] theorem loadTx_errInfo (f : List Byte) : (s.loadTx f).errInfo = s.errInfo := rfl
@[simp] theorem loadTx_acc (f : List Byte) : (s.loadTx f).acc = s.acc := rfl
@[simp] theorem loadTx_results (f : List Byte) : (s.loadTx f).results = s.results := rfl
@[simp] theorem loadTx_poll (f : List Byte) : (s.loadTx f).poll = s.poll := rfl
@[simp] theorem loadTx_measuring (f : List Byte) : (s.loadTx f).measuring = s.measuring := rfl
@[simp] theorem loadTx_shutdown (f : List Byte) : (s.loadTx f).shutdown = s.shutdown := rfl
@[simp] theorem loadTx_session (f : List Byte) : (s.loadTx f).session = s.session := rfl
@[simp] theorem loadTx_txbuf (f : List Byte) : (s.loadTx f).txbuf = Memory.writeAll s.txbuf 0 f := rfl
@[simp] theorem loadTx_rxbuf (f : List Byte) : (s.loadTx f).rxbuf = s.rxbuf := rfl
@[simp] theorem loadTx_clock (f : List Byte) : (s.loadTx f).clock = s.clock := rfl
@[simp] theorem loadTx_env (f : List Byte) : (s.loadTx f).env = s.env := rfl
@[simp] theorem loadTx_trace (f : List Byte) : (s.loadTx f).trace = s.trace := rfl

/-! ### storeRx -/

@[simp] theorem storeRx_params (b : List Byte) : (s.storeRx b).params = s.params := rfl
@[simp] theorem storeRx_seq (b : List Byte) : (s.storeRx b).seq = s.seq := rfl
@[simp] theorem storeRx_req (b : List Byte) : (s.storeRx b).req = s.req := rfl
@[simp] theorem storeRx_term (b : List Byte) : (s.storeRx b).term = s.term := rfl
@[simp] theorem storeRx_status (b : List Byte) : (s.storeRx b).status = s.status := rfl
@[simp] theorem storeRx_err (b : List Byte) : (s.storeRx b).err = s.err := rfl
@[simp] theorem storeRx_errInfo (b : List Byte) : (s.storeRx b).errInfo = s.errInfo := rfl
@[simp] theorem storeRx_acc (b : List Byte) : (s.storeRx b).acc = s.acc := rfl
@[simp] theorem storeRx_results (b : List Byte) : (s.storeRx b).results = s.results := rfl
@[simp] theorem storeRx_poll (b : List Byte) : (s.storeRx b).poll = s.poll := rfl
@[simp] theorem storeRx_measuring (b : List Byte) : (s.storeRx b).measuring = s.measuring := rfl
@[simp] theorem storeRx_shutdown (b : List Byte) : (s.storeRx b).shutdown = s.shutdown := rfl
@[simp] theorem storeRx_session (b : List Byte) : (s.storeRx b).session = s.session := rfl
@[simp] theorem storeRx_txbuf (b : List Byte) : (s.storeRx b).txbuf = s.txbuf := rfl
@[simp] theorem storeRx_rxbuf (b : List Byte) : (s.storeRx b).rxbuf = Memory.writeAll s.rxbuf 0 b := rfl
@[simp] theorem storeRx_clock (b : List Byte) : (s.storeRx b).clock = s.clock := rfl
@[simp] theorem storeRx_env (b : List Byte) : (s.storeRx b).env = s.env := rfl
@[simp] theorem storeRx_trace (b : List Byte) : (s.storeRx b).trace = s.trace := rfl

/-! ### setSilent -/

@[simp] theorem setSilent_params : (s.setSilent).params = s.params := rfl
@[simp] theorem setSilent_seq : (s.setSilent).seq = s.seq := rfl
@[simp] theorem setSilent_req : (s.setSilent).req = s.req := rfl
@[simp] theorem setSilent_term : (s.setSilent).term = s.term := rfl
@[simp] theorem setSilent_status : (s.setSilent).status = s.status := rfl
@[simp] theorem setSilent_err : (s.setSilent).err = s.err := rfl
@[simp] theorem setSilent_errInfo : (s.setSilent).errInfo = s.errInfo := rfl
@[simp] theorem setSilent_acc : (s.setSilent).acc = s.acc := rfl
@[simp] theorem setSilent_results : (s.setSilent).results = s.results := rfl
@[simp] theorem setSilent_poll : (s.setSilent).poll = s.poll := rfl
@[simp] theorem setSilent_measuring : (s.setSilent).measuring = s.measuring := rfl
@[simp] theorem setSilent_shutdown : (s.setSilent).shutdown = s.shutdown := rfl
@[simp] theorem setSilent_session : (s.setSilent).session = s.session := rfl
@[simp] theorem setSilent_txbuf : (s.setSilent).txbuf = s.txbuf := rfl
@[simp] theorem setSilent_rxbuf : (s.setSilent).rxbuf = s.rxbuf := rfl
@[simp] theorem setSilent_clock : (s.setSilent).clock = s.clock := rfl
@[simp] theorem setSilent_env : (s.setSilent).env = { s.env with silent := true } := rfl
@[simp] theorem setSilent_trace : (s.setSilent).trace = s.trace := rfl

/-! ### advance -/

@[simp] theorem advance_params (d : Nat) : (s.advance d).params = s.params := rfl
@[simp] theorem advance_seq (d : Nat) : (s.advance d).seq = s.seq := rfl
@[simp] theorem advance_req (d : Nat) : (s.advance d).req = s.req := rfl
@[simp] theorem advance_term (d : Nat) : (s.advance d).term = s.term := rfl
@[simp] theorem advance_status (d : Nat) : (s.advance d).status = s.status := rfl
@[simp] theorem advance_err (d : Nat) : (s.advance d).err = s.err := rfl
@[simp] theorem advance_errInfo (d : Nat) : (s.advance d).errInfo = s.errInfo := rfl
@[simp] theorem advance_acc (d : Nat) : (s.advance d).acc = s.acc := rfl
@[simp] theorem advance_results (d : Nat) : (s.advance d).results = s.results := rfl
@[simp] theorem advance_poll (d : Nat) : (s.advance d).poll = s.poll := rfl
@[simp] theorem advance_measuring (d : Nat) : (s.advance d).measuring = s.measuring := rfl
@[simp] theorem advance_shutdown (d : Nat) : (s.advance d).shutdown = s.shutdown := rfl
@[simp] theorem advance_session (d : Nat) : (s.advance d).session = s.session := rfl
@[simp] theorem advance_txbuf (d : Nat) : (s.advance d).txbuf = s.txbuf := rfl
@[simp] theorem advance_rxbuf (d : Nat) : (s.advance d).rxbuf = s.rxbuf := rfl
@[simp] theorem advance_clock (d : Nat) : (s.advance d).clock = { s.clock with time := s.clock.time + d } := rfl
@[simp] theorem advance_env (d : Nat) : (s.advance d).env = s.env := rfl
@[simp] theorem advance_trace (d : Nat) : (s.advance d).trace = s.trace := rfl

/-! ### xactDone -/

@[simp] theorem xactDone_params : (s.xactDone).params = s.params := rfl
@[simp] theorem xactDone_seq : (s.xactDone).seq = s.seq := rfl
@[simp] theorem xactDone_req : (s.xactDone).req = s.req := rfl
@[simp] theorem xactDone_term : (s.xactDone).term = s.term := rfl
@[simp] theorem xactDone_status : (s.xactDone).status = s.status := rfl
@[simp] theorem xactDone_err : (s.xactDone).err = s.err := rfl
@[simp] theorem xactDone_errInfo : (s.xactDone).errInfo = s.errInfo := rfl
@[simp] theorem xactDone_acc : (s.xactDone).acc = s.acc := rfl
@[simp] theorem xactDone_results : (s.xactDone).results = s.results := rfl
@[simp] theorem xactDone_poll : (s.xactDone).poll = s.poll := rfl
@[simp] theorem xactDone_measuring : (s.xactDone).measuring = s.measuring := rfl
@[simp] theorem xactDone_shutdown : (s.xactDone).shutdown = s.shutdown := rfl
@[simp] theorem xactDone_session : (s.xactDone).session = s.session := rfl
@[simp] theorem xactDone_txbuf : (s.xactDone).txbuf = s.txbuf := rfl
@[simp] theorem xactDone_rxbuf : (s.xactDone).rxbuf = s.rxbuf := rfl
@[simp] theorem xactDone_clock :
    s.xactDone.clock = { s.clock with floor := max s.clock.floor s.clock.afterXact } := rfl
@[simp] theorem xactDone_env : (s.xactDone).env = s.env := rfl
@[simp] theorem xactDone_trace : (s.xactDone).trace = s.trace := rfl

/-! ### setHost -/

@[simp] theorem setHost_params (h : List HostStep) : (s.setHost h).params = s.params := rfl
@[simp] theorem setHost_seq (h : List HostStep) : (s.setHost h).seq = s.seq := rfl
@[simp] theorem setHost_req (h : List HostStep) : (s.setHost h).req = s.req := rfl
@[simp] theorem setHost_term (h : List HostStep) : (s.setHost h).term = s.term := rfl
@[simp] theorem setHost_status (h : List HostStep) : (s.setHost h).status = s.status := rfl
@[simp] theorem setHost_err (h : List HostStep) : (s.setHost h).err = s.err := rfl
@[simp] theorem setHost_errInfo (h : List HostStep) : (s.setHost h).errInfo = s.errInfo := rfl
@[simp] theorem setHost_acc (h : List HostStep) : (s.setHost h).acc = s.acc := rfl
@[simp] theorem setHost_results (h : List HostStep) : (s.setHost h).results = s.results := rfl
@[simp] theorem setHost_poll (h : List HostStep) : (s.setHost h).poll = s.poll := rfl
@[simp] theorem setHost_measuring (h : List HostStep) : (s.setHost h).measuring = s.measuring := rfl
@[simp] theorem setHost_shutdown (h : List HostStep) : (s.setHost h).shutdown = s.shutdown := rfl
@[simp] theorem setHost_session (h : List HostStep) : (s.setHost h).session = s.session := rfl
@[simp] theorem setHost_txbuf (h : List HostStep) : (s.setHost h).txbuf = s.txbuf := rfl
@[simp] theorem setHost_rxbuf (h : List HostStep) : (s.setHost h).rxbuf = s.rxbuf := rfl
@[simp] theorem setHost_clock (h : List HostStep) : (s.setHost h).clock = s.clock := rfl
@[simp] theorem setHost_env (h : List HostStep) : (s.setHost h).env = { s.env with host := h } := rfl
@[simp] theorem setHost_trace (h : List HostStep) : (s.setHost h).trace = s.trace := rfl

/-! ### setTerm -/

@[simp] theorem setTerm_params (v : Nat) : (s.setTerm v).params = s.params := rfl
@[simp] theorem setTerm_seq (v : Nat) : (s.setTerm v).seq = s.seq := rfl
@[simp] theorem setTerm_req (v : Nat) : (s.setTerm v).req = s.req := rfl
@[simp] theorem setTerm_term (v : Nat) : (s.setTerm v).term = v % 2 ^ s.params.clockW := rfl
@[simp] theorem setTerm_status (v : Nat) : (s.setTerm v).status = s.status := rfl
@[simp] theorem setTerm_err (v : Nat) : (s.setTerm v).err = s.err := rfl
@[simp] theorem setTerm_errInfo (v : Nat) : (s.setTerm v).errInfo = s.errInfo := rfl
@[simp] theorem setTerm_acc (v : Nat) : (s.setTerm v).acc = s.acc := rfl
@[simp] theorem setTerm_results (v : Nat) : (s.setTerm v).results = s.results := rfl
@[simp] theorem setTerm_poll (v : Nat) : (s.setTerm v).poll = s.poll := rfl
@[simp] theorem setTerm_measuring (v : Nat) : (s.setTerm v).measuring = s.measuring := rfl
@[simp] theorem setTerm_shutdown (v : Nat) : (s.setTerm v).shutdown = s.shutdown := rfl
@[simp] theorem setTerm_session (v : Nat) : (s.setTerm v).session = s.session := rfl
@[simp] theorem setTerm_txbuf (v : Nat) : (s.setTerm v).txbuf = s.txbuf := rfl
@[simp] theorem setTerm_rxbuf (v : Nat) : (s.setTerm v).rxbuf = s.rxbuf := rfl
@[simp] theorem setTerm_clock (v : Nat) : (s.setTerm v).clock = s.clock := rfl
@[simp] theorem setTerm_env (v : Nat) : (s.setTerm v).env = s.env := rfl
@[simp] theorem setTerm_trace (v : Nat) : (s.setTerm v).trace = s.trace := rfl

/-! ### accept -/

@[simp] theorem accept_params (r : BitVec 32) : (accept r s).params = s.params := rfl
@[simp] theorem accept_seq (r : BitVec 32) : (accept r s).seq = { curOp := some (reqOp r), phase := .idle } := rfl
@[simp] theorem accept_req (r : BitVec 32) : (accept r s).req = r := rfl
@[simp] theorem accept_term (r : BitVec 32) : (accept r s).term = s.term := rfl
@[simp] theorem accept_status (r : BitVec 32) :
    (accept r s).status = { s.status with busy := true, done := false, rvalid := false } := rfl
@[simp] theorem accept_err (r : BitVec 32) : (accept r s).err = ErrReg.zero := rfl
@[simp] theorem accept_errInfo (r : BitVec 32) : (accept r s).errInfo = 0 := rfl
@[simp] theorem accept_acc (r : BitVec 32) : (accept r s).acc = s.acc := rfl
@[simp] theorem accept_results (r : BitVec 32) : (accept r s).results = s.results := rfl
@[simp] theorem accept_poll (r : BitVec 32) : (accept r s).poll = s.poll := rfl
@[simp] theorem accept_measuring (r : BitVec 32) : (accept r s).measuring = s.measuring := rfl
@[simp] theorem accept_shutdown (r : BitVec 32) : (accept r s).shutdown = s.shutdown := rfl
@[simp] theorem accept_session (r : BitVec 32) : (accept r s).session = s.session := rfl
@[simp] theorem accept_txbuf (r : BitVec 32) : (accept r s).txbuf = s.txbuf := rfl
@[simp] theorem accept_rxbuf (r : BitVec 32) : (accept r s).rxbuf = s.rxbuf := rfl
@[simp] theorem accept_clock (r : BitVec 32) : (accept r s).clock = s.clock := rfl
@[simp] theorem accept_env (r : BitVec 32) : (accept r s).env = s.env := rfl
@[simp] theorem accept_trace (r : BitVec 32) : (accept r s).trace = s.trace := rfl

/-! ### endWithError -/

@[simp] theorem endWithError_params (e : Err) (c : BitVec 4) (k : ErrKind) :
    (endWithError e c k s).params = s.params := rfl
@[simp] theorem endWithError_seq (e : Err) (c : BitVec 4) (k : ErrKind) :
    (endWithError e c k s).seq = { curOp := none, phase := .idle } := rfl
@[simp] theorem endWithError_req (e : Err) (c : BitVec 4) (k : ErrKind) : (endWithError e c k s).req = s.req := rfl
@[simp] theorem endWithError_term (e : Err) (c : BitVec 4) (k : ErrKind) : (endWithError e c k s).term = s.term := rfl
@[simp] theorem endWithError_status (e : Err) (c : BitVec 4) (k : ErrKind) :
    (endWithError e c k s).status = { s.status with busy := false, done := true, rvalid := false } := rfl
@[simp] theorem endWithError_err (e : Err) (c : BitVec 4) (k : ErrKind) :
    (endWithError e c k s).err = { kind := e.kind, op := e.op, ctx := c, group := e.group, kind2 := k } := rfl
@[simp] theorem endWithError_errInfo (e : Err) (c : BitVec 4) (k : ErrKind) :
    (endWithError e c k s).errInfo = e.info := rfl
@[simp] theorem endWithError_acc (e : Err) (c : BitVec 4) (k : ErrKind) : (endWithError e c k s).acc = s.acc := rfl
@[simp] theorem endWithError_results (e : Err) (c : BitVec 4) (k : ErrKind) :
    (endWithError e c k s).results = s.results := rfl
@[simp] theorem endWithError_poll (e : Err) (c : BitVec 4) (k : ErrKind) : (endWithError e c k s).poll = s.poll := rfl
@[simp] theorem endWithError_measuring (e : Err) (c : BitVec 4) (k : ErrKind) :
    (endWithError e c k s).measuring = s.measuring := rfl
@[simp] theorem endWithError_shutdown (e : Err) (c : BitVec 4) (k : ErrKind) :
    (endWithError e c k s).shutdown = s.shutdown := rfl
@[simp] theorem endWithError_session (e : Err) (c : BitVec 4) (k : ErrKind) :
    (endWithError e c k s).session = s.session := rfl
@[simp] theorem endWithError_txbuf (e : Err) (c : BitVec 4) (k : ErrKind) :
    (endWithError e c k s).txbuf = s.txbuf := rfl
@[simp] theorem endWithError_rxbuf (e : Err) (c : BitVec 4) (k : ErrKind) :
    (endWithError e c k s).rxbuf = s.rxbuf := rfl
@[simp] theorem endWithError_clock (e : Err) (c : BitVec 4) (k : ErrKind) :
    (endWithError e c k s).clock = s.clock := rfl
@[simp] theorem endWithError_env (e : Err) (c : BitVec 4) (k : ErrKind) : (endWithError e c k s).env = s.env := rfl
@[simp] theorem endWithError_trace (e : Err) (c : BitVec 4) (k : ErrKind) :
    (endWithError e c k s).trace = s.trace := rfl

/-! ### complete -/

@[simp] theorem complete_params : (complete s).params = s.params := rfl
@[simp] theorem complete_seq : (complete s).seq = { curOp := none, phase := .idle } := rfl
@[simp] theorem complete_req : (complete s).req = s.req := rfl
@[simp] theorem complete_term : (complete s).term = s.term := rfl
@[simp] theorem complete_status : (complete s).status = { s.status with busy := false, done := true } := rfl
@[simp] theorem complete_err : (complete s).err = s.err := rfl
@[simp] theorem complete_errInfo : (complete s).errInfo = s.errInfo := rfl
@[simp] theorem complete_acc : (complete s).acc = s.acc := rfl
@[simp] theorem complete_results : (complete s).results = s.results := rfl
@[simp] theorem complete_poll : (complete s).poll = s.poll := rfl
@[simp] theorem complete_measuring : (complete s).measuring = s.measuring := rfl
@[simp] theorem complete_shutdown : (complete s).shutdown = s.shutdown := rfl
@[simp] theorem complete_session : (complete s).session = s.session := rfl
@[simp] theorem complete_txbuf : (complete s).txbuf = s.txbuf := rfl
@[simp] theorem complete_rxbuf : (complete s).rxbuf = s.rxbuf := rfl
@[simp] theorem complete_clock : (complete s).clock = s.clock := rfl
@[simp] theorem complete_env : (complete s).env = s.env := rfl
@[simp] theorem complete_trace : (complete s).trace = s.trace := rfl

/-! ### emit -/

@[simp] theorem emit_params (r : Reading) : (emit r s).params = s.params := rfl
@[simp] theorem emit_seq (r : Reading) : (emit r s).seq = s.seq := rfl
@[simp] theorem emit_req (r : Reading) : (emit r s).req = s.req := rfl
@[simp] theorem emit_term (r : Reading) : (emit r s).term = s.term := rfl
@[simp] theorem emit_status (r : Reading) : (emit r s).status = s.status := rfl
@[simp] theorem emit_err (r : Reading) : (emit r s).err = s.err := rfl
@[simp] theorem emit_errInfo (r : Reading) : (emit r s).errInfo = s.errInfo := rfl
@[simp] theorem emit_acc (r : Reading) : (emit r s).acc = s.acc := rfl
@[simp] theorem emit_results (r : Reading) : (emit r s).results = s.results := rfl
@[simp] theorem emit_poll (r : Reading) : (emit r s).poll = s.poll := rfl
@[simp] theorem emit_measuring (r : Reading) : (emit r s).measuring = s.measuring := rfl
@[simp] theorem emit_shutdown (r : Reading) : (emit r s).shutdown = s.shutdown := rfl
@[simp] theorem emit_session (r : Reading) : (emit r s).session = s.session := rfl
@[simp] theorem emit_txbuf (r : Reading) : (emit r s).txbuf = s.txbuf := rfl
@[simp] theorem emit_rxbuf (r : Reading) : (emit r s).rxbuf = s.rxbuf := rfl
@[simp] theorem emit_clock (r : Reading) : (emit r s).clock = s.clock := rfl
@[simp] theorem emit_env (r : Reading) : (emit r s).env = s.env := rfl
@[simp] theorem emit_trace (r : Reading) : (emit r s).trace = .emit r :: s.trace := rfl

/-! ### goto -/

@[simp] theorem goto_params (l : Phase) : (goto l s).params = s.params := rfl
@[simp] theorem goto_seq (l : Phase) : (goto l s).seq = { s.seq with phase := l } := rfl
@[simp] theorem goto_req (l : Phase) : (goto l s).req = s.req := rfl
@[simp] theorem goto_term (l : Phase) : (goto l s).term = s.term := rfl
@[simp] theorem goto_status (l : Phase) : (goto l s).status = s.status := rfl
@[simp] theorem goto_err (l : Phase) : (goto l s).err = s.err := rfl
@[simp] theorem goto_errInfo (l : Phase) : (goto l s).errInfo = s.errInfo := rfl
@[simp] theorem goto_acc (l : Phase) : (goto l s).acc = s.acc := rfl
@[simp] theorem goto_results (l : Phase) : (goto l s).results = s.results := rfl
@[simp] theorem goto_poll (l : Phase) : (goto l s).poll = s.poll := rfl
@[simp] theorem goto_measuring (l : Phase) : (goto l s).measuring = s.measuring := rfl
@[simp] theorem goto_shutdown (l : Phase) : (goto l s).shutdown = s.shutdown := rfl
@[simp] theorem goto_session (l : Phase) : (goto l s).session = s.session := rfl
@[simp] theorem goto_txbuf (l : Phase) : (goto l s).txbuf = s.txbuf := rfl
@[simp] theorem goto_rxbuf (l : Phase) : (goto l s).rxbuf = s.rxbuf := rfl
@[simp] theorem goto_clock (l : Phase) : (goto l s).clock = s.clock := rfl
@[simp] theorem goto_env (l : Phase) : (goto l s).env = s.env := rfl
@[simp] theorem goto_trace (l : Phase) : (goto l s).trace = .goto l :: s.trace := rfl

/-! ### pollEntry -/

@[simp] theorem pollEntry_params : (pollEntry s).params = s.params := rfl
@[simp] theorem pollEntry_seq : (pollEntry s).seq = s.seq := rfl
@[simp] theorem pollEntry_req : (pollEntry s).req = s.req := rfl
@[simp] theorem pollEntry_term : (pollEntry s).term = s.term := rfl
@[simp] theorem pollEntry_status : (pollEntry s).status = s.status := rfl
@[simp] theorem pollEntry_err : (pollEntry s).err = s.err := rfl
@[simp] theorem pollEntry_errInfo : (pollEntry s).errInfo = s.errInfo := rfl
@[simp] theorem pollEntry_acc : (pollEntry s).acc = s.acc := rfl
@[simp] theorem pollEntry_results : (pollEntry s).results = s.results := rfl
@[simp] theorem pollEntry_poll : (pollEntry s).poll = { pstate := .polling, attempt := 0 } := rfl
@[simp] theorem pollEntry_measuring : (pollEntry s).measuring = s.measuring := rfl
@[simp] theorem pollEntry_shutdown : (pollEntry s).shutdown = s.shutdown := rfl
@[simp] theorem pollEntry_session : (pollEntry s).session = s.session := rfl
@[simp] theorem pollEntry_txbuf : (pollEntry s).txbuf = s.txbuf := rfl
@[simp] theorem pollEntry_rxbuf : (pollEntry s).rxbuf = s.rxbuf := rfl
@[simp] theorem pollEntry_clock : (pollEntry s).clock = s.clock := rfl
@[simp] theorem pollEntry_env : (pollEntry s).env = s.env := rfl
@[simp] theorem pollEntry_trace : (pollEntry s).trace = s.trace := rfl

/-! ### nextAttempt -/

@[simp] theorem nextAttempt_params : (nextAttempt s).params = s.params := rfl
@[simp] theorem nextAttempt_seq : (nextAttempt s).seq = { s.seq with phase := .pAttempt } := rfl
@[simp] theorem nextAttempt_req : (nextAttempt s).req = s.req := rfl
@[simp] theorem nextAttempt_term : (nextAttempt s).term = s.term := rfl
@[simp] theorem nextAttempt_status : (nextAttempt s).status = s.status := rfl
@[simp] theorem nextAttempt_err : (nextAttempt s).err = s.err := rfl
@[simp] theorem nextAttempt_errInfo : (nextAttempt s).errInfo = s.errInfo := rfl
@[simp] theorem nextAttempt_acc : (nextAttempt s).acc = s.acc := rfl
@[simp] theorem nextAttempt_results : (nextAttempt s).results = s.results := rfl
@[simp] theorem nextAttempt_poll : (nextAttempt s).poll = { s.poll with attempt := s.poll.attempt + 1 } := rfl
@[simp] theorem nextAttempt_measuring : (nextAttempt s).measuring = s.measuring := rfl
@[simp] theorem nextAttempt_shutdown : (nextAttempt s).shutdown = s.shutdown := rfl
@[simp] theorem nextAttempt_session : (nextAttempt s).session = s.session := rfl
@[simp] theorem nextAttempt_txbuf : (nextAttempt s).txbuf = s.txbuf := rfl
@[simp] theorem nextAttempt_rxbuf : (nextAttempt s).rxbuf = s.rxbuf := rfl
@[simp] theorem nextAttempt_clock : (nextAttempt s).clock = s.clock := rfl
@[simp] theorem nextAttempt_env : (nextAttempt s).env = s.env := rfl
@[simp] theorem nextAttempt_trace : (nextAttempt s).trace = s.trace := rfl

/-! ### sessionEntry -/

@[simp] theorem sessionEntry_params (o : Bool) : (sessionEntry o s).params = s.params := rfl
@[simp] theorem sessionEntry_seq (o : Bool) : (sessionEntry o s).seq = { s.seq with phase := .sEntry } := rfl
@[simp] theorem sessionEntry_req (o : Bool) : (sessionEntry o s).req = s.req := rfl
@[simp] theorem sessionEntry_term (o : Bool) : (sessionEntry o s).term = s.term := rfl
@[simp] theorem sessionEntry_status (o : Bool) : (sessionEntry o s).status = s.status := rfl
@[simp] theorem sessionEntry_err (o : Bool) : (sessionEntry o s).err = s.err := rfl
@[simp] theorem sessionEntry_errInfo (o : Bool) : (sessionEntry o s).errInfo = s.errInfo := rfl
@[simp] theorem sessionEntry_acc (o : Bool) : (sessionEntry o s).acc = s.acc := rfl
@[simp] theorem sessionEntry_results (o : Bool) : (sessionEntry o s).results = s.results := rfl
@[simp] theorem sessionEntry_poll (o : Bool) : (sessionEntry o s).poll = s.poll := rfl
@[simp] theorem sessionEntry_measuring (o : Bool) : (sessionEntry o s).measuring = true := rfl
@[simp] theorem sessionEntry_shutdown (o : Bool) : (sessionEntry o s).shutdown = s.shutdown := rfl
@[simp] theorem sessionEntry_session (o : Bool) :
    (sessionEntry o s).session = { s.session with onlyLast := o, term := s.term, lastValid := false, perr := Err.absent, perr2 := .none } := rfl
@[simp] theorem sessionEntry_txbuf (o : Bool) : (sessionEntry o s).txbuf = s.txbuf := rfl
@[simp] theorem sessionEntry_rxbuf (o : Bool) : (sessionEntry o s).rxbuf = s.rxbuf := rfl
@[simp] theorem sessionEntry_clock (o : Bool) : (sessionEntry o s).clock = s.clock := rfl
@[simp] theorem sessionEntry_env (o : Bool) : (sessionEntry o s).env = s.env := rfl
@[simp] theorem sessionEntry_trace (o : Bool) : (sessionEntry o s).trace = s.trace := rfl

/-- Both buffers are in canonical form after reset (10_state.md R33). -/
theorem reset_buffers_wf : Memory.wf State.reset.txbuf = true ∧ Memory.wf State.reset.rxbuf = true := ⟨rfl, rfl⟩

end Sys2Proof.Machine
end

