-- ==== Sys2Proof/Laws/Ops.lean ====
section
/-! SUPPORT. What each shared operation can do, said once: the observer, the delay, the draws, the transport port, `Xact`
and `CheckGroup`. -/

namespace Sys2Proof.Machine

/-! ### Results of rules -/

/-- A property of the state a rule leaves, however it ends. -/
def Res.leaves {α : Type} (r : Res α) (P : State → Prop) : Prop :=
  match r with
  | .ok _ s => P s
  | .raised _ s => P s
  | .silent s => P s
  | .fault _ => True

@[simp] theorem Res.andThen_ok {α β : Type} (a : α) (s : State) (k : α → State → Res β) :
    (Res.ok a s).andThen k = k a s := rfl

@[simp] theorem Res.andThen_raised {α β : Type} (e : Err) (s : State) (k : α → State → Res β) :
    (Res.raised e s).andThen k = .raised e s := rfl

@[simp] theorem Res.andThen_raise {α β : Type} (e : Err) (s : State) (k : α → State → Res β) :
    (raise e s : Res α).andThen k = raise e s := rfl

@[simp] theorem Res.andThen_silent {α β : Type} (s : State) (k : α → State → Res β) :
    (Res.silent s).andThen k = .silent s := rfl

@[simp] theorem Res.andThen_fault {α β : Type} (f : Fault) (k : α → State → Res β) :
    (Res.fault f).andThen k = .fault f := rfl

/-- What the first lines leave and the next lines keep, both together leave. -/
theorem Res.leaves_andThen {α β : Type} {r : Res α} {k : α → State → Res β} {P Q : State → Prop}
    (hr : r.leaves P) (hP : ∀ s, P s → Q s) (hk : ∀ a s, r = .ok a s → P s → (k a s).leaves Q) :
    (r.andThen k).leaves Q := by
  cases r with
  | ok a s => exact hk a s rfl hr
  | raised e s => exact hP s hr
  | silent s => exact hP s hr
  | fault f => trivial

theorem Res.leaves_mono {α : Type} {r : Res α} {P Q : State → Prop} (hr : r.leaves P) (h : ∀ s, P s → Q s) :
    r.leaves Q := by
  cases r with
  | ok a s => exact h s hr
  | raised e s => exact h s hr
  | silent s => exact h s hr
  | fault f => trivial

/-! ### SameRegs -/

theorem SameRegs.refl (s : State) : SameRegs s s :=
  ⟨rfl, rfl, rfl, rfl, rfl, rfl, rfl, rfl, rfl, rfl, rfl, rfl, rfl, id, [], rfl⟩

theorem SameRegs.trans {s t u : State} (h : SameRegs s t) (k : SameRegs t u) : SameRegs s u := by
  obtain ⟨e1, h1⟩ := h.trace
  obtain ⟨e2, h2⟩ := k.trace
  exact ⟨k.params.trans h.params, k.curOp.trans h.curOp, k.req.trans h.req, k.term.trans h.term,
    k.status.trans h.status, k.err.trans h.err, k.errInfo.trans h.errInfo, k.acc.trans h.acc,
    k.results.trans h.results, k.poll.trans h.poll, k.measuring.trans h.measuring, k.session.trans h.session,
    k.host.trans h.host, fun x => k.shutdown (h.shutdown x), e2 ++ e1, by rw [h2, h1, List.append_assoc]⟩

theorem sameRegs_setPhase (s : State) (p : Phase) : SameRegs s (s.setPhase p) :=
  ⟨rfl, rfl, rfl, rfl, rfl, rfl, rfl, rfl, rfl, rfl, rfl, rfl, rfl, id, [], rfl⟩

theorem sameRegs_log (s : State) (e : Event) : SameRegs s (s.log e) :=
  ⟨rfl, rfl, rfl, rfl, rfl, rfl, rfl, rfl, rfl, rfl, rfl, rfl, rfl, id, [e], rfl⟩

theorem sameRegs_loadTx (s : State) (f : List Byte) : SameRegs s (s.loadTx f) :=
  ⟨rfl, rfl, rfl, rfl, rfl, rfl, rfl, rfl, rfl, rfl, rfl, rfl, rfl, id, [], rfl⟩

theorem sameRegs_storeRx (s : State) (b : List Byte) : SameRegs s (s.storeRx b) :=
  ⟨rfl, rfl, rfl, rfl, rfl, rfl, rfl, rfl, rfl, rfl, rfl, rfl, rfl, id, [], rfl⟩

theorem sameRegs_setSilent (s : State) : SameRegs s s.setSilent :=
  ⟨rfl, rfl, rfl, rfl, rfl, rfl, rfl, rfl, rfl, rfl, rfl, rfl, rfl, id, [], rfl⟩

theorem sameRegs_advance (s : State) (d : Nat) : SameRegs s (s.advance d) :=
  ⟨rfl, rfl, rfl, rfl, rfl, rfl, rfl, rfl, rfl, rfl, rfl, rfl, rfl, id, [], rfl⟩

theorem sameRegs_xactDone (s : State) : SameRegs s s.xactDone :=
  ⟨rfl, rfl, rfl, rfl, rfl, rfl, rfl, rfl, rfl, rfl, rfl, rfl, rfl, id, [], rfl⟩

/-! ### The observer -/

/-- Everything a move of the observer can do: nothing, set SHUTDOWN and wait, see MEASURING = 1, or pass. -/
theorem observerMove_cases (m : ObserverMove) (s : State) :
    observerMove m s = s ∨
    (s.env.observer = .resting ∧ observerMove m s =
      { s with shutdown := true, env := { s.env with observer := .waiting }, trace := .shutdownSet :: s.trace }) ∨
    (s.env.observer = .waiting ∧ s.measuring = true ∧ observerMove m s = s.log (.observerSaw true)) ∨
    (s.env.observer = .waiting ∧ s.measuring = false ∧ observerMove m s =
      { s with env := { s.env with observer := .passed }, trace := .observerSaw false :: s.trace }) := by
  cases m <;> cases h : s.env.observer <;> simp only [observerMove, h]
  all_goals first
    | exact .inl trivial
    | exact .inr (.inl ⟨trivial, rfl⟩)
    | (cases hm : s.measuring
       · exact .inr (.inr (.inr ⟨trivial, rfl, by simp [State.log]⟩))
       · exact .inr (.inr (.inl ⟨trivial, rfl, by simp [State.log]⟩)))

/-! ### Still -/

theorem Still.of_eq {s t : State} (hd : t.env.during = s.env.during) (hs : t.shutdown = s.shutdown) : Still s t :=
  fun h => ⟨hd.trans h, hs⟩

theorem Still.trans {s t u : State} (h : Still s t) (k : Still t u) : Still s u := fun x =>
  ⟨(k (h x).1).1, (k (h x).1).2.trans (h x).2⟩

/-- With no move listed the observer does nothing. -/
theorem observerTurn_still (s : State) : Still s (observerTurn s) := by
  intro h
  unfold observerTurn
  rw [h]
  exact ⟨h, rfl⟩

/-! ### The observer's turns -/

/-- Between `s` and `t` the observer has `j` turns, and nothing else moves it: what it does to SHUTDOWN in later turns, it
does there too. -/
def Turns (j : Nat) (s t : State) : Prop := ∀ n, ShutdownWithin (n + j) s ↔ ShutdownWithin n t

theorem Turns.of_eq {s t : State} (hs : t.shutdown = s.shutdown) (ho : t.env.observer = s.env.observer)
    (hd : t.env.during = s.env.during) : Turns 0 s t := by
  intro n
  rw [ShutdownWithin, ShutdownWithin, hs, ho, hd, Nat.add_zero]

theorem Turns.trans {j k : Nat} {s t u : State} (h : Turns j s t) (g : Turns k t u) : Turns (j + k) s u := fun n => by
  rw [← g, ← h, Nat.add_assoc, Nat.add_comm j]

/-- Whether SHUTDOWN is set by the end of these turns. -/
theorem Turns.shutdown {j : Nat} {s t : State} (h : Turns j s t) : ShutdownWithin j s ↔ t.shutdown = true := by
  have := h 0
  rw [Nat.zero_add] at this
  rw [this]
  simp [ShutdownWithin]

/-- SHUTDOWN and the observer's place after some moves. -/
theorem observerMoves_shutdown (ms : List ObserverMove) : ∀ s : State,
    (observerMoves ms s).env.during = s.env.during ∧
    ((observerMoves ms s).shutdown = true ↔
      s.shutdown = true ∨ (s.env.observer = .resting ∧ ObserverMove.setShutdown ∈ ms)) ∧
    ((observerMoves ms s).env.observer = .resting ↔
      s.env.observer = .resting ∧ ObserverMove.setShutdown ∉ ms) := by
  induction ms with
  | nil => intro s; simp [observerMoves]
  | cons m ms ih =>
    intro s
    obtain ⟨h1, h2, h3⟩ := ih (observerMove m s)
    rw [observerMoves, h1, h2, h3]
    cases m <;> cases ho : s.env.observer <;> cases hm : s.measuring <;> simp [observerMove, ho, hm, State.log]

/-- A turn of the observer is one of its turns. -/
theorem turns_observerTurn (s : State) : Turns 1 s (observerTurn s) := by
  intro n
  unfold observerTurn
  cases hd : s.env.during with
  | nil => simp [ShutdownWithin, hd]
  | cons ms rest =>
    obtain ⟨h1, h2, h3⟩ := observerMoves_shutdown ms { s with env := { s.env with during := rest } }
    simp only [ShutdownWithin, hd, h1, h2, h3, List.take_succ_cons, List.mem_cons, exists_eq_or_imp]
    by_cases hm : ObserverMove.setShutdown ∈ ms <;> simp [hm]

/-- What the observer leaves alone: everything but SHUTDOWN, its own place, its script and the events. No event of its
is a transport call, a delay, a sample or an emission. -/
structure ObserverOnly (s t : State) : Prop where
  same : SameRegs s t
  seq : t.seq = s.seq
  txbuf : t.txbuf = s.txbuf
  rxbuf : t.rxbuf = s.rxbuf
  clock : t.clock = s.clock
  silent : t.env.silent = s.env.silent
  writes : t.env.writes = s.env.writes
  reads : t.env.reads = s.env.reads
  waits : t.env.waits = s.env.waits
  draws : t.env.draws = s.env.draws
  events : ∃ evs, t.trace = evs ++ s.trace ∧ ∀ e ∈ evs, e = .shutdownSet ∨ ∃ b, e = .observerSaw b
  waiting : s.measuring = true → s.env.observer ≠ .passed → t.env.observer ≠ .passed
  asked : (s.env.observer ≠ .resting → s.shutdown = true) → t.env.observer ≠ .resting → t.shutdown = true

theorem ObserverOnly.refl (s : State) : ObserverOnly s s :=
  ⟨.refl s, rfl, rfl, rfl, rfl, rfl, rfl, rfl, rfl, rfl, ⟨[], rfl, by simp⟩, fun _ h => h, fun h => h⟩

theorem ObserverOnly.trans {s t u : State} (h : ObserverOnly s t) (k : ObserverOnly t u) : ObserverOnly s u := by
  obtain ⟨e1, h1, p1⟩ := h.events
  obtain ⟨e2, h2, p2⟩ := k.events
  refine ⟨h.same.trans k.same, k.seq.trans h.seq, k.txbuf.trans h.txbuf, k.rxbuf.trans h.rxbuf,
    k.clock.trans h.clock, k.silent.trans h.silent, k.writes.trans h.writes, k.reads.trans h.reads,
    k.waits.trans h.waits, k.draws.trans h.draws,
    ⟨e2 ++ e1, by rw [h2, h1, List.append_assoc], ?_⟩, ?_, fun a => k.asked (h.asked a)⟩
  · intro e he
    rcases List.mem_append.1 he with he | he
    · exact p2 e he
    · exact p1 e he
  · intro hm ho
    exact k.waiting (by rw [h.same.measuring]; exact hm) (h.waiting hm ho)

theorem observerMove_only (m : ObserverMove) (s : State) : ObserverOnly s (observerMove m s) := by
  rcases observerMove_cases m s with h | ⟨ho, h⟩ | ⟨ho, hm, h⟩ | ⟨ho, hm, h⟩ <;> rw [h]
  · exact .refl s
  · exact ⟨⟨rfl, rfl, rfl, rfl, rfl, rfl, rfl, rfl, rfl, rfl, rfl, rfl, rfl, fun _ => rfl, [.shutdownSet], rfl⟩,
      rfl, rfl, rfl, rfl, rfl, rfl, rfl, rfl, rfl, ⟨[.shutdownSet], rfl, by simp⟩, by simp, by simp⟩
  · exact ⟨sameRegs_log s _, rfl, rfl, rfl, rfl, rfl, rfl, rfl, rfl, rfl, ⟨[.observerSaw true], rfl, by simp⟩,
      fun _ h => h, fun h => h⟩
  · refine ⟨⟨rfl, rfl, rfl, rfl, rfl, rfl, rfl, rfl, rfl, rfl, rfl, rfl, rfl, id, [.observerSaw false], rfl⟩,
      rfl, rfl, rfl, rfl, rfl, rfl, rfl, rfl, rfl, ⟨[.observerSaw false], rfl, by simp⟩, ?_, ?_⟩
    · intro h'
      rw [hm] at h'
      cases h'
    · intro h' _
      exact h' (by rw [ho]; decide)

theorem observerMoves_only (ms : List ObserverMove) : ∀ s, ObserverOnly s (observerMoves ms s) := by
  induction ms with
  | nil => exact fun s => .refl s
  | cons m ms ih => exact fun s => (observerMove_only m s).trans (ih _)

theorem observerTurn_only (s : State) : ObserverOnly s (observerTurn s) := by
  unfold observerTurn
  split
  · exact .refl s
  · refine ObserverOnly.trans ?_ (observerMoves_only _ _)
    exact ⟨⟨rfl, rfl, rfl, rfl, rfl, rfl, rfl, rfl, rfl, rfl, rfl, rfl, rfl, id, [], rfl⟩,
      rfl, rfl, rfl, rfl, rfl, rfl, rfl, rfl, rfl, ⟨[], rfl, by simp⟩, fun _ h => h, fun h => h⟩

/-! ### Events of the observer change no count -/

theorem framesOf_append (a b : List Event) : framesOf (a ++ b) = framesOf a ++ framesOf b :=
  List.filterMap_append

theorem samplesOf_append (a b : List Event) : samplesOf (a ++ b) = samplesOf a ++ samplesOf b :=
  List.filterMap_append

theorem readingsOf_append (a b : List Event) : readingsOf (a ++ b) = readingsOf a ++ readingsOf b :=
  List.filterMap_append

/-- The counts of two traces that differ by events of the observer alone. -/
structure SameCounts (a b : List Event) : Prop where
  frames : framesOf b = framesOf a
  readings : readingsOf b = readingsOf a
  delays : pollDelays b = pollDelays a
  samples : samplesOf b = samplesOf a

theorem ObserverOnly.counts {s t : State} (h : ObserverOnly s t) : SameCounts s.trace t.trace := by
  obtain ⟨evs, ht, hp⟩ := h.events
  rw [ht]
  clear ht
  induction evs with
  | nil => exact ⟨rfl, rfl, rfl, rfl⟩
  | cons e evs ih =>
    have ih := ih (fun e he => hp e (List.mem_cons_of_mem _ he))
    rcases hp e (by simp) with rfl | ⟨b, rfl⟩ <;>
      exact ⟨ih.frames, ih.readings, by
        have := ih.delays
        simpa [pollDelays, List.countP_cons, Event.isPollDelay] using this, ih.samples⟩

/-! ### The delay -/

/-- What a delay leaves alone, and what it does: the clock goes on by its length. -/
theorem delay_spec (why : Wait) (s : State) :
    ∃ u, ObserverOnly (s.log (.delay why (waitTicks why s.params))) u ∧
      delay why s = u.advance (waitTicks why s.params) :=
  ⟨_, observerTurn_only _, rfl⟩

theorem delay_same (why : Wait) (s : State) : SameRegs s (delay why s) := by
  obtain ⟨u, hu, h⟩ := delay_spec why s
  rw [h]
  exact ((sameRegs_log s _).trans hu.same).trans (sameRegs_advance u _)

/-- A delay gives the observer one turn. -/
theorem turns_delay (why : Wait) (s : State) : Turns 1 s (delay why s) :=
  (Turns.of_eq (t := s.log (.delay why (waitTicks why s.params))) rfl rfl rfl).trans (turns_observerTurn _)

/-! ### Draws -/

/-- A draw takes the head of the listed answers, or counts one more free value, and changes nothing else. -/
theorem drawWrite_next (n : Nat) (s : State) :
    ∃ k, (drawWrite n s).2 = { s with env := { s.env with writes := s.env.writes.tail, draws := k } } := by
  unfold drawWrite
  split
  · rename_i a ws h
    exact ⟨s.env.draws, by rw [h]; rfl⟩
  · rename_i h
    exact ⟨s.env.draws + 1, by simp [h]⟩

theorem drawRead_next (n : Nat) (s : State) :
    ∃ k, (drawRead n s).2 = { s with env := { s.env with reads := s.env.reads.tail, draws := k } } := by
  unfold drawRead
  split
  · rename_i a ws h
    exact ⟨s.env.draws, by rw [h]; rfl⟩
  · rename_i h
    exact ⟨s.env.draws + 1, by simp [h]⟩

theorem drawWait_next (s : State) :
    ∃ k, (drawWait s).2 = { s with env := { s.env with waits := s.env.waits.tail, draws := k } } := by
  unfold drawWait
  split
  · rename_i a ws h
    exact ⟨s.env.draws, by rw [h]; rfl⟩
  · rename_i h
    exact ⟨s.env.draws + 1, by simp [h]⟩

/-- A drawn write answer keeps R40's law (a). -/
theorem drawWrite_lawful {n k : Nat} {s : State} (h : (drawWrite n s).1 = .ok k) : k ≤ n := by
  unfold drawWrite at h
  split at h <;> (unfold WriteAnswer.lawful at h; split at h <;> simp at h <;> omega)

/-- A drawn read answer keeps R40's law (b). -/
theorem drawRead_lawful {n : Nat} {b : List Byte} {s : State} (h : (drawRead n s).1 = .ok b) : b.length ≤ n := by
  unfold drawRead at h
  split at h <;> (unfold ReadAnswer.lawful at h; split at h <;> simp at h <;> (rw [← h, List.length_take]; exact Nat.min_le_left _ _))

/-- A listed answer is the one drawn, under R40's law (a). -/
theorem drawWrite_listed {s : State} {a : WriteAnswer} (n : Nat) (h : s.env.writes.head? = some a) :
    drawWrite n s = (WriteAnswer.lawful n a, { s with env := { s.env with writes := s.env.writes.tail } }) := by
  unfold drawWrite
  cases hw : s.env.writes with
  | nil => simp [hw] at h
  | cons b ws =>
    simp only [hw, List.head?_cons, Option.some.injEq] at h
    simp [h]

/-- A listed answer is the one drawn, under R40's law (b). -/
theorem drawRead_listed {s : State} {r : ReadAnswer} (n : Nat) (h : s.env.reads.head? = some r) :
    drawRead n s = (ReadAnswer.lawful n r, { s with env := { s.env with reads := s.env.reads.tail } }) := by
  unfold drawRead
  cases hw : s.env.reads with
  | nil => simp [hw] at h
  | cons b ws =>
    simp only [hw, List.head?_cons, Option.some.injEq] at h
    simp [h]

/-! ### Quiet progress -/

/-- The clock of `d` is no earlier than that of `c`, in its time and in the samples that it admits. -/
structure Clock.Le (c d : Clock) : Prop where
  time : c.time ≤ d.time
  floor : c.floor ≤ d.floor

theorem Clock.Le.refl (c : Clock) : c.Le c := ⟨Nat.le_refl _, Nat.le_refl _⟩

theorem Clock.Le.of_eq {c d : Clock} (h : d = c) : c.Le d := h ▸ .refl c

theorem Clock.Le.trans {c d e : Clock} (h : c.Le d) (k : d.Le e) : c.Le e :=
  ⟨Nat.le_trans h.time k.time, Nat.le_trans h.floor k.floor⟩

/-- Progress that sends no frame, emits nothing, makes no poll delay and takes no clock sample: what `t` still has of
`s`. -/
structure Quiet (s t : State) : Prop where
  same : SameRegs s t
  txbuf : t.txbuf = s.txbuf
  frames : framesOf t.trace = framesOf s.trace
  readings : readingsOf t.trace = readingsOf s.trace
  delays : pollDelays t.trace = pollDelays s.trace
  lawful : s.trace.all Event.lawful = true → t.trace.all Event.lawful = true
  waits : t.env.waits = s.env.waits
  writes : t.env.writes = s.env.writes
  afterXact : t.clock.afterXact = s.clock.afterXact
  later : s.clock.Le t.clock
  waiting : s.measuring = true → s.env.observer ≠ .passed → t.env.observer ≠ .passed
  asked : (s.env.observer ≠ .resting → s.shutdown = true) → t.env.observer ≠ .resting → t.shutdown = true
  still : Still s t
  samples : samplesOf t.trace = samplesOf s.trace

theorem Quiet.refl (s : State) : Quiet s s :=
  ⟨.refl s, rfl, rfl, rfl, rfl, id, rfl, rfl, rfl, .refl _, fun _ h => h, fun h => h, .of_eq rfl rfl, rfl⟩

theorem Quiet.trans {s t u : State} (h : Quiet s t) (k : Quiet t u) : Quiet s u :=
  ⟨h.same.trans k.same, k.txbuf.trans h.txbuf, k.frames.trans h.frames, k.readings.trans h.readings,
    k.delays.trans h.delays, fun x => k.lawful (h.lawful x), k.waits.trans h.waits, k.writes.trans h.writes,
    k.afterXact.trans h.afterXact, h.later.trans k.later,
    fun m o => k.waiting (by rw [h.same.measuring]; exact m) (h.waiting m o), fun a => k.asked (h.asked a),
    h.still.trans k.still, k.samples.trans h.samples⟩

theorem quiet_setPhase (s : State) (p : Phase) : Quiet s (s.setPhase p) :=
  ⟨sameRegs_setPhase s p, rfl, rfl, rfl, rfl, id, rfl, rfl, rfl, .refl _, fun _ h => h, fun h => h, .of_eq rfl rfl, rfl⟩

theorem quiet_storeRx (s : State) (b : List Byte) : Quiet s (s.storeRx b) :=
  ⟨sameRegs_storeRx s b, rfl, rfl, rfl, rfl, id, rfl, rfl, rfl, .refl _, fun _ h => h, fun h => h, .of_eq rfl rfl, rfl⟩

theorem quiet_setSilent (s : State) : Quiet s s.setSilent :=
  ⟨sameRegs_setSilent s, rfl, rfl, rfl, rfl, id, rfl, rfl, rfl, .refl _, fun _ h => h, fun h => h, .of_eq rfl rfl, rfl⟩

theorem quiet_advance (s : State) (d : Nat) : Quiet s (s.advance d) :=
  ⟨sameRegs_advance s d, rfl, rfl, rfl, rfl, id, rfl, rfl, rfl, ⟨Nat.le_add_right _ _, Nat.le_refl _⟩, fun _ h => h, fun h => h, .of_eq rfl rfl, rfl⟩

theorem quiet_xactDone (s : State) : Quiet s s.xactDone :=
  ⟨sameRegs_xactDone s, rfl, rfl, rfl, rfl, id, rfl, rfl, rfl, ⟨Nat.le_refl _, Nat.le_max_left _ _⟩, fun _ h => h, fun h => h, .of_eq rfl rfl, rfl⟩

/-- An event that is no write, no emission and no poll delay, and keeps the port's laws. -/
theorem quiet_log (s : State) (e : Event) (hs : e.sent = none) (he : e.emitted = none)
    (hd : e.isPollDelay = false) (hl : e.lawful = true)
    (hn : e.sampled = none) : Quiet s (s.log e) :=
  ⟨sameRegs_log s e, rfl, by simp [framesOf, hs], by simp [readingsOf, he],
    by simp [pollDelays, hd], by simp [hl], rfl, rfl, rfl,
    .refl _, fun _ h => h, fun h => h, .of_eq rfl rfl, by simp [samplesOf, hn]⟩

theorem quiet_raise (s : State) (e : Err) : Quiet s (s.log (.raise e)) := quiet_log s _ rfl rfl rfl rfl rfl

theorem quiet_goto (s : State) (l : Phase) : Quiet s (goto l s) :=
  (quiet_log s _ rfl rfl rfl rfl rfl).trans (quiet_setPhase _ l)

theorem ObserverOnly.quiet {s t : State} (h : ObserverOnly s t) (hs : Still s t) : Quiet s t := by
  have hc := h.counts
  obtain ⟨evs, he, hp⟩ := h.events
  refine ⟨h.same, h.txbuf, hc.frames, hc.readings, hc.delays, ?_, h.waits, h.writes, by rw [h.clock],
    .of_eq h.clock, h.waiting, h.asked, hs, hc.samples⟩
  intro hs
  rw [he, List.all_append, hs, Bool.and_true, List.all_eq_true]
  intro e hm
  rcases hp e hm with rfl | ⟨b, rfl⟩ <;> rfl

theorem quiet_observerTurn (s : State) : Quiet s (observerTurn s) := (observerTurn_only s).quiet (observerTurn_still s)

theorem quiet_delay_exec (c : Command) (s : State) : Quiet s (delay (.exec c) s) :=
  ((quiet_log s _ rfl rfl rfl rfl rfl).trans (quiet_observerTurn _)).trans (quiet_advance _ _)

/-- What a delay leaves of the fields that `Quiet` does not name. -/
theorem delay_fields (why : Wait) (s : State) :
    (delay why s).seq = s.seq ∧ (delay why s).rxbuf = s.rxbuf ∧ (delay why s).env.silent = s.env.silent ∧
      (delay why s).env.reads = s.env.reads ∧
      (delay why s).clock = { s.clock with time := s.clock.time + waitTicks why s.params } := by
  have h := observerTurn_only (s.log (.delay why (waitTicks why s.params)))
  exact ⟨h.seq, h.rxbuf, h.silent, h.reads, by simp [delay, h.clock]⟩

/-! ### The clock -/

theorem Params.unit_pos (p : Params) : 0 < p.unit := Nat.succ_pos _

/-- The earliest lawful sample follows the clock. -/
theorem least_le {s t : State} (hp : t.params = s.params) (h : s.clock.Le t.clock) : s.least ≤ t.least := by
  unfold State.least
  rw [hp]
  have := Nat.div_le_div_right (c := s.params.unit) h.time
  have := h.floor
  omega

/-- After a completed transaction the earliest lawful sample is past the last one (CLOCK_ADVANCES). -/
theorem xactDone_least (s : State) : s.clock.afterXact ≤ s.xactDone.least := by
  unfold State.least
  rw [xactDone_clock]
  exact Nat.le_trans (Nat.le_max_right _ _) (Nat.le_max_right _ _)

/-- A clock sample: the time drawn, and the state after it. -/
theorem now_spec (s : State) :
    ∃ k, s.least ≤ (now s).1 ∧
      (now s).2 =
        { s with
          clock := { s.clock with time := max s.clock.time ((now s).1 * s.params.unit), afterXact := (now s).1 + 1 }
          env := { s.env with waits := s.env.waits.tail, draws := k }
          trace := .now (now s).1 :: s.trace } := by
  obtain ⟨k, h⟩ := drawWait_next s
  refine ⟨k, by simp [now], ?_⟩
  simp [now, h, State.log]

theorem now_same (s : State) : SameRegs s (now s).2 := by
  obtain ⟨k, _, h⟩ := now_spec s
  rw [h]
  exact ⟨rfl, rfl, rfl, rfl, rfl, rfl, rfl, rfl, rfl, rfl, rfl, rfl, rfl, id, [.now _], rfl⟩

/-- What a clock sample leaves of the rest. -/
theorem now_fields (s : State) :
    (now s).2.seq = s.seq ∧ (now s).2.txbuf = s.txbuf ∧ (now s).2.rxbuf = s.rxbuf ∧
      (now s).2.shutdown = s.shutdown ∧ (now s).2.env.silent = s.env.silent ∧
      (now s).2.env.observer = s.env.observer ∧ (now s).2.env.during = s.env.during ∧
      (now s).2.env.writes = s.env.writes ∧ (now s).2.env.reads = s.env.reads ∧
      (now s).2.clock =
        { s.clock with time := max s.clock.time ((now s).1 * s.params.unit), afterXact := (now s).1 + 1 } ∧
      (now s).2.trace = .now (now s).1 :: s.trace := by
  obtain ⟨k, _, h⟩ := now_spec s
  rw [h]
  exact ⟨rfl, rfl, rfl, rfl, rfl, rfl, rfl, rfl, rfl, rfl, rfl⟩

theorem turns_now (s : State) : Turns 0 s (now s).2 := by
  have h := now_fields s
  exact .of_eq h.2.2.2.1 h.2.2.2.2.2.1 h.2.2.2.2.2.2.1

/-- A clock sample does not move the clock back. -/
theorem now_later (s : State) : s.clock.Le (now s).2.clock := by
  rw [(now_fields s).2.2.2.2.2.2.2.2.2.1]
  exact ⟨Nat.le_max_left _ _, Nat.le_refl _⟩

/-- After a sample, the earliest lawful one is that sample. -/
theorem now_least (s : State) : (now s).2.least = (now s).1 := by
  obtain ⟨k, hk, h⟩ := now_spec s
  have hu := Params.unit_pos s.params
  have hp : (now s).2.params = s.params := by rw [h]
  have hc : (now s).2.clock.time = max s.clock.time ((now s).1 * s.params.unit) := by rw [h]
  have hf : (now s).2.clock.floor = s.clock.floor := by rw [h]
  have hl : s.clock.time / s.params.unit ≤ (now s).1 ∧ s.clock.floor ≤ (now s).1 := Nat.max_le.1 hk
  have hq : max s.clock.time ((now s).1 * s.params.unit) / s.params.unit = (now s).1 := by
    refine Nat.le_antisymm (Nat.le_of_lt_succ ((Nat.div_lt_iff_lt_mul hu).2 (Nat.max_lt.2 ⟨?_, ?_⟩))) ?_
    · exact (Nat.div_lt_iff_lt_mul hu).1 (Nat.lt_succ_of_le hl.1)
    · exact Nat.mul_lt_mul_of_pos_right (Nat.lt_succ_self _) hu
    · exact (Nat.le_div_iff_mul_le hu).2 (Nat.le_max_right _ _)
  unfold State.least
  rw [hp, hc, hf, hq]
  exact Nat.max_eq_left hl.2

/-! ### The transport port -/

/-- The state after a write's draw, before its answer is looked at. -/
def afterWrite (f : List Byte) (s : State) : State :=
  (drawWrite f.length s).2.log (.memWrite s.params.i2cAddr f (drawWrite f.length s).1)

/-- The state after a read's draw, before its answer is looked at. -/
def afterRead (n : Nat) (s : State) : State :=
  (drawRead n s).2.log (.memRead s.params.i2cAddr n (drawRead n s).1)

/-- Everything a `MemWrite` can do. -/
theorem memWrite_eq (f : List Byte) (s : State) :
    memWrite f s =
      match (drawWrite f.length s).1 with
      | .ok k => .ok (some k) (afterWrite f s)
      | .err => .ok none (afterWrite f s)
      | .never => .silent (afterWrite f s).setSilent := rfl

/-- Everything a `MemRead` can do. -/
theorem memRead_eq (n : Nat) (s : State) :
    memRead n s =
      match (drawRead n s).1 with
      | .ok bytes => .ok (some bytes) (afterRead n s)
      | .err => .ok none (afterRead n s)
      | .never => .silent (afterRead n s).setSilent := rfl

theorem quiet_afterRead (n : Nat) (s : State) : Quiet s (afterRead n s) := by
  obtain ⟨k, h⟩ := drawRead_next n s
  unfold afterRead
  rw [h]
  refine Quiet.trans ?_ (quiet_log _ _ rfl rfl rfl ?_ rfl)
  · exact ⟨⟨rfl, rfl, rfl, rfl, rfl, rfl, rfl, rfl, rfl, rfl, rfl, rfl, rfl, id, [], rfl⟩, rfl, rfl, rfl, rfl, id,
      rfl, rfl, rfl, .refl _, fun _ h => h, fun h => h, .of_eq rfl rfl, rfl⟩
  · cases ha : (drawRead n s).1 with
    | ok b => simp [Event.lawful, drawRead_lawful ha]
    | err => rfl
    | never => rfl

/-- What a read's draw leaves of the fields that `Quiet` does not name. -/
theorem afterRead_fields (n : Nat) (s : State) :
    (afterRead n s).seq = s.seq ∧ (afterRead n s).rxbuf = s.rxbuf ∧ (afterRead n s).env.silent = s.env.silent ∧
      (afterRead n s).env.reads = s.env.reads.tail ∧ (afterRead n s).clock = s.clock := by
  obtain ⟨k, h⟩ := drawRead_next n s
  unfold afterRead
  rw [h]
  exact ⟨rfl, rfl, rfl, rfl, rfl⟩

/-- What a write's draw leaves of the fields that `XactTrail` does not name. -/
theorem afterWrite_fields (f : List Byte) (s : State) :
    (afterWrite f s).seq = s.seq ∧ (afterWrite f s).rxbuf = s.rxbuf ∧ (afterWrite f s).env.silent = s.env.silent ∧
      (afterWrite f s).env.reads = s.env.reads ∧ (afterWrite f s).clock = s.clock := by
  obtain ⟨k, h⟩ := drawWrite_next f.length s
  unfold afterWrite
  rw [h]
  exact ⟨rfl, rfl, rfl, rfl, rfl⟩

end Sys2Proof.Machine
end

