-- ==== Sys2Proof/Laws/Xact.lean ====
section
/-! SUPPORT. `Xact` and `CheckGroup` (42_transactions.md R100, R101): every way a transaction can end, what each leaves,
and how the listed answers decide between them. -/

namespace Sys2Proof.Machine

/-- What every end of a transaction that sends the frame `f` leaves: nothing but bus traffic and the observer touched the
state, TXBUF starts with the frame, and the frame was sent once. -/
structure XactTrail (f : List Byte) (s t : State) : Prop where
  same : SameRegs s t
  txbuf : t.txbuf = Memory.writeAll s.txbuf 0 f
  frames : framesOf t.trace = f :: framesOf s.trace
  readings : readingsOf t.trace = readingsOf s.trace
  delays : pollDelays t.trace = pollDelays s.trace
  lawful : (∃ i, takeFrame f = .ok (i, [])) → s.trace.all Event.lawful = true → t.trace.all Event.lawful = true
  waits : t.env.waits = s.env.waits
  writes : t.env.writes = s.env.writes.tail
  afterXact : t.clock.afterXact = s.clock.afterXact
  later : s.clock.Le t.clock
  waiting : s.measuring = true → s.env.observer ≠ .passed → t.env.observer ≠ .passed
  asked : (s.env.observer ≠ .resting → s.shutdown = true) → t.env.observer ≠ .resting → t.shutdown = true
  still : Still s t
  samples : samplesOf t.trace = samplesOf s.trace

theorem XactTrail.quiet {f : List Byte} {s t u : State} (h : XactTrail f s t) (k : Quiet t u) : XactTrail f s u :=
  ⟨h.same.trans k.same, k.txbuf.trans h.txbuf, k.frames.trans h.frames, k.readings.trans h.readings,
    k.delays.trans h.delays, fun i x => k.lawful (h.lawful i x), k.waits.trans h.waits, k.writes.trans h.writes,
    k.afterXact.trans h.afterXact, h.later.trans k.later,
    fun m o => k.waiting (by rw [h.same.measuring]; exact m) (h.waiting m o), fun a => k.asked (h.asked a),
    h.still.trans k.still, k.samples.trans h.samples⟩

/-- What a completed transaction leaves besides. -/
structure XactDone (c : Command) (f : List Byte) (s t : State) : Prop extends XactTrail f s t where
  silent : t.env.silent = s.env.silent
  waited : s.clock.time + s.params.waitOf c ≤ t.clock.time
  advanced : s.clock.afterXact ≤ t.least
  turns : Turns 1 s t

/-- The state of a transaction at its write: PHASE and TXBUF are set. -/
def atWrite (f : List Byte) (s : State) : State := (s.setPhase .xWrite).loadTx f

/-- The state of a transaction whose write was answered in full, at the end of its wait. -/
def atRead (c : Command) (f : List Byte) (s : State) : State :=
  delay (.exec c) ((afterWrite f (atWrite f s)).setPhase .xWait)

/-- The answer to a transaction's write. -/
def writeDrawn (f : List Byte) (s : State) : WriteAnswer := (drawWrite f.length (atWrite f s)).1

/-- The answer to a transaction's read. -/
def readDrawn (c : Command) (f : List Byte) (s : State) : ReadAnswer :=
  (drawRead c.respLen ((atRead c f s).setPhase .xRead)).1

/-- The state after a transaction's read was answered. -/
def afterResponse (c : Command) (f : List Byte) (s : State) : State :=
  afterRead c.respLen ((atRead c f s).setPhase .xRead)

theorem trail_afterWrite (f : List Byte) (s : State) : XactTrail f s (afterWrite f (atWrite f s)) := by
  obtain ⟨k, h⟩ := drawWrite_next f.length (atWrite f s)
  unfold afterWrite
  rw [h]
  refine ⟨⟨rfl, rfl, rfl, rfl, rfl, rfl, rfl, rfl, rfl, rfl, rfl, rfl, rfl, id, [_], rfl⟩, rfl, rfl, rfl, rfl, ?_,
    rfl, rfl, rfl, .refl _, fun _ h => h, fun h => h, .of_eq rfl rfl, rfl⟩
  rintro ⟨i, hi⟩ hs
  simp only [log_trace, List.all_cons, Bool.and_eq_true]
  refine ⟨?_, hs⟩
  cases ha : (drawWrite f.length (atWrite f s)).1 with
  | ok n => simp [Event.lawful, hi, drawWrite_lawful ha]
  | err => simp [Event.lawful, hi]
  | never => simp [Event.lawful, hi]

theorem trail_atRead (c : Command) (f : List Byte) (s : State) : XactTrail f s (atRead c f s) :=
  (trail_afterWrite f s).quiet ((quiet_setPhase _ _).trans (quiet_delay_exec c _))

theorem trail_afterResponse (c : Command) (f : List Byte) (s : State) : XactTrail f s (afterResponse c f s) :=
  (trail_atRead c f s).quiet ((quiet_setPhase _ _).trans (quiet_afterRead _ _))

/-- The observer has one turn in a transaction, in its wait. -/
theorem turns_atRead (c : Command) (f : List Byte) (s : State) : Turns 1 s (atRead c f s) := by
  obtain ⟨k, h⟩ := drawWrite_next f.length (atWrite f s)
  have hw : Turns 0 s (afterWrite f (atWrite f s)) := by
    unfold afterWrite
    rw [h]
    exact .of_eq rfl rfl rfl
  exact hw.trans (turns_delay (.exec c) ((afterWrite f (atWrite f s)).setPhase .xWait))

theorem turns_afterResponse (c : Command) (f : List Byte) (s : State) : Turns 1 s (afterResponse c f s) := by
  obtain ⟨k, h⟩ := drawRead_next c.respLen ((atRead c f s).setPhase .xRead)
  refine (turns_atRead c f s).trans (k := 0) ?_
  unfold afterResponse afterRead
  rw [h]
  exact .of_eq rfl rfl rfl

theorem atRead_fields (c : Command) (f : List Byte) (s : State) :
    (atRead c f s).rxbuf = s.rxbuf ∧ (atRead c f s).env.silent = s.env.silent ∧
      (atRead c f s).env.reads = s.env.reads ∧
      (atRead c f s).clock = { s.clock with time := s.clock.time + s.params.waitOf c } := by
  obtain ⟨_, h2, h3, h4, h5⟩ := delay_fields (.exec c) ((afterWrite f (atWrite f s)).setPhase .xWait)
  obtain ⟨_, k2, k3, k4, k5⟩ := afterWrite_fields f (atWrite f s)
  have kp := (trail_afterWrite f s).same.params
  unfold atRead
  rw [h2, h3, h4, h5]
  simp only [setPhase_rxbuf, setPhase_env, setPhase_clock, setPhase_params, k2, k3, k4, k5, kp, waitTicks]
  exact ⟨rfl, rfl, rfl, rfl⟩

theorem afterResponse_fields (c : Command) (f : List Byte) (s : State) :
    (afterResponse c f s).seq.phase = .xRead ∧ (afterResponse c f s).rxbuf = s.rxbuf ∧
      (afterResponse c f s).env.silent = s.env.silent ∧ (afterResponse c f s).env.reads = s.env.reads.tail ∧
      (afterResponse c f s).clock = { s.clock with time := s.clock.time + s.params.waitOf c } := by
  obtain ⟨h1, h2, h3, h4⟩ := atRead_fields c f s
  obtain ⟨k1, k2, k3, k4, k5⟩ := afterRead_fields c.respLen ((atRead c f s).setPhase .xRead)
  unfold afterResponse
  rw [k1, k2, k3, k4, k5]
  simp [h1, h2, h3, h4]

/-- `Xact`, as one case distinction on the answers. -/
theorem xact_eq (c : Command) (f : List Byte) (s : State) :
    xact c f s =
      match writeDrawn f s with
      | .never => .silent (afterWrite f (atWrite f s)).setSilent
      | .err => raise (transportErr c.op 0xFFFF#16) (afterWrite f (atWrite f s))
      | .ok k =>
        if k ≠ f.length then raise (transportErr c.op (BitVec.ofNat 16 k)) (afterWrite f (atWrite f s))
        else if c.respLen = 0 then .ok () (atRead c f s).xactDone
        else
          match readDrawn c f s with
          | .never => .silent (afterResponse c f s).setSilent
          | .err => raise (transportErr c.op 0xFFFF#16) (afterResponse c f s)
          | .ok b =>
            if b.length ≠ c.respLen then
              raise (transportErr c.op (BitVec.ofNat 16 b.length)) (afterResponse c f s)
            else .ok () (((afterResponse c f s).storeRx b).setPhase .xCheck).xactDone := by
  unfold xact
  rw [memWrite_eq]
  simp only [writeDrawn, atWrite]
  cases (drawWrite f.length ((s.setPhase .xWrite).loadTx f)).1 with
  | never => rfl
  | err => rfl
  | ok k =>
    simp only [Res.andThen_ok]
    split
    · rfl
    · unfold xactWait
      simp only [readDrawn, afterResponse, atRead, atWrite]
      split
      · rfl
      · unfold xactRead
        rw [memRead_eq]
        cases (drawRead c.respLen ((delay (.exec c)
          ((afterWrite f ((s.setPhase .xWrite).loadTx f)).setPhase .xWait)).setPhase .xRead)).1 with
        | never => rfl
        | err => rfl
        | ok b => simp only [Res.andThen_ok]

/-- Every way a transaction can end, and what each leaves. It never faults. -/
theorem xact_cases (c : Command) (f : List Byte) (s : State) :
    (∃ t, xact c f s = .ok () t ∧ XactDone c f s t ∧
      ((c.respLen = 0 ∧ t.rxbuf = s.rxbuf ∧ t.env.reads = s.env.reads) ∨
       ∃ b, b.length = c.respLen ∧ t.rxbuf = Memory.writeAll s.rxbuf 0 b ∧ t.env.reads = s.env.reads.tail)) ∨
    (∃ info t, xact c f s = .raised (transportErr c.op info) t ∧ XactTrail f s t ∧ t.rxbuf = s.rxbuf ∧
      t.env.silent = s.env.silent) ∨
    (∃ t, xact c f s = .silent t ∧ XactTrail f s t ∧ t.rxbuf = s.rxbuf ∧ t.env.silent = true ∧
      (t.seq.phase = .xWrite ∨ t.seq.phase = .xRead)) := by
  obtain ⟨p1, p2, p3, p4, p5⟩ := afterWrite_fields f (atWrite f s)
  obtain ⟨r1, r2, r3, r4⟩ := atRead_fields c f s
  obtain ⟨q1, q2, q3, q4, q5⟩ := afterResponse_fields c f s
  rw [xact_eq]
  cases writeDrawn f s with
  | never =>
    refine .inr (.inr ⟨_, rfl, (trail_afterWrite f s).quiet (quiet_setSilent _), p2, rfl, .inl ?_⟩)
    rw [setSilent_seq, p1]
    rfl
  | err => exact .inr (.inl ⟨_, _, rfl, (trail_afterWrite f s).quiet (quiet_raise _ _), p2, p3⟩)
  | ok k =>
    dsimp only
    split
    · exact .inr (.inl ⟨_, _, rfl, (trail_afterWrite f s).quiet (quiet_raise _ _), p2, p3⟩)
    · split
      · rename_i h0
        refine .inl ⟨_, rfl, ⟨(trail_atRead c f s).quiet (quiet_xactDone _), ?_, ?_, ?_, turns_atRead c f s⟩,
          .inl ⟨h0, ?_, ?_⟩⟩
        · simpa using r2
        · simp only [xactDone_clock, r4]
          exact Nat.le_refl _
        · refine Nat.le_trans (Nat.le_of_eq ?_) (xactDone_least _)
          rw [r4]
        · simpa using r1
        · simpa using r3
      · cases readDrawn c f s with
        | never =>
          exact .inr (.inr ⟨_, rfl, (trail_afterResponse c f s).quiet (quiet_setSilent _), q2, rfl, .inr q1⟩)
        | err => exact .inr (.inl ⟨_, _, rfl, (trail_afterResponse c f s).quiet (quiet_raise _ _), q2, q3⟩)
        | ok b =>
          dsimp only
          split
          · exact .inr (.inl ⟨_, _, rfl, (trail_afterResponse c f s).quiet (quiet_raise _ _), q2, q3⟩)
          · rename_i hb
            refine .inl ⟨_, rfl, ⟨(trail_afterResponse c f s).quiet (((quiet_storeRx _ b).trans
              (quiet_setPhase _ _)).trans (quiet_xactDone _)), ?_, ?_, ?_, turns_afterResponse c f s⟩,
              .inr ⟨b, by simpa using hb, ?_, ?_⟩⟩
            · simpa using q3
            · simp only [xactDone_clock, setPhase_clock, storeRx_clock, q5]
              exact Nat.le_refl _
            · refine Nat.le_trans (Nat.le_of_eq ?_) (xactDone_least _)
              rw [setPhase_clock, storeRx_clock, q5]
            · simp [q2]
            · simpa using q4

theorem writeDrawn_listed {f : List Byte} {s : State} {a : WriteAnswer} (h : s.env.writes.head? = some a) :
    writeDrawn f s = WriteAnswer.lawful f.length a := by
  rw [writeDrawn, drawWrite_listed _ (by simpa [atWrite] using h)]

theorem readDrawn_listed {c : Command} {f : List Byte} {s : State} {r : ReadAnswer}
    (h : s.env.reads.head? = some r) : readDrawn c f s = ReadAnswer.lawful c.respLen r := by
  rw [readDrawn, drawRead_listed _ (by rw [setPhase_env, (atRead_fields c f s).2.2.1]; exact h)]

/-- Listed answers decide how a transaction ends. -/
theorem xact_listed {c : Command} {f : List Byte} {s : State} {a : WriteAnswer} {r : ReadAnswer}
    (h : Answers s a r) :
    match exchangeOf f.length c.respLen a r with
    | .unanswered => ∃ t, xact c f s = .silent t ∧ XactTrail f s t ∧ t.rxbuf = s.rxbuf ∧ t.env.silent = true ∧
        (t.seq.phase = .xWrite ∨ t.seq.phase = .xRead)
    | .failed info => ∃ t, xact c f s = .raised (transportErr c.op info) t ∧ XactTrail f s t ∧ t.rxbuf = s.rxbuf ∧
        t.env.silent = s.env.silent
    | .response b => ∃ t, xact c f s = .ok () t ∧ XactDone c f s t ∧ b.length = c.respLen ∧
        t.rxbuf = Memory.writeAll s.rxbuf 0 b ∧
        t.env.reads = if c.respLen = 0 then s.env.reads else s.env.reads.tail := by
  have hw := writeDrawn_listed (f := f) h.1
  have hr := readDrawn_listed (c := c) (f := f) h.2
  have hx := xact_cases c f s
  have he := xact_eq c f s
  rw [hw, hr] at he
  cases a with
  | never =>
    simp only [WriteAnswer.lawful] at he
    simp only [exchangeOf]
    rcases hx with ⟨t, hx, _⟩ | ⟨i, t, hx, _⟩ | ⟨t, hx, hrest⟩
    · rw [he] at hx; cases hx
    · rw [he] at hx; cases hx
    · exact ⟨t, hx, hrest⟩
  | err =>
    simp only [WriteAnswer.lawful] at he
    simp only [exchangeOf]
    rcases hx with ⟨t, hx, _⟩ | ⟨i, t, hx, hrest⟩ | ⟨t, hx, _⟩
    · rw [he] at hx; cases hx
    · refine ⟨t, ?_, hrest⟩
      rw [he] at hx ⊢
      cases hx
      rfl
    · rw [he] at hx; cases hx
  | ok k =>
    simp only [WriteAnswer.lawful] at he
    simp only [exchangeOf]
    by_cases hk : k < f.length
    · rw [if_pos (by omega), show min k f.length = k by omega] at he
      rw [if_pos hk]
      rcases hx with ⟨t, hx, _⟩ | ⟨i, t, hx, hrest⟩ | ⟨t, hx, _⟩
      · rw [he] at hx; cases hx
      · refine ⟨t, ?_, hrest⟩
        rw [he] at hx ⊢
        cases hx
        rfl
      · rw [he] at hx; cases hx
    · rw [if_neg (by omega)] at he
      rw [if_neg hk]
      by_cases h0 : c.respLen = 0
      · rw [if_pos h0] at he
        rw [if_pos h0]
        rcases hx with ⟨t, hx, hd, hrest⟩ | ⟨i, t, hx, _⟩ | ⟨t, hx, _⟩
        · refine ⟨t, hx, hd, h0.symm, ?_, ?_⟩
          · rcases hrest with ⟨_, h1, _⟩ | ⟨b, h1, h2, _⟩
            · exact h1
            · rw [h0] at h1
              rw [h2, List.length_eq_zero_iff.1 h1]
          · rcases hrest with ⟨_, _, h1⟩ | ⟨b, h1, h2, h3⟩
            · simpa [h0] using h1
            · rw [he] at hx
              cases hx
              simpa [h0] using (atRead_fields c f s).2.2.1
        · rw [he] at hx; cases hx
        · rw [he] at hx; cases hx
      · rw [if_neg h0] at he
        rw [if_neg h0]
        cases r with
        | never =>
          simp only [ReadAnswer.lawful] at he
          rcases hx with ⟨t, hx, _⟩ | ⟨i, t, hx, _⟩ | ⟨t, hx, hrest⟩
          · rw [he] at hx; cases hx
          · rw [he] at hx; cases hx
          · exact ⟨t, hx, hrest⟩
        | err =>
          simp only [ReadAnswer.lawful] at he
          rcases hx with ⟨t, hx, _⟩ | ⟨i, t, hx, hrest⟩ | ⟨t, hx, _⟩
          · rw [he] at hx; cases hx
          · refine ⟨t, ?_, hrest⟩
            rw [he] at hx ⊢
            cases hx
            rfl
          · rw [he] at hx; cases hx
        | ok b =>
          simp only [ReadAnswer.lawful, List.length_take] at he
          by_cases hb : b.length < c.respLen
          · rw [if_pos (by omega), show min c.respLen b.length = b.length by omega] at he
            simp only [if_pos hb]
            rcases hx with ⟨t, hx, _⟩ | ⟨i, t, hx, hrest⟩ | ⟨t, hx, _⟩
            · rw [he] at hx; cases hx
            · refine ⟨t, ?_, hrest⟩
              rw [he] at hx ⊢
              cases hx
              rfl
            · rw [he] at hx; cases hx
          · rw [if_neg (by omega)] at he
            simp only [if_neg hb]
            rcases hx with ⟨t, hx, hd, hrest⟩ | ⟨i, t, hx, _⟩ | ⟨t, hx, _⟩
            · refine ⟨t, hx, hd, by simp; omega, ?_, ?_⟩
              · rw [he] at hx
                cases hx
                simp [(afterResponse_fields c f s).2.1]
              · rw [he] at hx
                cases hx
                simpa [h0] using (afterResponse_fields c f s).2.2.2.1
            · rw [he] at hx; cases hx
            · rw [he] at hx; cases hx

/-- A transaction's raise is its last event. -/
theorem xact_raised_event {c : Command} {f : List Byte} {s t : State} {e : Err} (h : xact c f s = .raised e t) :
    t.trace.head? = some (.raise e) := by
  rw [xact_eq] at h
  split at h
  · cases h
  · cases h
    rfl
  · split at h
    · cases h
      rfl
    · split at h
      · cases h
      · split at h
        · cases h
        · cases h
          rfl
        · split at h
          · cases h
            rfl
          · cases h

/-- PHASE at the end of a transaction whose answers are listed. -/
theorem xact_phase {c : Command} {f : List Byte} {s : State} {a : WriteAnswer} {r : ReadAnswer} (h : Answers s a r) :
    (xact c f s).leaves fun t => t.seq.phase = xactPhase f.length c.respLen a r := by
  have hp : (atRead c f s).seq.phase = .xWait :=
    congrArg Seq.phase (delay_fields (.exec c) ((afterWrite f (atWrite f s)).setPhase .xWait)).1
  have hw : (afterWrite f (atWrite f s)).seq.phase = .xWrite :=
    congrArg Seq.phase (afterWrite_fields f (atWrite f s)).1
  have hr := (afterResponse_fields c f s).1
  rw [xact_eq, writeDrawn_listed h.1, readDrawn_listed h.2]
  cases a with
  | never => exact hw
  | err => exact hw
  | ok k =>
    simp only [WriteAnswer.lawful, xactPhase]
    by_cases hk : k < f.length
    · rw [if_pos (by omega), if_pos hk]
      exact hw
    · rw [if_neg (by omega), if_neg hk]
      by_cases h0 : c.respLen = 0
      · rw [if_pos h0, if_pos h0]
        exact hp
      · rw [if_neg h0, if_neg h0]
        cases r with
        | never => exact hr
        | err => exact hr
        | ok b =>
          simp only [ReadAnswer.lawful, List.length_take]
          by_cases hb : b.length < c.respLen
          · rw [if_pos (by omega), if_pos hb]
            exact hr
          · rw [if_neg (by omega), if_neg hb]
            rfl

theorem OnBus.trans {es fs : List Event} {s t u : State} (h : OnBus es s t) (k : OnBus fs t u) : OnBus (fs ++ es) s u := by
  rw [OnBus, k, h, List.append_assoc]

/-- Events of the observer are no bus events. -/
theorem ObserverOnly.bus {s t : State} (h : ObserverOnly s t) : OnBus [] s t := by
  show busOf t.trace = busOf s.trace
  obtain ⟨evs, ht, hp⟩ := h.events
  rw [ht]
  clear ht
  induction evs with
  | nil => rfl
  | cons e evs ih =>
    have ih := ih (fun e he => hp e (List.mem_cons_of_mem _ he))
    rcases hp e (by simp) with rfl | ⟨b, rfl⟩ <;> exact ih

/-- A clock sample is no bus event. -/
theorem bus_now (s : State) : OnBus [] s (now s).2 := by
  unfold OnBus
  rw [(now_fields s).2.2.2.2.2.2.2.2.2.2]
  rfl

/-- A delay is on the bus. -/
theorem bus_delay (why : Wait) (s : State) : OnBus [.delay why (waitTicks why s.params)] s (delay why s) := by
  obtain ⟨u, hu, h⟩ := delay_spec why s
  rw [h]
  exact hu.bus

theorem bus_afterWrite (f : List Byte) (s : State) :
    OnBus [.memWrite s.params.i2cAddr f (writeDrawn f s)] s (afterWrite f (atWrite f s)) := by
  obtain ⟨k, h⟩ := drawWrite_next f.length (atWrite f s)
  unfold afterWrite
  rw [h]
  rfl

theorem bus_atRead (c : Command) (f : List Byte) (s : State) :
    OnBus [.delay (.exec c) (s.params.waitOf c), .memWrite s.params.i2cAddr f (writeDrawn f s)] s (atRead c f s) := by
  have h := (bus_afterWrite f s).trans (bus_delay (.exec c) ((afterWrite f (atWrite f s)).setPhase .xWait))
  rw [setPhase_params, (trail_afterWrite f s).same.params] at h
  exact h

theorem bus_afterResponse (c : Command) (f : List Byte) (s : State) :
    OnBus [.memRead s.params.i2cAddr c.respLen (readDrawn c f s), .delay (.exec c) (s.params.waitOf c),
      .memWrite s.params.i2cAddr f (writeDrawn f s)] s (afterResponse c f s) := by
  obtain ⟨k, h⟩ := drawRead_next c.respLen ((atRead c f s).setPhase .xRead)
  have hr : OnBus [.memRead (atRead c f s).params.i2cAddr c.respLen (readDrawn c f s)] (atRead c f s)
      (afterResponse c f s) := by
    unfold afterResponse afterRead
    rw [h]
    rfl
  rw [(trail_atRead c f s).same.params] at hr
  exact (bus_atRead c f s).trans hr

/-- What a transaction whose answers are listed does on the bus, however it ends (42_transactions.md R100). -/
theorem xact_bus {c : Command} {f : List Byte} {s : State} {a : WriteAnswer} {r : ReadAnswer}
    (hw : s.env.writes.head? = some a) (hr : c.respLen = 0 ∨ s.env.reads.head? = some r) :
    (xact c f s).leaves fun t => OnBus (xactEvents c f a r s.params) s t := by
  have b1 := bus_afterWrite f s
  have b2 := bus_atRead c f s
  have b3 := bus_afterResponse c f s
  rw [writeDrawn_listed hw] at b1 b2 b3
  rw [xact_eq, writeDrawn_listed hw]
  cases a with
  | never => exact b1
  | err => exact b1
  | ok k =>
    simp only [WriteAnswer.lawful, xactEvents] at b1 b2 b3 ⊢
    by_cases hk : k < f.length
    · rw [if_pos (by omega), if_pos hk]
      rw [show min k f.length = k by omega] at b1 ⊢
      exact b1
    · rw [if_neg (by omega), if_neg hk]
      rw [show min k f.length = f.length by omega] at b1 b2 b3
      by_cases h0 : c.respLen = 0
      · rw [if_pos h0, if_pos h0]
        exact b2
      · rw [if_neg h0, if_neg h0]
        rw [readDrawn_listed (hr.resolve_left h0)] at b3 ⊢
        cases r with
        | never => exact b3
        | err => exact b3
        | ok b =>
          simp only [ReadAnswer.lawful] at b3 ⊢
          split <;> exact b3

/-- `CheckGroup` on a group that a response filled: the word, or CHECKSUM. -/
theorem checkGroup_filled {op : BitVec 4} {k : Nat} {s : State} {b0 b1 ck : Byte}
    (h0 : Memory.read s.rxbuf (groupOffset k) = some b0) (h1 : Memory.read s.rxbuf (groupOffset k + 1) = some b1)
    (h2 : Memory.read s.rxbuf (groupOffset k + 2) = some ck) :
    checkGroup op k s =
      if crc8 [b0, b1] = ck then .ok (be16 b0 b1) s
      else raise (checksumErr op (BitVec.ofNat 2 k) (be16 (crc8 [b0, b1]) ck)) s := by
  simp [checkGroup, readRx, h0, h1, h2, groupOk]

/-- `CheckGroup` writes no register: a word, CHECKSUM, or a fault on a cell that holds no value (10_state.md R34). -/
theorem checkGroup_cases (op : BitVec 4) (k : Nat) (s : State) :
    (∃ w, checkGroup op k s = .ok w s) ∨
    (∃ info, checkGroup op k s = raise (checksumErr op (BitVec.ofNat 2 k) info) s) ∨
    checkGroup op k s = .fault .unwrittenRead := by
  cases h0 : Memory.read s.rxbuf (groupOffset k) <;>
  cases h1 : Memory.read s.rxbuf (groupOffset k + 1) <;>
  cases h2 : Memory.read s.rxbuf (groupOffset k + 2)
  case some.some.some b0 b1 ck =>
    rw [checkGroup_filled h0 h1 h2]
    split
    · exact .inl ⟨_, rfl⟩
    · exact .inr (.inl ⟨_, rfl⟩)
  all_goals exact .inr (.inr (by simp [checkGroup, readRx, h0, h1, h2]))

end Sys2Proof.Machine
end

