-- ==== Sys2Proof/Laws/Rules.lean ====
section
/-! SUPPORT. The rules of the sensor commands (42_transactions.md R102 to R112): every way each can end, and what each
end leaves. -/

namespace Sys2Proof.Machine

/-! ### The ends of a command's lines -/

/-- RXBUF holds its old contents, or those under a whole response of `n` bytes (20_memory.md R42). -/
def RxAfter (n : Nat) (s t : State) : Prop :=
  ∃ b : List Byte, (b = [] ∨ b.length = n) ∧ t.rxbuf = Memory.writeAll s.rxbuf 0 b

theorem RxAfter.of_eq {n : Nat} {s t : State} (h : t.rxbuf = s.rxbuf) : RxAfter n s t := ⟨[], .inl rfl, h⟩

/-- What a raise out of a command's lines leaves. -/
structure RaisedTrail (n : Nat) (f : List Byte) (s t : State) : Prop extends XactTrail f s t where
  rx : RxAfter n s t
  silent : t.env.silent = s.env.silent

/-- What a transport that never answers leaves. -/
structure SilentTrail (f : List Byte) (s t : State) : Prop extends XactTrail f s t where
  rx : t.rxbuf = s.rxbuf
  silent : t.env.silent = true
  phase : t.seq.phase = .xWrite ∨ t.seq.phase = .xRead

/-- What a completed exchange leaves. -/
structure DoneTrail (c : Command) (f : List Byte) (s t : State) : Prop extends XactDone c f s t where
  rx : RxAfter c.respLen s t

/-- A group inside a response of `n` bytes is filled. -/
theorem rx_filled {s t : State} {b : List Byte} (h : t.rxbuf = Memory.writeAll s.rxbuf 0 b) {i : Nat}
    (hi : i < b.length) : Memory.read t.rxbuf i = some b[i] := by
  have := Memory.read_writeAll_at b s.rxbuf 0 i hi
  rw [h]
  simpa [hi] using this

/-- `CheckGroup` on a group inside a whole response. -/
theorem checkGroup_whole {op : BitVec 4} {k : Nat} {s t : State} {b : List Byte}
    (h : t.rxbuf = Memory.writeAll s.rxbuf 0 b) (hk : groupOffset k + 2 < b.length) :
    checkGroup op k t =
      if crc8 [b[groupOffset k]'(by omega), b[groupOffset k + 1]'(by omega)] = b[groupOffset k + 2] then
        .ok (be16 (b[groupOffset k]'(by omega)) (b[groupOffset k + 1]'(by omega))) t
      else
        raise (checksumErr op (BitVec.ofNat 2 k)
          (be16 (crc8 [b[groupOffset k]'(by omega), b[groupOffset k + 1]'(by omega)]) b[groupOffset k + 2])) t :=
  checkGroup_filled (rx_filled h (by omega)) (rx_filled h (by omega)) (rx_filled h hk)

/-- `Xact` of a command with a response: what each end leaves. -/
theorem xact_response_cases (c : Command) (f : List Byte) (s : State) (hc : c.respLen ≠ 0) :
    (∃ t b, xact c f s = .ok () t ∧ DoneTrail c f s t ∧ b.length = c.respLen ∧
      t.rxbuf = Memory.writeAll s.rxbuf 0 b) ∨
    (∃ info t, xact c f s = .raised (transportErr c.op info) t ∧ RaisedTrail c.respLen f s t) ∨
    (∃ t, xact c f s = .silent t ∧ SilentTrail f s t) := by
  rcases xact_cases c f s with ⟨t, h, hd, h0 | ⟨b, hb, hrx, _⟩⟩ | ⟨info, t, h, ht, hrx, hs⟩ | ⟨t, h, ht, hrx, hs, hp⟩
  · exact absurd h0.1 hc
  · exact .inl ⟨t, b, h, ⟨hd, ⟨b, .inr hb, hrx⟩⟩, hb, hrx⟩
  · exact .inr (.inl ⟨info, t, h, ⟨ht, .of_eq hrx, hs⟩⟩)
  · exact .inr (.inr ⟨t, h, ⟨ht, hrx, hs, hp⟩⟩)

/-- `Xact` of a command with no response: what each end leaves. -/
theorem xact_write_cases (c : Command) (f : List Byte) (s : State) (hc : c.respLen = 0) :
    (∃ t, xact c f s = .ok () t ∧ DoneTrail c f s t ∧ t.rxbuf = s.rxbuf ∧ t.env.reads = s.env.reads) ∨
    (∃ info t, xact c f s = .raised (transportErr c.op info) t ∧ RaisedTrail 0 f s t) ∨
    (∃ t, xact c f s = .silent t ∧ SilentTrail f s t) := by
  rcases xact_cases c f s with ⟨t, h, hd, ⟨_, hrx, hr⟩ | ⟨b, hb, hrx, hr⟩⟩ | ⟨info, t, h, ht, hrx, hs⟩ |
      ⟨t, h, ht, hrx, hs, hp⟩
  · exact .inl ⟨t, h, ⟨hd, .of_eq hrx⟩, hrx, hr⟩
  · rw [hc, List.length_eq_zero_iff] at hb
    subst hb
    refine .inl ⟨t, h, ⟨hd, .of_eq hrx⟩, hrx, ?_⟩
    rw [xact_eq] at h
    cases hw : writeDrawn f s with
    | never => simp [hw] at h
    | err => simp [hw, raise] at h
    | ok k =>
      simp only [hw, if_pos hc] at h
      split at h
      · cases h
      · cases h
        exact (atRead_fields c f s).2.2.1
  · exact .inr (.inl ⟨info, t, h, ⟨ht, .of_eq hrx, hs⟩⟩)
  · exact .inr (.inr ⟨t, h, ⟨ht, hrx, hs, hp⟩⟩)

/-- What a raise after a completed exchange leaves. -/
theorem DoneTrail.raise {c : Command} {f : List Byte} {s t : State} (h : DoneTrail c f s t) (e : Err) :
    RaisedTrail c.respLen f s (t.log (.raise e)) := ⟨h.toXactTrail.quiet (quiet_raise t e), h.rx, h.silent⟩

/-- The exchange and the check of a response of one group. -/
theorem oneGroup_cases (c : Command) (f : List Byte) (s : State) (hc : c.respLen = 3) :
    (∃ t w, xact c f s = .ok () t ∧ checkGroup c.op 1 t = .ok w t ∧ DoneTrail c f s t) ∨
    (∃ t info, xact c f s = .ok () t ∧ checkGroup c.op 1 t = raise (checksumErr c.op 1 info) t ∧
      DoneTrail c f s t) ∨
    (∃ info t, xact c f s = .raised (transportErr c.op info) t ∧ RaisedTrail c.respLen f s t) ∨
    (∃ t, xact c f s = .silent t ∧ SilentTrail f s t) := by
  rcases xact_response_cases c f s (by omega) with ⟨t, b, h, hd, hb, hrx⟩ | h | h
  · have hg := checkGroup_whole (op := c.op) (k := 1) hrx (by simp [groupOffset]; omega)
    split at hg
    · exact .inl ⟨t, _, h, hg, hd⟩
    · exact .inr (.inl ⟨t, _, h, hg, hd⟩)
  · exact .inr (.inr (.inl h))
  · exact .inr (.inr (.inr h))

/-- `QueryReady` (R104): the word read with its readiness, TRANSPORT or CHECKSUM with OP = 0x4, or no answer. -/
theorem queryReady_cases (s : State) :
    (∃ w t, queryReady s = .ok (readyFlag (drdyOf w)) ((t.setWord w).setDrdy w) ∧
      DoneTrail .getDrdy frameGetDrdy s t) ∨
    (∃ e t, queryReady s = .raised e t ∧ (e.kind = .transport ∨ e.kind = .checksum) ∧ e.op = 0x4#4 ∧
      RaisedTrail 3 frameGetDrdy s t) ∨
    (∃ t, queryReady s = .silent t ∧ SilentTrail frameGetDrdy s t) := by
  unfold queryReady
  rcases oneGroup_cases .getDrdy frameGetDrdy s rfl with ⟨t, w, h, hg, hd⟩ | ⟨t, i, h, hg, hd⟩ | ⟨i, t, h, ht⟩ |
    ⟨t, h, ht⟩
  · simp only [Command.op] at hg
    exact .inl ⟨w, t, by rw [h, Res.andThen_ok, hg, Res.andThen_ok], hd⟩
  · simp only [Command.op] at hg
    exact .inr (.inl ⟨_, _, by rw [h, Res.andThen_ok, hg, Res.andThen_raise]; rfl, .inr rfl, rfl, hd.raise _⟩)
  · exact .inr (.inl ⟨_, t, by rw [h, Res.andThen_raised], .inl rfl, rfl, ht⟩)
  · exact .inr (.inr ⟨t, by rw [h, Res.andThen_silent], ht⟩)

/-- GET_VARIANT's lines (R102). -/
theorem variantLines_cases (s : State) :
    (∃ w t, variantLines s = .ok () (t.setWord w) ∧ DoneTrail .getVariant frameGetVariant s t) ∨
    (∃ e t, variantLines s = .raised e t ∧ e.kind ≠ .none ∧ RaisedTrail 3 frameGetVariant s t) ∨
    (∃ t, variantLines s = .silent t ∧ SilentTrail frameGetVariant s t) := by
  unfold variantLines
  rcases oneGroup_cases .getVariant frameGetVariant s rfl with ⟨t, w, h, hg, hd⟩ | ⟨t, i, h, hg, hd⟩ | ⟨i, t, h, ht⟩ |
    ⟨t, h, ht⟩
  · simp only [Command.op] at hg
    rw [h, Res.andThen_ok, hg, Res.andThen_ok]
    split
    · exact .inl ⟨w, t, rfl, hd⟩
    · exact .inr (.inl ⟨_, _, rfl, by simp [protocolErr], hd.raise _⟩)
  · simp only [Command.op] at hg
    exact .inr (.inl ⟨_, _, by rw [h, Res.andThen_ok, hg, Res.andThen_raise]; rfl, by simp [checksumErr], hd.raise _⟩)
  · exact .inr (.inl ⟨_, t, by rw [h, Res.andThen_raised], by simp [transportErr], ht⟩)
  · exact .inr (.inr ⟨t, by rw [h, Res.andThen_silent], ht⟩)

/-- SELF_TEST's lines (R103): PASSED is written once the checksum holds. -/
theorem selfTestLines_cases (s : State) :
    (∃ t, selfTestLines s = .ok () ((t.setPassed 0).setWord 0) ∧ DoneTrail .selfTest frameSelfTest s t) ∨
    (∃ w t, w ≠ 0 ∧ selfTestLines s = .raised (protocolErr 0x3#4 w) (t.setPassed w) ∧
      RaisedTrail 3 frameSelfTest s t) ∨
    (∃ e t, selfTestLines s = .raised e t ∧ e.kind ≠ .none ∧ RaisedTrail 3 frameSelfTest s t) ∨
    (∃ t, selfTestLines s = .silent t ∧ SilentTrail frameSelfTest s t) := by
  unfold selfTestLines
  rcases oneGroup_cases .selfTest frameSelfTest s rfl with ⟨t, w, h, hg, hd⟩ | ⟨t, i, h, hg, hd⟩ | ⟨i, t, h, ht⟩ |
    ⟨t, h, ht⟩
  · simp only [Command.op] at hg
    rw [h, Res.andThen_ok, hg, Res.andThen_ok]
    split
    · rename_i hw
      subst hw
      exact .inl ⟨t, rfl, hd⟩
    · rename_i hw
      exact .inr (.inl ⟨w, _, hw, rfl, hd.raise _⟩)
  · simp only [Command.op] at hg
    exact .inr (.inr (.inl ⟨_, _, by rw [h, Res.andThen_ok, hg, Res.andThen_raise]; rfl, by simp [checksumErr], hd.raise _⟩))
  · exact .inr (.inr (.inl ⟨_, t, by rw [h, Res.andThen_raised], by simp [transportErr], ht⟩))
  · exact .inr (.inr (.inr ⟨t, by rw [h, Res.andThen_silent], ht⟩))

/-- READ_MEAS's lines (R105): the three words and the clock sample, TRANSPORT or CHECKSUM with OP = 0x5, or no answer. -/
theorem readMeasLines_cases (s : State) :
    (∃ w1 w2 w3 t, readMeasLines s = .ok () ((now t).2.setMeas w1 w2 w3 (now t).1) ∧
      DoneTrail .readMeas frameReadMeas s t) ∨
    (∃ e t, readMeasLines s = .raised e t ∧ (e.kind = .transport ∨ e.kind = .checksum) ∧ e.op = 0x5#4 ∧
      RaisedTrail 9 frameReadMeas s t) ∨
    (∃ t, readMeasLines s = .silent t ∧ SilentTrail frameReadMeas s t) := by
  unfold readMeasLines
  rcases xact_response_cases .readMeas frameReadMeas s (by decide) with ⟨t, b, h, hd, hb, hrx⟩ | ⟨i, t, h, ht⟩ |
    ⟨t, h, ht⟩
  · rw [h, Res.andThen_ok]
    simp only [Command.respLen] at hb
    have h1 := checkGroup_whole (op := 0x5#4) (k := 1) hrx (by simp [groupOffset]; omega)
    have h2 := checkGroup_whole (op := 0x5#4) (k := 2) hrx (by simp [groupOffset]; omega)
    have h3 := checkGroup_whole (op := 0x5#4) (k := 3) hrx (by simp [groupOffset]; omega)
    rw [h1]
    split
    · rw [Res.andThen_ok, h2]
      split
      · rw [Res.andThen_ok, h3]
        split
        · exact .inl ⟨_, _, _, t, rfl, hd⟩
        · exact .inr (.inl ⟨_, _, rfl, .inr rfl, rfl, hd.raise _⟩)
      · exact .inr (.inl ⟨_, _, rfl, .inr rfl, rfl, hd.raise _⟩)
    · exact .inr (.inl ⟨_, _, rfl, .inr rfl, rfl, hd.raise _⟩)
  · exact .inr (.inl ⟨_, t, by rw [h, Res.andThen_raised], .inl rfl, rfl, ht⟩)
  · exact .inr (.inr ⟨t, by rw [h, Res.andThen_silent], ht⟩)

/-- FRC's lines (R109), for any frame that is sent. -/
theorem frcLines_cases (f : List Byte) (s : State) :
    (∃ w t, frcLines f s = .ok () ((t.setWord w).setCorr w) ∧ DoneTrail .frc f s t) ∨
    (∃ e t, frcLines f s = .raised e t ∧ e.kind ≠ .none ∧ RaisedTrail 3 f s t) ∨
    (∃ t, frcLines f s = .silent t ∧ SilentTrail f s t) := by
  unfold frcLines
  rcases xact_response_cases .frc f s (by decide) with ⟨t, b, h, hd, hb, hrx⟩ | ⟨i, t, h, ht⟩ | ⟨t, h, ht⟩
  · rw [h, Res.andThen_ok]
    simp only [Command.respLen] at hb
    have h1 := checkGroup_whole (op := 0x9#4) (k := 1) hrx (by simp [groupOffset]; omega)
    have r0 := rx_filled hrx (i := 0) (by omega)
    have r1 := rx_filled hrx (i := 1) (by omega)
    simp only [frcDecode, readRx, r0, r1, Res.andThen_ok]
    split
    · exact .inr (.inl ⟨_, _, rfl, by simp [protocolErr], hd.raise _⟩)
    · rw [h1]
      split
      · exact .inl ⟨_, t, rfl, hd⟩
      · exact .inr (.inl ⟨_, _, rfl, by simp [checksumErr], hd.raise _⟩)
  · exact .inr (.inl ⟨_, t, by rw [h, Res.andThen_raised], by simp [transportErr], ht⟩)
  · exact .inr (.inr ⟨t, by rw [h, Res.andThen_silent], ht⟩)

end Sys2Proof.Machine
end

