-- ==== Sys2Proof/Laws/Kept.lean ====
section
/-! SUPPORT. What every rule's lines keep, in a form that composes: the host's side and the status of the request, the
port's laws, the observer's promises, the clock's order, and the buffers past the frame and the response. -/

namespace Sys2Proof.Machine

/-- Progress that takes no sample and leaves the clock's order alone. -/
theorem sampled_of_eq {s t : State} (h : samplesOf t.trace = samplesOf s.trace)
    (k : t.clock.afterXact = s.clock.afterXact) (hs : Sampled s) : Sampled t := by
  rw [Sampled, h, k]
  exact hs

theorem Quiet.sampled {s t : State} (h : Quiet s t) : Sampled s → Sampled t := sampled_of_eq h.samples h.afterXact

/-- What the lines of a request keep between `s` and `t`, when they send frames of at most `n` bytes and read responses of
at most `m`. -/
structure Kept (n m : Nat) (s t : State) : Prop where
  params : t.params = s.params
  curOp : t.seq.curOp = s.seq.curOp
  req : t.req = s.req
  term : t.term = s.term
  busy : t.status.busy = s.status.busy
  done : t.status.done = s.status.done
  rvalid : t.status.rvalid = s.status.rvalid
  err : t.err = s.err
  errInfo : t.errInfo = s.errInfo
  acc : t.acc = s.acc
  measuring : t.measuring = s.measuring
  host : t.env.host = s.env.host
  shutdown : s.shutdown = true → t.shutdown = true
  trace : ∃ evs, t.trace = evs ++ s.trace
  lawful : s.trace.all Event.lawful = true → t.trace.all Event.lawful = true
  waiting : s.measuring = true → s.env.observer ≠ .passed → t.env.observer ≠ .passed
  asked : (s.env.observer ≠ .resting → s.shutdown = true) → t.env.observer ≠ .resting → t.shutdown = true
  later : s.clock.Le t.clock
  afterXact : s.clock.afterXact ≤ t.clock.afterXact
  tx : TxKept n s t
  rx : RxKept m s t
  txForm : Memory.wf s.txbuf = true ∧ Memory.within txLen s.txbuf = true →
    Memory.wf t.txbuf = true ∧ Memory.within txLen t.txbuf = true
  rxForm : Memory.wf s.rxbuf = true ∧ Memory.within rxLen s.rxbuf = true →
    Memory.wf t.rxbuf = true ∧ Memory.within rxLen t.rxbuf = true
  ready : s.status.ready = readyFlag s.results.drdy → t.status.ready = readyFlag t.results.drdy
  still : Still s t
  sampled : Sampled s → Sampled t

theorem Kept.refl {n m : Nat} (s : State) : Kept n m s s :=
  ⟨rfl, rfl, rfl, rfl, rfl, rfl, rfl, rfl, rfl, rfl, rfl, rfl, id, ⟨[], rfl⟩, id, fun _ h => h, fun h => h,
    .refl _, Nat.le_refl _, fun _ _ => rfl, fun _ _ => rfl, id, id, id, .of_eq rfl rfl, id⟩

theorem Kept.trans {n m : Nat} {s t u : State} (h : Kept n m s t) (k : Kept n m t u) : Kept n m s u := by
  obtain ⟨e1, h1⟩ := h.trace
  obtain ⟨e2, h2⟩ := k.trace
  exact ⟨k.params.trans h.params, k.curOp.trans h.curOp, k.req.trans h.req, k.term.trans h.term,
    k.busy.trans h.busy, k.done.trans h.done, k.rvalid.trans h.rvalid, k.err.trans h.err,
    k.errInfo.trans h.errInfo, k.acc.trans h.acc, k.measuring.trans h.measuring, k.host.trans h.host,
    fun x => k.shutdown (h.shutdown x), ⟨e2 ++ e1, by rw [h2, h1, List.append_assoc]⟩,
    fun x => k.lawful (h.lawful x), fun x o => k.waiting (by rw [h.measuring]; exact x) (h.waiting x o),
    fun a => k.asked (h.asked a), h.later.trans k.later, Nat.le_trans h.afterXact k.afterXact,
    fun a ha => (k.tx a ha).trans (h.tx a ha), fun a ha => (k.rx a ha).trans (h.rx a ha),
    fun x => k.txForm (h.txForm x), fun x => k.rxForm (h.rxForm x), fun x => k.ready (h.ready x),
    h.still.trans k.still, fun x => k.sampled (h.sampled x)⟩

theorem Kept.mono {n n' m m' : Nat} {s t : State} (h : Kept n m s t) (hn : n ≤ n') (hm : m ≤ m') : Kept n' m' s t :=
  { h with tx := fun a ha => h.tx a (by omega), rx := fun a ha => h.rx a (by omega) }

/-- A step that touches neither the buffers, nor the observer, nor the events, nor the clock. -/
theorem kept_setPhase {n m : Nat} (s : State) (p : Phase) : Kept n m s (s.setPhase p) :=
  ⟨rfl, rfl, rfl, rfl, rfl, rfl, rfl, rfl, rfl, rfl, rfl, rfl, id, ⟨[], rfl⟩, id, fun _ h => h, fun h => h,
    .refl _, Nat.le_refl _, fun _ _ => rfl, fun _ _ => rfl, id, id, id, .of_eq rfl rfl, id⟩

theorem kept_setWord {n m : Nat} (s : State) (w : Word) : Kept n m s (s.setWord w) :=
  ⟨rfl, rfl, rfl, rfl, rfl, rfl, rfl, rfl, rfl, rfl, rfl, rfl, id, ⟨[], rfl⟩, id, fun _ h => h, fun h => h,
    .refl _, Nat.le_refl _, fun _ _ => rfl, fun _ _ => rfl, id, id, id, .of_eq rfl rfl, id⟩

theorem kept_setDrdy {n m : Nat} (s : State) (w : Word) : Kept n m s (s.setDrdy w) :=
  ⟨rfl, rfl, rfl, rfl, rfl, rfl, rfl, rfl, rfl, rfl, rfl, rfl, id, ⟨[], rfl⟩, id, fun _ h => h, fun h => h,
    .refl _, Nat.le_refl _, fun _ _ => rfl, fun _ _ => rfl, id, id, fun _ => rfl, .of_eq rfl rfl, id⟩

theorem kept_setPassed {n m : Nat} (s : State) (w : Word) : Kept n m s (s.setPassed w) :=
  ⟨rfl, rfl, rfl, rfl, rfl, rfl, rfl, rfl, rfl, rfl, rfl, rfl, id, ⟨[], rfl⟩, id, fun _ h => h, fun h => h,
    .refl _, Nat.le_refl _, fun _ _ => rfl, fun _ _ => rfl, id, id, id, .of_eq rfl rfl, id⟩

theorem kept_setCorr {n m : Nat} (s : State) (w : Word) : Kept n m s (s.setCorr w) :=
  ⟨rfl, rfl, rfl, rfl, rfl, rfl, rfl, rfl, rfl, rfl, rfl, rfl, id, ⟨[], rfl⟩, id, fun _ h => h, fun h => h,
    .refl _, Nat.le_refl _, fun _ _ => rfl, fun _ _ => rfl, id, id, id, .of_eq rfl rfl, id⟩

theorem kept_setMeas {n m : Nat} (s : State) (w1 w2 w3 : Word) (t : Nat) : Kept n m s (s.setMeas w1 w2 w3 t) :=
  ⟨rfl, rfl, rfl, rfl, rfl, rfl, rfl, rfl, rfl, rfl, rfl, rfl, id, ⟨[], rfl⟩, id, fun _ h => h, fun h => h,
    .refl _, Nat.le_refl _, fun _ _ => rfl, fun _ _ => rfl, id, id, id, .of_eq rfl rfl, id⟩

theorem kept_setPState {n m : Nat} (s : State) (p : PState) : Kept n m s (s.setPState p) :=
  ⟨rfl, rfl, rfl, rfl, rfl, rfl, rfl, rfl, rfl, rfl, rfl, rfl, id, ⟨[], rfl⟩, id, fun _ h => h, fun h => h,
    .refl _, Nat.le_refl _, fun _ _ => rfl, fun _ _ => rfl, id, id, id, .of_eq rfl rfl, id⟩

theorem kept_nextAttempt {n m : Nat} (s : State) : Kept n m s (nextAttempt s) :=
  ⟨rfl, rfl, rfl, rfl, rfl, rfl, rfl, rfl, rfl, rfl, rfl, rfl, id, ⟨[], rfl⟩, id, fun _ h => h, fun h => h,
    .refl _, Nat.le_refl _, fun _ _ => rfl, fun _ _ => rfl, id, id, id, .of_eq rfl rfl, id⟩

theorem kept_pollEntry {n m : Nat} (s : State) : Kept n m s (pollEntry s) :=
  ⟨rfl, rfl, rfl, rfl, rfl, rfl, rfl, rfl, rfl, rfl, rfl, rfl, id, ⟨[], rfl⟩, id, fun _ h => h, fun h => h,
    .refl _, Nat.le_refl _, fun _ _ => rfl, fun _ _ => rfl, id, id, id, .of_eq rfl rfl, id⟩

theorem kept_setPerr {n m : Nat} (s : State) (e : Err) : Kept n m s (s.setPerr e) :=
  ⟨rfl, rfl, rfl, rfl, rfl, rfl, rfl, rfl, rfl, rfl, rfl, rfl, id, ⟨[], rfl⟩, id, fun _ h => h, fun h => h,
    .refl _, Nat.le_refl _, fun _ _ => rfl, fun _ _ => rfl, id, id, id, .of_eq rfl rfl, id⟩

theorem kept_setPerr2 {n m : Nat} (s : State) (k : ErrKind) : Kept n m s (s.setPerr2 k) :=
  ⟨rfl, rfl, rfl, rfl, rfl, rfl, rfl, rfl, rfl, rfl, rfl, rfl, id, ⟨[], rfl⟩, id, fun _ h => h, fun h => h,
    .refl _, Nat.le_refl _, fun _ _ => rfl, fun _ _ => rfl, id, id, id, .of_eq rfl rfl, id⟩

/-- An event that keeps the port's laws and is no clock sample. -/
theorem kept_log {n m : Nat} (s : State) (e : Event) (hl : e.lawful = true) (hs : e.sampled = none) :
    Kept n m s (s.log e) :=
  ⟨rfl, rfl, rfl, rfl, rfl, rfl, rfl, rfl, rfl, rfl, rfl, rfl, id, ⟨[e], rfl⟩, fun h => by simp [hl, h],
    fun _ h => h, fun h => h, .refl _, Nat.le_refl _, fun _ _ => rfl, fun _ _ => rfl, id, id, id, .of_eq rfl rfl,
    fun h => by rw [Sampled, log_trace, samplesOf, List.filterMap_cons_none hs]; exact h⟩

theorem kept_emit {n m : Nat} (s : State) (rec : Reading) : Kept n m s (emit rec s) := kept_log s _ rfl rfl

theorem kept_raise {n m : Nat} (s : State) (e : Err) : Kept n m s (s.log (.raise e)) := kept_log s _ rfl rfl

theorem kept_goto {n m : Nat} (s : State) (l : Phase) : Kept n m s (goto l s) :=
  (kept_log s _ rfl rfl).trans (kept_setPhase _ l)

theorem ObserverOnly.kept {n m : Nat} {s t : State} (h : ObserverOnly s t) (hs : Still s t) : Kept n m s t := by
  have q := h.quiet hs
  exact ⟨h.same.params, h.same.curOp, h.same.req, h.same.term, congrArg StatusBits.busy h.same.status,
    congrArg StatusBits.done h.same.status, congrArg StatusBits.rvalid h.same.status, h.same.err, h.same.errInfo,
    h.same.acc, h.same.measuring, h.same.host, h.same.shutdown, h.same.trace, q.lawful, q.waiting, q.asked, q.later,
    Nat.le_of_eq q.afterXact.symm, fun a _ => by rw [h.txbuf], fun a _ => by rw [h.rxbuf], by rw [h.txbuf]; exact id,
    by rw [h.rxbuf]; exact id, by rw [h.same.status, h.same.results]; exact id, hs,
    q.sampled⟩

theorem kept_observerTurn {n m : Nat} (s : State) : Kept n m s (observerTurn s) := 
  (observerTurn_only s).kept (observerTurn_still s)

theorem kept_delay {n m : Nat} (why : Wait) (s : State) : Kept n m s (delay why s) := by
  have h2 : ∀ (u : State) (d : Nat), Kept n m u (u.advance d) := fun u d =>
    ⟨rfl, rfl, rfl, rfl, rfl, rfl, rfl, rfl, rfl, rfl, rfl, rfl, id, ⟨[], rfl⟩, id, fun _ h => h, fun h => h,
      ⟨Nat.le_add_right _ _, Nat.le_refl _⟩, Nat.le_refl _, fun _ _ => rfl, fun _ _ => rfl, id, id, id, .of_eq rfl rfl, id⟩
  exact ((kept_log s _ rfl rfl).trans (kept_observerTurn _)).trans (h2 _ _)

/-- A clock sample. It keeps the clock's order where the last sample is not later than the earliest lawful one. -/
theorem kept_now {n m : Nat} (s : State) (h : s.clock.afterXact ≤ s.least + 1) : Kept n m s (now s).2 := by
  obtain ⟨k, hk, hn⟩ := now_spec s
  rw [hn]
  exact ⟨rfl, rfl, rfl, rfl, rfl, rfl, rfl, rfl, rfl, rfl, rfl, rfl, id, ⟨[.now (now s).1], rfl⟩,
    fun h => by simp [Event.lawful, h], fun _ h => h, fun h => h,
    ⟨Nat.le_max_left _ _, Nat.le_refl _⟩, by show s.clock.afterXact ≤ (now s).1 + 1; omega, fun _ _ => rfl, fun _ _ => rfl,
    id, id, id, .of_eq rfl rfl, fun hs n hn => by
      rcases List.mem_cons.1 hn with rfl | hn
      · exact Nat.lt_succ_self _
      · exact Nat.lt_of_lt_of_le (hs n hn) (by show s.clock.afterXact ≤ (now s).1 + 1; omega)⟩

/-- The bus traffic of a transaction that sends a whole frame of the block. -/
theorem XactTrail.kept {f : List Byte} {n m : Nat} {s t : State} (h : XactTrail f s t) (hr : RxAfter m s t)
    (hf : ∃ i, takeFrame f = .ok (i, [])) (hn : f.length ≤ n) (hn5 : f.length ≤ txLen) (hm : m ≤ rxLen) :
    Kept n m s t := by
  obtain ⟨b, hb, hrx⟩ := hr
  have hbm : b.length ≤ m := by
    rcases hb with rfl | hb
    · exact Nat.zero_le _
    · exact Nat.le_of_eq hb
  refine ⟨h.same.params, h.same.curOp, h.same.req, h.same.term, congrArg StatusBits.busy h.same.status,
    congrArg StatusBits.done h.same.status, congrArg StatusBits.rvalid h.same.status, h.same.err, h.same.errInfo,
    h.same.acc, h.same.measuring, h.same.host, h.same.shutdown, h.same.trace, h.lawful hf, h.waiting, h.asked, h.later,
    Nat.le_of_eq h.afterXact.symm, ?_, ?_, ?_, ?_, by rw [h.same.status, h.same.results]; exact id, h.still,
    sampled_of_eq h.samples h.afterXact⟩
  · intro a ha
    rw [h.txbuf, Memory.read_writeAll_after _ _ _ _ (by omega)]
  · intro a ha
    rw [hrx, Memory.read_writeAll_after _ _ _ _ (by omega)]
  · intro hx
    rw [h.txbuf]
    exact ⟨Memory.wf_writeAll _ _ _ hx.1, Memory.within_writeAll _ _ _ (by omega) hx.2⟩
  · intro hx
    rw [hrx]
    exact ⟨Memory.wf_writeAll _ _ _ hx.1, Memory.within_writeAll _ _ _ (by omega) hx.2⟩

theorem RaisedTrail.kept {f : List Byte} {n m : Nat} {s t : State} (h : RaisedTrail m f s t)
    (hf : ∃ i, takeFrame f = .ok (i, [])) (hn : f.length ≤ n) (hn5 : f.length ≤ txLen) (hm : m ≤ rxLen) :
    Kept n m s t := h.toXactTrail.kept h.rx hf hn hn5 hm

theorem SilentTrail.kept {f : List Byte} {n m : Nat} {s t : State} (h : SilentTrail f s t)
    (hf : ∃ i, takeFrame f = .ok (i, [])) (hn : f.length ≤ n) (hn5 : f.length ≤ txLen) (hm : m ≤ rxLen) :
    Kept n m s t := h.toXactTrail.kept (.of_eq h.rx) hf hn hn5 hm

theorem DoneTrail.kept {c : Command} {f : List Byte} {n : Nat} {s t : State} (h : DoneTrail c f s t)
    (hf : ∃ i, takeFrame f = .ok (i, [])) (hn : f.length ≤ n) (hn5 : f.length ≤ txLen) :
    Kept n c.respLen s t := h.toXactTrail.kept h.rx hf hn hn5 (by cases c <;> decide)

/-! ### The eight frames are whole frames of the block -/

theorem whole_getVariant : ∃ i, takeFrame frameGetVariant = .ok (i, []) := ⟨_, rfl⟩
theorem whole_selfTest : ∃ i, takeFrame frameSelfTest = .ok (i, []) := ⟨_, rfl⟩
theorem whole_getDrdy : ∃ i, takeFrame frameGetDrdy = .ok (i, []) := ⟨_, rfl⟩
theorem whole_readMeas : ∃ i, takeFrame frameReadMeas = .ok (i, []) := ⟨_, rfl⟩
theorem whole_measSingle : ∃ i, takeFrame frameMeasSingle = .ok (i, []) := ⟨_, rfl⟩
theorem whole_startPeriodic : ∃ i, takeFrame frameStartPeriodic = .ok (i, []) := ⟨_, rfl⟩
theorem whole_stopPeriodic : ∃ i, takeFrame frameStopPeriodic = .ok (i, []) := ⟨_, rfl⟩

theorem takeFrame_frcOf (target : Word) (ck : Byte) (rest : List Byte) :
    takeFrame (frameFrcOf target ck ++ rest) =
      if ck = targetCk target then .ok (.frameFrc (be16 (hiByte target) (loByte target)) ck, rest)
      else .error .badChecksum := by
  rfl

theorem whole_frcOf {target : Word} {ck : Byte} (h : ck = targetCk target) :
    ∃ i, takeFrame (frameFrcOf target ck) = .ok (i, []) := by
  have := takeFrame_frcOf target ck []
  rw [List.append_nil, if_pos h] at this
  exact ⟨_, this⟩

end Sys2Proof.Machine
end

