-- ==== Sys2Proof/Laws/Poll.lean ====
section
/-! SUPPORT. The lines that POLL_READY and SESSION call: what `QueryReady`, READ_MEAS and the write-only commands keep, and
every way a poll can end (43_polling.md R121 to R127). -/

namespace Sys2Proof.Machine

/-- What the lines called by a poll or a session leave besides `Kept`: the registers none of them writes. -/
structure Called (s t : State) : Prop extends Kept 2 9 s t where
  passed : t.status.passed = s.status.passed
  session : t.session = s.session
  corr : t.results.corr = s.results.corr
  corrWritten : t.results.corrWritten = s.results.corrWritten
  readings : readingsOf t.trace = readingsOf s.trace

theorem Called.refl (s : State) : Called s s := ⟨.refl s, rfl, rfl, rfl, rfl, rfl⟩

theorem Called.trans {s t u : State} (h : Called s t) (k : Called t u) : Called s u :=
  ⟨h.toKept.trans k.toKept, k.passed.trans h.passed, k.session.trans h.session, k.corr.trans h.corr,
    k.corrWritten.trans h.corrWritten, k.readings.trans h.readings⟩

theorem Called.hostSide {s t : State} (h : Called s t) : SameHostSide s t :=
  ⟨h.params, h.req, h.term, h.measuring, h.session, h.host, h.shutdown,
    h.still, h.trace⟩

theorem XactTrail.called {f : List Byte} {m : Nat} {s t : State} (h : XactTrail f s t) (hr : RxAfter m s t)
    (hf : ∃ i, takeFrame f = .ok (i, [])) (hn : f.length = 2) (hm : m ≤ 9) : Called s t :=
  ⟨(h.kept hr hf (Nat.le_refl _) (by rw [hn]; decide) hm).mono (by omega) hm,
    congrArg StatusBits.passed h.same.status, h.same.session, congrArg Results.corr h.same.results,
    congrArg Results.corrWritten h.same.results, h.readings⟩

theorem called_setPhase (s : State) (p : Phase) : Called s (s.setPhase p) := ⟨kept_setPhase s p, rfl, rfl, rfl, rfl, rfl⟩

theorem called_setPState (s : State) (p : PState) : Called s (s.setPState p) :=
  ⟨kept_setPState s p, rfl, rfl, rfl, rfl, rfl⟩

theorem called_raise (s : State) (e : Err) : Called s (s.log (.raise e)) := ⟨kept_raise s e, rfl, rfl, rfl, rfl, rfl⟩

theorem called_nextAttempt (s : State) : Called s (nextAttempt s) := ⟨kept_nextAttempt s, rfl, rfl, rfl, rfl, rfl⟩

theorem called_pollEntry (s : State) : Called s (pollEntry s) := ⟨kept_pollEntry s, rfl, rfl, rfl, rfl, rfl⟩

theorem called_word (s : State) (w : Word) : Called s ((s.setWord w).setDrdy w) :=
  ⟨(kept_setWord s w).trans (kept_setDrdy _ w), rfl, rfl, rfl, rfl, rfl⟩

/-- What a delay of POLL_INTERVAL leaves (R123). -/
theorem delay_poll (s : State) :
    Called s (delay .poll s) ∧ (delay .poll s).results = s.results ∧ (delay .poll s).poll = s.poll ∧
      (delay .poll s).rxbuf = s.rxbuf ∧ (delay .poll s).env.silent = s.env.silent ∧
      framesOf (delay .poll s).trace = framesOf s.trace ∧ pollDelays (delay .poll s).trace = pollDelays s.trace + 1 ∧
      (delay .poll s).clock.time = s.clock.time + s.params.pollInterval ∧
      samplesOf (delay .poll s).trace = samplesOf s.trace := by
  have h := observerTurn_only (s.log (.delay .poll (waitTicks .poll s.params)))
  have hc := h.counts
  have hd := delay_same .poll s
  have hf := delay_fields .poll s
  refine ⟨⟨kept_delay .poll s, congrArg StatusBits.passed hd.status, hd.session, congrArg Results.corr hd.results,
    congrArg Results.corrWritten hd.results, ?_⟩, hd.results, hd.poll, hf.2.1, hf.2.2.1, ?_, ?_, ?_, hc.samples⟩
  · exact hc.readings
  · exact hc.frames
  · refine Eq.trans hc.delays ?_
    exact List.countP_cons_of_pos rfl
  · rw [hf.2.2.2.2]
    rfl

/-! ### One attempt -/

/-- One exchange of a poll: what it leaves, however it ends. -/
structure Attempted (s t : State) : Prop extends Called s t where
  frames : framesOf t.trace = frameGetDrdy :: framesOf s.trace
  delays : pollDelays t.trace = pollDelays s.trace
  poll : t.poll = s.poll
  results : t.results =
    { s.results with
      word := t.results.word, wordWritten := t.results.wordWritten
      drdy := t.results.drdy, drdyWritten := t.results.drdyWritten }
  rx3 : RxKept 3 s t
  samples : samplesOf t.trace = samplesOf s.trace

theorem XactTrail.attempted {m : Nat} {s t : State} (h : XactTrail frameGetDrdy s t) (hr : RxAfter m s t)
    (hm : m ≤ 3) : Attempted s t :=
  ⟨h.called hr whole_getDrdy rfl (by omega), h.frames, h.delays, h.same.poll, by rw [h.same.results],
    ((h.kept hr whole_getDrdy (Nat.le_refl _) (by decide) (by simp [rxLen]; omega)).mono (Nat.le_refl _) hm).rx,
    h.samples⟩

/-- `QueryReady` as an attempt of a poll (R122). -/
theorem attempt_cases (s : State) :
    (∃ w t, queryReady s = .ok (decide (w &&& 0x07FF#16 ≠ 0)) t ∧ Attempted s t ∧ t.env.silent = s.env.silent ∧
      t.results.word = w ∧ t.status.ready = decide (w &&& 0x07FF#16 ≠ 0) ∧
      s.clock.time + s.params.tExec.getDrdy ≤ t.clock.time ∧ s.clock.afterXact ≤ t.least) ∨
    (∃ e t, queryReady s = .raised e t ∧ (e.kind = .transport ∨ e.kind = .checksum) ∧ e.op = 0x4#4 ∧ Attempted s t ∧
      t.env.silent = s.env.silent) ∨
    (∃ t, queryReady s = .silent t ∧ Attempted s t ∧ t.env.silent = true ∧
      (t.seq.phase = .xWrite ∨ t.seq.phase = .xRead)) := by
  rcases queryReady_cases s with ⟨w, t, h, hd⟩ | ⟨e, t, h, hk, ho, ht⟩ | ⟨t, h, ht⟩
  · have ha := hd.toXactTrail.attempted hd.rx (Nat.le_refl _)
    refine .inl ⟨w, _, by rw [h, readyFlag_eq], ⟨ha.toCalled.trans (called_word t w), ha.frames, ha.delays, ha.poll, ?_,
      ha.rx3, ha.samples⟩, hd.silent, rfl, ?_, hd.waited, hd.advanced⟩
    · have := hd.same.results
      simp only [setDrdy_results, setWord_results, this]
    · simp only [setDrdy_status, readyFlag_eq]
  · exact .inr (.inl ⟨e, t, h, hk, ho, ht.toXactTrail.attempted ht.rx (Nat.le_refl _), ht.silent⟩)
  · exact .inr (.inr ⟨t, h, ht.toXactTrail.attempted (m := 0) (.of_eq ht.rx) (by omega), ht.silent, ht.phase⟩)

/-! ### A poll -/

/-- What a poll of `k` exchanges leaves, from its first attempt on. -/
structure Polled (k : Nat) (s t : State) : Prop extends Called s t where
  frames : framesOf t.trace = List.replicate k frameGetDrdy ++ framesOf s.trace
  delays : pollDelays t.trace = pollDelays s.trace + (k - 1)
  attempt : t.poll.attempt = s.poll.attempt + BitVec.ofNat 4 (k - 1)
  results : t.results =
    { s.results with
      word := t.results.word, wordWritten := t.results.wordWritten
      drdy := t.results.drdy, drdyWritten := t.results.drdyWritten }
  rx3 : RxKept 3 s t
  samples : samplesOf t.trace = samplesOf s.trace

theorem Attempted.polled {s t : State} (h : Attempted s t) : Polled 1 s t :=
  ⟨h.toCalled, h.frames, by simp [h.delays], by simp [h.poll], h.results, h.rx3, h.samples⟩

theorem Polled.setPState {k : Nat} {s t : State} (h : Polled k s t) (p : PState) : Polled k s (t.setPState p) :=
  ⟨h.toCalled.trans (called_setPState t p), h.frames, h.delays, h.attempt, h.results, h.rx3, h.samples⟩

theorem Polled.raise {k : Nat} {s t : State} (h : Polled k s t) (e : Err) : Polled k s (t.log (.raise e)) :=
  ⟨h.toCalled.trans (called_raise t e), h.frames, h.delays, h.attempt, h.results, h.rx3, h.samples⟩

/-- The retry between two attempts (R123): the sleep, and ATTEMPT + 1. -/
theorem retry_spec (s : State) :
    Called s (nextAttempt (delay .poll (s.setPhase .pSleep))) ∧
      (nextAttempt (delay .poll (s.setPhase .pSleep))).results = s.results ∧
      (nextAttempt (delay .poll (s.setPhase .pSleep))).poll = { s.poll with attempt := s.poll.attempt + 1 } ∧
      (nextAttempt (delay .poll (s.setPhase .pSleep))).rxbuf = s.rxbuf ∧
      (nextAttempt (delay .poll (s.setPhase .pSleep))).env.silent = s.env.silent ∧
      framesOf (nextAttempt (delay .poll (s.setPhase .pSleep))).trace = framesOf s.trace ∧
      pollDelays (nextAttempt (delay .poll (s.setPhase .pSleep))).trace = pollDelays s.trace + 1 ∧
      (nextAttempt (delay .poll (s.setPhase .pSleep))).clock.time = s.clock.time + s.params.pollInterval ∧
      samplesOf (nextAttempt (delay .poll (s.setPhase .pSleep))).trace = samplesOf s.trace := by
  obtain ⟨h1, h2, h3, h4, h5, h6, h7, h8, h9⟩ := delay_poll (s.setPhase .pSleep)
  refine ⟨((called_setPhase s _).trans h1).trans (called_nextAttempt _), h2, ?_, h4, h5, h6, h7, h8, h9⟩
  rw [nextAttempt_poll, h3]
  rfl

/-- An attempt that was not ready, its retry, and `k` further exchanges. -/
theorem Polled.step {k : Nat} {s t u : State} (ha : Attempted s t)
    (h : Polled k (nextAttempt (delay .poll (t.setPhase .pSleep))) u) (hk : 1 ≤ k) : Polled (k + 1) s u := by
  obtain ⟨r1, r2, r3, r4, r5, r6, r7, r8, r9⟩ := retry_spec t
  refine ⟨(ha.toCalled.trans r1).trans h.toCalled, ?_, ?_, ?_, ?_, ?_, h.samples.trans (r9.trans ha.samples)⟩
  · rw [h.frames, r6, ha.frames, List.replicate_succ', List.append_assoc]
    rfl
  · rw [h.delays, r7, ha.delays]
    omega
  · rw [h.attempt, r3, ha.poll]
    obtain ⟨j, rfl⟩ : ∃ j, k = j + 1 := ⟨k - 1, by omega⟩
    simp only [Nat.add_sub_cancel, BitVec.ofNat_add, BitVec.add_assoc]
    congr 1
    exact BitVec.add_comm _ _
  · rw [h.results, r2, ha.results]
  · intro a hx
    rw [h.rx3 a hx, show (nextAttempt (delay .poll (t.setPhase .pSleep))).rxbuf = t.rxbuf from r4, ha.rx3 a hx]

/-- Every way a poll can end, with `left` attempts allowed after the first. It never faults. -/
theorem pollFrom_cases (left : Nat) : ∀ s : State,
    (∃ k t, 1 ≤ k ∧ k ≤ left + 1 ∧ pollFrom left s = .ok () t ∧ Polled k s t ∧ t.poll.pstate = .ready ∧
      t.status.ready = true ∧ t.env.silent = s.env.silent ∧ s.clock.afterXact ≤ t.least) ∨
    (∃ t, pollFrom left s = .raised timeoutErr t ∧ Polled (left + 1) s t ∧ t.poll.pstate = .failed ∧
      t.status.ready = false ∧ t.env.silent = s.env.silent ∧
      s.clock.time + left * s.params.pollInterval + (left + 1) * s.params.tExec.getDrdy ≤ t.clock.time) ∨
    (∃ k e t, 1 ≤ k ∧ k ≤ left + 1 ∧ pollFrom left s = .raised e t ∧ (e.kind = .transport ∨ e.kind = .checksum) ∧
      e.op = 0x4#4 ∧ Polled k s t ∧ t.poll.pstate = .failed ∧ t.env.silent = s.env.silent) ∨
    (∃ k t, 1 ≤ k ∧ k ≤ left + 1 ∧ pollFrom left s = .silent t ∧ Polled k s t ∧ t.poll.pstate = s.poll.pstate ∧
      t.env.silent = true ∧ (t.seq.phase = .xWrite ∨ t.seq.phase = .xRead)) := by
  induction left with
  | zero =>
    intro s
    rcases attempt_cases s with ⟨w, t, h, ha, hs, _, hr, hw, hx⟩ | ⟨e, t, h, hk, ho, ha, hs⟩ | ⟨t, h, ha, hs, hp⟩
    · by_cases hz : w &&& 0x07FF#16 ≠ 0
      · rw [decide_eq_true hz] at h hr
        exact .inl ⟨1, _, by omega, by omega, by rw [pollFrom, h], ha.polled.setPState _, rfl, hr, hs, hx⟩
      · rw [decide_eq_false hz] at h hr
        exact .inr (.inl ⟨_, by rw [pollFrom, h]; rfl, (ha.polled.setPState _).raise _, rfl, hr, hs, by simpa using hw⟩)
    · exact .inr (.inr (.inl ⟨1, e, _, by omega, by omega, by rw [pollFrom, h]; rfl, hk, ho, (ha.polled.setPState _).raise _, rfl, hs⟩))
    · exact .inr (.inr (.inr ⟨1, t, by omega, by omega, by rw [pollFrom, h], ha.polled, by rw [ha.poll], hs, hp⟩))
  | succ left ih =>
    intro s
    rcases attempt_cases s with ⟨w, t, h, ha, hs, _, hr, hw, hx⟩ | ⟨e, t, h, hk, ho, ha, hs⟩ | ⟨t, h, ha, hs, hp⟩
    · by_cases hz : w &&& 0x07FF#16 ≠ 0
      · rw [decide_eq_true hz] at h hr
        exact .inl ⟨1, _, by omega, by omega, by rw [pollFrom, h], ha.polled.setPState _, rfl, hr, hs, hx⟩
      · rw [decide_eq_false hz] at h hr
        have hstep : pollFrom (left + 1) s = pollFrom left (nextAttempt (delay .poll (t.setPhase .pSleep))) := by
          rw [pollFrom, h]
        obtain ⟨r1, r2, r3, r4, r5, r6, r7, r8, r9⟩ := retry_spec t
        rw [hstep]
        rcases ih (nextAttempt (delay .poll (t.setPhase .pSleep))) with ⟨k, u, h1, h2, hu, hp, hps, hrd, hsi, hax⟩ |
          ⟨u, hu, hp, hps, hrd, hsi, htm⟩ | ⟨k, e, u, h1, h2, hu, hk, ho, hp, hps, hsi⟩ |
          ⟨k, u, h1, h2, hu, hp, hps, hsi, hph⟩
        · refine .inl ⟨k + 1, u, by omega, by omega, hu, .step ha hp h1, hps, hrd, by rw [hsi, r5, hs], ?_⟩
          exact Nat.le_trans (Nat.le_trans ha.afterXact r1.afterXact) hax
        · refine .inr (.inl ⟨u, hu, .step ha hp (by omega), hps, hrd, by rw [hsi, r5, hs], ?_⟩)
          rw [r1.params, ha.params, r8, ha.params] at htm
          refine Nat.le_trans ?_ htm
          rw [Nat.add_mul left 1, Nat.add_mul (left + 1) 1]
          omega
        · exact .inr (.inr (.inl ⟨k + 1, e, u, by omega, by omega, hu, hk, ho, .step ha hp h1, hps,
            by rw [hsi, r5, hs]⟩))
        · refine .inr (.inr (.inr ⟨k + 1, u, by omega, by omega, hu, .step ha hp h1, ?_, hsi, hph⟩))
          rw [hps, r3, ha.poll]
    · exact .inr (.inr (.inl ⟨1, e, _, by omega, by omega, by rw [pollFrom, h]; rfl, hk, ho, (ha.polled.setPState _).raise _, rfl, hs⟩))
    · exact .inr (.inr (.inr ⟨1, t, by omega, by omega, by rw [pollFrom, h], ha.polled, by rw [ha.poll], hs, hp⟩))

/-- A poll from its entry (R121): its first attempt starts with ATTEMPT = 1 and ten more allowed. -/
theorem pollLines_eq (s : State) : pollLines s = pollFrom 10 (nextAttempt (pollEntry s)) := rfl

theorem called_entry (s : State) : Called s (nextAttempt (pollEntry s)) :=
  (called_pollEntry s).trans (called_nextAttempt _)

end Sys2Proof.Machine
end

