-- ==== Sys2Proof/Laws/Session.lean ====
section
/-! SUPPORT. The session (44_session.md R130 to R146): what its parts keep, every way a part can end, and that its loop
stays within its bound. -/

namespace Sys2Proof.Machine

/-- The frame that ends a session (41_command_codec.md R97). -/
abbrev stopFrame : List Byte := frameStopPeriodic

/-! ### The registers of polls and reads -/

/-- The registers of polls and reads are as they were: PSTATE, ATTEMPT, READY and every result register. -/
structure ReadKept (s t : State) : Prop where
  poll : t.poll = s.poll
  results : t.results = s.results
  ready : t.status.ready = s.status.ready

theorem ReadKept.trans {s t u : State} (h : ReadKept s t) (k : ReadKept t u) : ReadKept s u :=
  ⟨k.poll.trans h.poll, k.results.trans h.results, k.ready.trans h.ready⟩

theorem SameRegs.readKept {s t : State} (h : SameRegs s t) : ReadKept s t :=
  ⟨h.poll, h.results, congrArg StatusBits.ready h.status⟩

theorem ReadKept.pollKept {s t : State} (h : ReadKept s t) : PollKept s t := by
  rw [PollKept, h.results]
  exact ⟨h.poll, rfl, rfl, rfl, rfl, h.ready⟩

theorem ReadKept.polled {s t : State} {w : Word} {k : Nat} (h : ReadKept s t) (p : PolledReady w k s) :
    PolledReady w k t := by
  rw [PolledReady, h.poll, h.results, h.ready]
  exact p

theorem readingOf_eq {s t : State} (h : t.results = s.results) : readingOf t = readingOf s := by
  rw [readingOf, h]
  rfl

theorem ReadKept.held {s t : State} {r : Reading} (h : ReadKept s t) (p : MeasHeld r s) : MeasHeld r t := by
  rw [MeasHeld, readingOf_eq h.results, h.results]
  exact p

theorem measKept_of_eq {s t : State} (h : t.results = s.results) : MeasKept s t :=
  ⟨readingOf_eq h, by rw [h]⟩

theorem ReadKept.meas {s t : State} (h : ReadKept s t) : MeasKept s t := measKept_of_eq h.results

theorem MeasKept.trans {s t u : State} (h : MeasKept s t) (k : MeasKept t u) : MeasKept s u :=
  ⟨k.1.trans h.1, k.2.trans h.2⟩

theorem MeasKept.held {s t : State} {r : Reading} (h : MeasKept s t) (p : MeasHeld r s) : MeasHeld r t :=
  ⟨h.1.trans p.1, h.2.trans p.2⟩

/-- A poll leaves CO2, T_RAW, RH_RAW and TS alone. -/
theorem Polled.meas {k : Nat} {s t : State} (h : Polled k s t) : MeasKept s t := by
  rw [MeasKept, readingOf, h.results]
  exact ⟨rfl, rfl⟩

theorem PollKept.trans {s t u : State} (h : PollKept s t) (k : PollKept t u) : PollKept s u :=
  ⟨k.1.trans h.1, k.2.1.trans h.2.1, k.2.2.1.trans h.2.2.1, k.2.2.2.1.trans h.2.2.2.1,
    k.2.2.2.2.1.trans h.2.2.2.2.1, k.2.2.2.2.2.trans h.2.2.2.2.2⟩

/-- `P` holds where the frame `f` was not sent. -/
def Unsent (f : List Byte) (P : State → State → Prop) (s t : State) : Prop :=
  sentCount f t.trace = sentCount f s.trace → P s t

/-- The events only grow, and with them the count of a frame. -/
theorem sentCount_le {s t : State} (f : List Byte) (h : ∃ evs, t.trace = evs ++ s.trace) :
    sentCount f s.trace ≤ sentCount f t.trace := by
  obtain ⟨evs, h⟩ := h
  rw [h, sentCount, sentCount, framesOf_append, List.count_append]
  exact Nat.le_add_left _ _

/-- Of two parts that did not send the frame together, neither sent it. -/
theorem Unsent.trans {f : List Byte} {P : State → State → Prop} {s t u : State}
    (hP : P s t → P t u → P s u) (h : Unsent f P s t) (k : Unsent f P t u)
    (h1 : ∃ evs, t.trace = evs ++ s.trace) (h2 : ∃ evs, u.trace = evs ++ t.trace) : Unsent f P s u := fun he => by
  have := sentCount_le f h1
  have := sentCount_le f h2
  exact hP (h (by omega)) (k (by omega))

/-- A part that sent the frame. -/
theorem Unsent.sent {f : List Byte} {P : State → State → Prop} {s t : State}
    (h : sentCount f s.trace < sentCount f t.trace) : Unsent f P s t := fun he => by omega

theorem sentCount_cons {f : List Byte} {s t : State} (h : framesOf t.trace = f :: framesOf s.trace) :
    sentCount f s.trace < sentCount f t.trace := by
  rw [sentCount, sentCount, h, List.count_cons_self]
  exact Nat.lt_succ_self _

/-! ### Parts of a session -/

/-- What the parts of a session before its stop leave, but for the registers of a poll. -/
structure SessionPart (s t : State) : Prop extends Kept 2 9 s t where
  passed : t.status.passed = s.status.passed
  corr : t.results.corr = s.results.corr
  corrWritten : t.results.corrWritten = s.results.corrWritten
  onlyLast : t.session.onlyLast = s.session.onlyLast
  t0 : t.session.t0 = s.session.t0
  latched : t.session.term = s.session.term
  silent : t.env.silent = s.env.silent
  stops : sentCount stopFrame t.trace = sentCount stopFrame s.trace
  attempt : s.poll.attempt.toNat ≤ maxAttempts → t.poll.attempt.toNat ≤ maxAttempts
  meas : Unsent frameReadMeas MeasKept s t

/-- What the parts of a session before its stop leave. -/
structure SessionKept (s t : State) : Prop extends SessionPart s t where
  polled : Unsent frameGetDrdy PollKept s t

theorem SessionPart.trans {s t u : State} (h : SessionPart s t) (k : SessionPart t u) : SessionPart s u :=
  ⟨h.toKept.trans k.toKept, k.passed.trans h.passed, k.corr.trans h.corr, k.corrWritten.trans h.corrWritten,
    k.onlyLast.trans h.onlyLast, k.t0.trans h.t0, k.latched.trans h.latched, k.silent.trans h.silent, k.stops.trans h.stops,
    fun x => k.attempt (h.attempt x), h.meas.trans MeasKept.trans k.meas h.trace k.trace⟩

theorem SessionKept.trans {s t u : State} (h : SessionKept s t) (k : SessionKept t u) : SessionKept s u :=
  ⟨h.toSessionPart.trans k.toSessionPart, h.polled.trans PollKept.trans k.polled h.trace k.trace⟩

theorem Called.sessionPart {s t : State} (h : Called s t) (hsi : t.env.silent = s.env.silent)
    (hf : sentCount stopFrame t.trace = sentCount stopFrame s.trace)
    (ha : s.poll.attempt.toNat ≤ maxAttempts → t.poll.attempt.toNat ≤ maxAttempts)
    (hm : Unsent frameReadMeas MeasKept s t) : SessionPart s t :=
  ⟨h.toKept, h.passed, h.corr, h.corrWritten, by rw [h.session], by rw [h.session], by rw [h.session], hsi,
    hf, ha, hm⟩

/-- A part that sends nothing and leaves the registers of polls and reads alone. -/
theorem Kept.sessionKept {s t : State} (h : Kept 2 9 s t) (hp : t.status.passed = s.status.passed)
    (hs : t.session.onlyLast = s.session.onlyLast ∧ t.session.t0 = s.session.t0 ∧ t.session.term = s.session.term)
    (hsi : t.env.silent = s.env.silent) (hf : framesOf t.trace = framesOf s.trace) (hr : ReadKept s t) :
    SessionKept s t :=
  ⟨⟨h, hp, congrArg Results.corr hr.results, congrArg Results.corrWritten hr.results, hs.1, hs.2.1, hs.2.2, hsi,
    congrArg (List.count stopFrame) hf, by rw [hr.poll]; exact id, fun _ => hr.meas⟩, fun _ => hr.pollKept⟩

theorem sessionKept_setPhase (s : State) (p : Phase) : SessionKept s (s.setPhase p) :=
  (kept_setPhase s p).sessionKept rfl ⟨rfl, rfl, rfl⟩ rfl rfl ⟨rfl, rfl, rfl⟩

theorem sessionKept_goto (s : State) (l : Phase) : SessionKept s (goto l s) :=
  (kept_goto s l).sessionKept rfl ⟨rfl, rfl, rfl⟩ rfl rfl ⟨rfl, rfl, rfl⟩

theorem sessionKept_emit (s : State) (rec : Reading) : SessionKept s (emit rec s) :=
  (kept_emit s rec).sessionKept rfl ⟨rfl, rfl, rfl⟩ rfl rfl ⟨rfl, rfl, rfl⟩

theorem sessionKept_setPerr (s : State) (e : Err) : SessionKept s (s.setPerr e) :=
  (kept_setPerr s e).sessionKept rfl ⟨rfl, rfl, rfl⟩ rfl rfl ⟨rfl, rfl, rfl⟩

theorem sessionKept_setPerr2 (s : State) (k : ErrKind) : SessionKept s (s.setPerr2 k) :=
  (kept_setPerr2 s k).sessionKept rfl ⟨rfl, rfl, rfl⟩ rfl rfl ⟨rfl, rfl, rfl⟩

theorem sessionKept_observerTurn (s : State) : SessionKept s (observerTurn s) := by
  have h := observerTurn_only s
  exact (kept_observerTurn s).sessionKept (congrArg StatusBits.passed h.same.status)
    ⟨congrArg SessionRegs.onlyLast h.same.session, congrArg SessionRegs.t0 h.same.session,
      congrArg SessionRegs.term h.same.session⟩ h.silent h.counts.frames h.same.readKept

theorem sessionKept_now (s : State) (h : s.clock.afterXact ≤ s.least + 1) : SessionKept s (now s).2 := by
  have hs := now_same s
  refine (kept_now s h).sessionKept (congrArg StatusBits.passed hs.status)
    ⟨congrArg SessionRegs.onlyLast hs.session, congrArg SessionRegs.t0 hs.session, congrArg SessionRegs.term hs.session⟩
    (now_fields s).2.2.2.2.1 ?_ hs.readKept
  rw [(now_fields s).2.2.2.2.2.2.2.2.2.2]
  rfl

theorem sessionKept_keep (s : State) : SessionKept s (sessionKeep s) := by
  unfold sessionKeep
  refine (sessionKept_setPhase s .sKeep).trans ?_
  dsimp only
  split
  · exact Kept.sessionKept ⟨rfl, rfl, rfl, rfl, rfl, rfl, rfl, rfl, rfl, rfl, rfl, rfl, id, ⟨[], rfl⟩, id, fun _ h => h,
      fun h => h, .refl _, Nat.le_refl _, fun _ _ => rfl, fun _ _ => rfl, id, id, id, .of_eq rfl rfl, id⟩ rfl
      ⟨rfl, rfl, rfl⟩ rfl rfl ⟨rfl, rfl, rfl⟩
  · exact sessionKept_emit _ _

/-! ### The called lines -/

/-- What a called line leaves of the registers of polls and reads: READ_MEAS alone writes CO2, T_RAW, RH_RAW and TS. -/
structure LineRegs (s t : State) : Prop where
  polled : PollKept s t
  meas : Unsent frameReadMeas MeasKept s t

theorem SameRegs.lineRegs {s t : State} (h : SameRegs s t) : LineRegs s t :=
  ⟨h.readKept.pollKept, fun _ => h.readKept.meas⟩

/-- How a called line ends for a session. -/
inductive LineEnd (s : State) (frame : List Byte) : Res Unit → Prop where
  | ok (t : State) (h : Called s t) (silent : t.env.silent = s.env.silent)
      (frames : framesOf t.trace = frame :: framesOf s.trace) (regs : LineRegs s t)
      (clock : s.clock.afterXact ≤ t.least) (order : t.clock.afterXact ≤ t.least + 1) :
      LineEnd s frame (.ok () t)
  | raised (e : Err) (t : State) (h : Called s t) (silent : t.env.silent = s.env.silent) (kind : e.kind ≠ .none)
      (frames : framesOf t.trace = frame :: framesOf s.trace) (regs : LineRegs s t) : LineEnd s frame (.raised e t)
  | silent (t : State) (h : Called s t) (silent : t.env.silent = true)
      (frames : framesOf t.trace = frame :: framesOf s.trace) (regs : LineRegs s t)
      (phase : t.seq.phase = .xWrite ∨ t.seq.phase = .xRead) : LineEnd s frame (.silent t)

/-- A write-only command as a called line (R132, R140). -/
theorem writeLine_end (c : Command) (f : List Byte) (s : State) (hc : c.respLen = 0) (hn : f.length = 2)
    (hf : ∃ i, takeFrame f = .ok (i, [])) : LineEnd s f (xact c f s) := by
  rcases xact_write_cases c f s hc with ⟨t, h, hd, _⟩ | ⟨i, t, h, ht⟩ | ⟨t, h, ht⟩ <;> rw [h]
  · exact .ok t (hd.toXactTrail.called (m := 0) (by simpa [hc] using hd.rx) hf hn (by omega)) hd.silent hd.frames
      hd.same.lineRegs hd.advanced (by rw [hd.afterXact]; exact Nat.le_succ_of_le hd.advanced)
  · exact .raised _ t (ht.toXactTrail.called ht.rx hf hn (by omega)) ht.silent (by simp [transportErr]) ht.frames
      ht.same.lineRegs
  · exact .silent t (ht.toXactTrail.called (m := 0) (.of_eq ht.rx) hf hn (by omega)) ht.silent ht.frames
      ht.same.lineRegs ht.phase

/-- READ_MEAS as a called line (R136). -/
theorem readLine_end (s : State) : LineEnd s frameReadMeas (readMeasLines s) := by
  rcases readMeasLines_cases s with ⟨w1, w2, w3, t, h, hd⟩ | ⟨e, t, h, hk, _, ht⟩ | ⟨t, h, ht⟩ <;> rw [h]
  · have ho : t.clock.afterXact ≤ t.least + 1 := by
      rw [hd.afterXact]
      exact Nat.le_succ_of_le hd.advanced
    have hn := now_same t
    have hf := now_fields t
    have hc := hd.toXactTrail.called hd.rx whole_readMeas rfl (by decide)
    obtain ⟨k, hk, _⟩ := now_spec t
    have hr : ((now t).2.setMeas w1 w2 w3 (now t).1).results.corr = t.results.corr ∧
        ((now t).2.setMeas w1 w2 w3 (now t).1).results.corrWritten = t.results.corrWritten := by
      simp [hn.results]
    refine .ok _ (hc.trans ⟨(kept_now t ho).trans (kept_setMeas _ _ _ _ _), congrArg StatusBits.passed hn.status,
      hn.session, hr.1, hr.2, ?_⟩) ?_ ?_ ?_ ?_ ?_
    · show readingsOf (now t).2.trace = _
      rw [hf.2.2.2.2.2.2.2.2.2.2]
      rfl
    · exact hf.2.2.2.2.1.trans hd.silent
    · show framesOf (now t).2.trace = _
      rw [hf.2.2.2.2.2.2.2.2.2.2]
      exact hd.frames
    · obtain ⟨q1, q2, q3, q4, q5, q6⟩ := (hd.same.trans hn).readKept.pollKept
      refine ⟨⟨q1, q2, q3, q4, q5, q6⟩, .sent (sentCount_cons ?_)⟩
      show framesOf (now t).2.trace = _
      rw [hf.2.2.2.2.2.2.2.2.2.2]
      exact hd.frames
    · show _ ≤ (now t).2.least
      rw [now_least]
      exact Nat.le_trans hd.advanced hk
    · show (now t).2.clock.afterXact ≤ (now t).2.least + 1
      exact Nat.le_of_eq (by rw [now_least, hf.2.2.2.2.2.2.2.2.2.1])
  · exact .raised e t (ht.toXactTrail.called ht.rx whole_readMeas rfl (by decide)) ht.silent
      (by rcases hk with h | h <;> simp [h]) ht.frames ht.same.lineRegs
  · exact .silent t (ht.toXactTrail.called (m := 0) (.of_eq ht.rx) whole_readMeas rfl (by omega)) ht.silent ht.frames
      ht.same.lineRegs ht.phase

theorem LineEnd.stops {s t : State} {f : List Byte} (h : framesOf t.trace = f :: framesOf s.trace)
    (hf : f ≠ stopFrame) : sentCount stopFrame t.trace = sentCount stopFrame s.trace := by
  rw [sentCount, sentCount, h, List.count_cons_of_ne (by simpa using hf)]

/-- A called line but the stop, as a part of a session. -/
theorem Called.line {s t : State} {f : List Byte} (h : Called s t) (hsi : t.env.silent = s.env.silent)
    (hf : framesOf t.trace = f :: framesOf s.trace) (hne : f ≠ stopFrame) (hr : LineRegs s t) : SessionKept s t :=
  ⟨h.sessionPart hsi (LineEnd.stops hf hne) (by rw [hr.polled.1]; exact id) hr.meas, fun _ => hr.polled⟩

/-! ### How a session ends -/

/-- The end of a session's part: what it leaves of everything but the session's own registers, with `n` stop frames sent
in it. -/
structure SessionEnd (n : Nat) (s t : State) : Prop where
  params : t.params = s.params
  req : t.req = s.req
  term : t.term = s.term
  acc : t.acc = s.acc
  host : t.env.host = s.env.host
  shutdown : s.shutdown = true → t.shutdown = true
  trace : ∃ evs, t.trace = evs ++ s.trace
  lawful : s.trace.all Event.lawful = true → t.trace.all Event.lawful = true
  waiting : s.measuring = true → s.env.observer ≠ .passed → t.env.observer ≠ .passed
  asked : (s.env.observer ≠ .resting → s.shutdown = true) → t.env.observer ≠ .resting → t.shutdown = true
  later : s.clock.Le t.clock
  afterXact : s.clock.afterXact ≤ t.clock.afterXact
  sampled : Sampled s → Sampled t
  still : Still s t
  tx : TxKept 2 s t
  rx : RxKept 9 s t
  txForm : Memory.wf s.txbuf = true ∧ Memory.within txLen s.txbuf = true →
    Memory.wf t.txbuf = true ∧ Memory.within txLen t.txbuf = true
  rxForm : Memory.wf s.rxbuf = true ∧ Memory.within rxLen s.rxbuf = true →
    Memory.wf t.rxbuf = true ∧ Memory.within rxLen t.rxbuf = true
  ready : s.status.ready = readyFlag s.results.drdy → t.status.ready = readyFlag t.results.drdy
  passed : t.status.passed = s.status.passed
  corr : t.results.corr = s.results.corr
  corrWritten : t.results.corrWritten = s.results.corrWritten
  onlyLast : t.session.onlyLast = s.session.onlyLast
  latched : t.session.term = s.session.term
  attempt : s.poll.attempt.toNat ≤ maxAttempts → t.poll.attempt.toNat ≤ maxAttempts
  meas : Unsent frameReadMeas MeasKept s t
  polled : Unsent frameGetDrdy PollKept s t
  ends :
    (InFlight s t ∧ t.measuring = s.measuring ∧ t.status.done = s.status.done ∧ t.status.rvalid = s.status.rvalid ∧
      t.err = s.err ∧ t.errInfo = s.errInfo) ∨
    (Ended t ∧ t.measuring = false ∧ t.env.silent = s.env.silent ∧
      sentCount stopFrame t.trace = sentCount stopFrame s.trace + n ∧ (t.status.rvalid = true → t.err = s.err))

/-- A part of a session before its stop, and then the rest of it. -/
theorem SessionPart.thenEnd {n : Nat} {s t u : State} (h : SessionPart s t) (k : SessionEnd n t u)
    (hp : Unsent frameGetDrdy PollKept s u) : SessionEnd n s u := by
  obtain ⟨e1, h1⟩ := h.trace
  obtain ⟨e2, h2⟩ := k.trace
  refine ⟨k.params.trans h.params, k.req.trans h.req, k.term.trans h.term, k.acc.trans h.acc, k.host.trans h.host,
    fun x => k.shutdown (h.shutdown x), ⟨e2 ++ e1, by rw [h2, h1, List.append_assoc]⟩,
    fun x => k.lawful (h.lawful x), fun x o => k.waiting (by rw [h.measuring]; exact x) (h.waiting x o),
    fun a => k.asked (h.asked a), h.later.trans k.later, Nat.le_trans h.afterXact k.afterXact,
    fun x => k.sampled (h.sampled x), h.still.trans k.still,
    fun a ha => (k.tx a ha).trans (h.tx a ha), fun a ha => (k.rx a ha).trans (h.rx a ha),
    fun x => k.txForm (h.txForm x), fun x => k.rxForm (h.rxForm x), fun x => k.ready (h.ready x),
    k.passed.trans h.passed, k.corr.trans h.corr, k.corrWritten.trans h.corrWritten, k.onlyLast.trans h.onlyLast,
    k.latched.trans h.latched, fun x => k.attempt (h.attempt x), h.meas.trans MeasKept.trans k.meas h.trace k.trace, hp, ?_⟩
  rcases k.ends with ⟨⟨a1, a2, a3, a4⟩, b1, b2, b3, b4, b5⟩ | ⟨a, b1, b2, b3, b4⟩
  · exact .inl ⟨⟨a1, a2.trans h.busy, a3.trans h.curOp, a4⟩, b1.trans h.measuring, b2.trans h.done, b3.trans h.rvalid,
      b4.trans h.err, b5.trans h.errInfo⟩
  · exact .inr ⟨a, b1, b2.trans h.silent, by rw [b3, h.stops], fun x => (b4 x).trans h.err⟩

theorem SessionKept.thenEnd {n : Nat} {s t u : State} (h : SessionKept s t) (k : SessionEnd n t u) :
    SessionEnd n s u :=
  h.toSessionPart.thenEnd k (h.polled.trans PollKept.trans k.polled h.trace k.trace)

/-- A called line whose transport never answers ends the part where it stands. -/
theorem Called.inFlight {n : Nat} {s t : State} (h : Called s t) (hs : t.env.silent = true)
    (hp : t.seq.phase = .xWrite ∨ t.seq.phase = .xRead)
    (ha : s.poll.attempt.toNat ≤ maxAttempts → t.poll.attempt.toNat ≤ maxAttempts)
    (hm : Unsent frameReadMeas MeasKept s t) (hq : Unsent frameGetDrdy PollKept s t) : SessionEnd n s t :=
  ⟨h.params, h.req, h.term, h.acc, h.host, h.shutdown, h.trace, h.lawful, h.waiting, h.asked,
    h.later, h.afterXact, h.sampled, h.still, h.tx, h.rx, h.txForm, h.rxForm, h.ready, h.passed, h.corr, h.corrWritten, by rw [h.session], by rw [h.session], ha,
    hm, hq, .inl ⟨⟨hs, h.busy, h.curOp, hp⟩, h.measuring, h.done, h.rvalid, h.err, h.errInfo⟩⟩

/-- S_EXIT (R141). -/
theorem sessionExit_end (s : State) : ∃ t, sessionExit s = .next t ∧ SessionEnd 0 s t := by
  have hk := (sessionKept_setPhase s .sExit).trans (sessionKept_observerTurn (s.setPhase .sExit))
  unfold sessionExit
  dsimp only
  split
  · exact ⟨_, rfl, hk.params, hk.req, hk.term, hk.acc, hk.host, hk.shutdown, hk.trace, hk.lawful, hk.waiting, hk.asked,
      hk.later, hk.afterXact, hk.sampled, hk.still, hk.tx, hk.rx, hk.txForm, hk.rxForm, hk.ready, hk.passed, hk.corr, hk.corrWritten,
      hk.onlyLast, hk.latched, hk.attempt, hk.meas, hk.polled, .inr ⟨⟨rfl, rfl, rfl⟩, rfl, hk.silent, hk.stops, fun _ => hk.err⟩⟩
  · exact ⟨_, rfl, hk.params, hk.req, hk.term, hk.acc, hk.host, hk.shutdown, hk.trace, hk.lawful, hk.waiting, hk.asked,
      hk.later, hk.afterXact, hk.sampled, hk.still, hk.tx, hk.rx, hk.txForm, hk.rxForm, hk.ready, hk.passed, hk.corr, hk.corrWritten,
      hk.onlyLast, hk.latched, hk.attempt, hk.meas, hk.polled, .inr ⟨⟨rfl, rfl, rfl⟩, rfl, hk.silent, hk.stops, fun h => by cases h⟩⟩

/-- A part that sends one stop frame and then goes on with `n` of them. -/
theorem SessionEnd.afterStop {n : Nat} {s t u : State} (h : Called s t) (hsi : t.env.silent = s.env.silent)
    (hr : LineRegs s t) (hf : framesOf t.trace = stopFrame :: framesOf s.trace) (k : SessionEnd n t u) : SessionEnd (n + 1) s u := by
  obtain ⟨e1, h1⟩ := h.trace
  obtain ⟨e2, h2⟩ := k.trace
  refine ⟨k.params.trans h.params, k.req.trans h.req, k.term.trans h.term, k.acc.trans h.acc, k.host.trans h.host,
    fun x => k.shutdown (h.shutdown x), ⟨e2 ++ e1, by rw [h2, h1, List.append_assoc]⟩,
    fun x => k.lawful (h.lawful x), fun x o => k.waiting (by rw [h.measuring]; exact x) (h.waiting x o),
    fun a => k.asked (h.asked a), h.later.trans k.later, Nat.le_trans h.afterXact k.afterXact,
    fun x => k.sampled (h.sampled x), h.still.trans k.still,
    fun a ha => (k.tx a ha).trans (h.tx a ha), fun a ha => (k.rx a ha).trans (h.rx a ha),
    fun x => k.txForm (h.txForm x), fun x => k.rxForm (h.rxForm x), fun x => k.ready (h.ready x),
    k.passed.trans h.passed, k.corr.trans h.corr, k.corrWritten.trans h.corrWritten,
    k.onlyLast.trans (by rw [h.session]), k.latched.trans (by rw [h.session]),
    fun x => k.attempt (by rw [hr.polled.1]; exact x), hr.meas.trans MeasKept.trans k.meas h.trace k.trace,
    Unsent.trans PollKept.trans (fun _ => hr.polled) k.polled h.trace k.trace, ?_⟩
  rcases k.ends with ⟨⟨a1, a2, a3, a4⟩, b1, b2, b3, b4, b5⟩ | ⟨a, b1, b2, b3, b4⟩
  · exact .inl ⟨⟨a1, a2.trans h.busy, a3.trans h.curOp, a4⟩, b1.trans h.measuring, b2.trans h.done, b3.trans h.rvalid,
      b4.trans h.err, b5.trans h.errInfo⟩
  · refine .inr ⟨a, b1, b2.trans hsi, ?_, fun x => (b4 x).trans h.err⟩
    rw [b3, sentCount, hf, List.count_cons_self, sentCount]
    omega

/-- S_STOP's call and its handler (R140), for any way the call ends. -/
theorem sessionAfterStop_end {s : State} {r : Res Unit} (h : LineEnd s stopFrame r) :
    ∃ t, sessionAfterStop r = .next t ∧ SessionEnd 1 s t := by
  cases h with
  | ok t hc hsi hf hp _ _ =>
    obtain ⟨u, hu, he⟩ := sessionExit_end t
    exact ⟨u, hu, .afterStop hc hsi hp hf he⟩
  | raised e t hc hsi hk hf hp =>
    unfold sessionAfterStop
    dsimp only
    split
    · obtain ⟨u, hu, he⟩ := sessionExit_end (t.setPerr e)
      exact ⟨u, hu, .afterStop hc hsi hp hf ((sessionKept_setPerr t e).thenEnd he)⟩
    · obtain ⟨u, hu, he⟩ := sessionExit_end (t.setPerr2 e.kind)
      exact ⟨u, hu, .afterStop hc hsi hp hf ((sessionKept_setPerr2 t e.kind).thenEnd he)⟩
  | silent t hc hsi hf hp hph => exact ⟨t, rfl, hc.inFlight hsi hph (by rw [hp.polled.1]; exact id) hp.meas fun _ => hp.polled⟩

/-- S_STOP (R140). -/
theorem sessionStop_end (s : State) : ∃ t, sessionStop s = .next t ∧ SessionEnd 1 s t := by
  obtain ⟨t, h, he⟩ := sessionAfterStop_end (s := goto .sStop s)
    (writeLine_end .stopPeriodic frameStopPeriodic _ rfl rfl whole_stopPeriodic)
  exact ⟨t, h, (sessionKept_goto s .sStop).thenEnd he⟩

/-- S_ABORT (R142). -/
theorem sessionAbort_end (e : Err) (s : State) :
    ∃ t, sessionAbort e s = .next t ∧ SessionEnd 1 s t := by
  have hk := (sessionKept_setPerr s e).trans (sessionKept_goto (s.setPerr e) .sAbort)
  unfold sessionAbort
  dsimp only
  split
  · obtain ⟨t, h, he⟩ := sessionStop_end (emit (goto .sAbort (s.setPerr e)).session.last
      (goto .sAbort (s.setPerr e)))
    exact ⟨t, h, (hk.trans (sessionKept_emit _ _)).thenEnd he⟩
  · obtain ⟨t, h, he⟩ := sessionStop_end (goto .sAbort (s.setPerr e))
    exact ⟨t, h, hk.thenEnd he⟩

/-- S_FINAL (R139). -/
theorem sessionFinal_end (s : State) :
    ∃ t, sessionFinal s = .next t ∧ SessionEnd 1 s t := by
  have hk := sessionKept_goto s .sFinal
  unfold sessionFinal
  dsimp only
  split
  · obtain ⟨t, h, he⟩ := sessionStop_end (emit (goto .sFinal s).session.last (goto .sFinal s))
    exact ⟨t, h, (hk.trans (sessionKept_emit _ _)).thenEnd he⟩
  · obtain ⟨t, h, he⟩ := sessionStop_end (goto .sFinal s)
    exact ⟨t, h, hk.thenEnd he⟩

/-- What S_TEST hands to S_POLL (R138): the clock has passed the last sample, and the term is not over. -/
structure TestPassed (s t : State) : Prop extends SessionKept s t where
  past : s.least + 1 ≤ t.clock.afterXact
  within : t.clock.afterXact ≤ t.session.t0 + t.session.term + 1

/-- S_TEST (R138). -/
theorem sessionTest_end {again : State → Host.Outcome State Fault Refusal} (s : State)
    (ho : s.clock.afterXact ≤ s.least + 1)
    (hagain : ∀ t, TestPassed s t → ∃ u, again t = .next u ∧ SessionEnd 1 t u) :
    ∃ t, sessionTest again s = .next t ∧ SessionEnd 1 s t := by
  have hn := sessionKept_now (s.setPhase .sTest) ho
  have hk := ((sessionKept_setPhase s .sTest).trans hn).trans (sessionKept_observerTurn _)
  have hf := now_fields (s.setPhase .sTest)
  have ht := observerTurn_only (now (s.setPhase .sTest)).2
  obtain ⟨j, hj, _⟩ := now_spec (s.setPhase .sTest)
  unfold sessionTest
  dsimp only
  split
  · obtain ⟨t, h, he⟩ := sessionFinal_end _
    exact ⟨t, h, hk.thenEnd he⟩
  · rename_i hno
    have hc : (goto .sPoll (observerTurn (now (s.setPhase .sTest)).2)).clock.afterXact =
        (now (s.setPhase .sTest)).1 + 1 := by
      rw [goto_clock, ht.clock, hf.2.2.2.2.2.2.2.2.2.1]
    have hg := hk.trans (sessionKept_goto _ .sPoll)
    obtain ⟨t, h, he⟩ := hagain _ ⟨hg, by rw [hc]; exact Nat.succ_le_succ hj, by rw [hc, goto_session]; omega⟩
    exact ⟨t, h, hg.thenEnd he⟩

/-- What an iteration of the loop hands to the next one. -/
structure Iterated (s t : State) : Prop extends SessionKept s t where
  past : s.clock.afterXact + 1 ≤ t.clock.afterXact
  within : t.clock.afterXact ≤ t.session.t0 + t.session.term + 1

/-- S_READ's handler and what follows (R136 to R138). -/
theorem sessionAfterRead_end {again : State → Host.Outcome State Fault Refusal} {s : State} {r : Res Unit}
    (h : LineEnd s frameReadMeas r)
    (hagain : ∀ t, Iterated s t → ∃ u, again t = .next u ∧ SessionEnd 1 t u) :
    ∃ t, sessionAfterRead again r = .next t ∧ SessionEnd 1 s t := by
  cases h with
  | ok t hc hsi hf hp hx ho =>
    have hk : SessionKept s t := hc.line hsi hf (by decide) hp
    have hkk := hk.trans (sessionKept_keep t)
    have hck : (sessionKeep t).clock = t.clock := by
      unfold sessionKeep
      dsimp only
      split <;> rfl
    have hcl : (sessionKeep t).least = t.least := by
      unfold State.least
      rw [hck, (sessionKept_keep t).params]
    obtain ⟨u, hu, he⟩ := sessionTest_end (again := again) (sessionKeep t)
      (by rw [hck, hcl]; exact ho) fun v hv => hagain v ⟨hkk.trans hv.toSessionKept, by
        have := hv.past
        rw [hcl] at this
        omega, hv.within⟩
    exact ⟨u, hu, hkk.thenEnd he⟩
  | raised e t hc hsi hk hf hp =>
    obtain ⟨u, hu, he⟩ := sessionAbort_end e t
    exact ⟨u, hu, (hc.line hsi hf (by decide) hp).thenEnd he⟩
  | silent t hc hsi hf hp hph => exact ⟨t, rfl, hc.inFlight hsi hph (by rw [hp.polled.1]; exact id) hp.meas fun _ => hp.polled⟩

theorem Polled.stops {k : Nat} {s t : State} (h : Polled k s t) :
    sentCount stopFrame t.trace = sentCount stopFrame s.trace := by
  rw [sentCount, h.frames, List.count_append, List.count_replicate, if_neg (by decide), Nat.zero_add, sentCount]

/-- A poll sends a status frame. -/
theorem Polled.sent {k : Nat} {s t : State} (h : Polled k s t) (hk : 1 ≤ k) :
    sentCount frameGetDrdy s.trace < sentCount frameGetDrdy t.trace := by
  rw [sentCount, sentCount, h.frames, List.count_append, List.count_replicate_self]
  omega

/-- ATTEMPT stays at most 11 in a poll that allows `left` attempts after the one that ATTEMPT counts (R123). -/
theorem Polled.attempt_le {k left : Nat} {s t : State} (h : Polled k s t) (hk : k ≤ left + 1)
    (hl : s.poll.attempt.toNat + left ≤ maxAttempts) : t.poll.attempt.toNat ≤ maxAttempts := by
  have h11 : maxAttempts = 11 := rfl
  have := s.poll.attempt.isLt
  rw [h.attempt, BitVec.toNat_add, BitVec.toNat_ofNat, Nat.mod_eq_of_lt (a := k - 1) (by omega),
    Nat.mod_eq_of_lt (by omega)]
  omega

/-- A poll as a part of a session. -/
theorem Polled.sessionKept {k left : Nat} {s t : State} (h : Polled k s t) (h1 : 1 ≤ k) (hk : k ≤ left + 1)
    (hsi : t.env.silent = s.env.silent)
    (hl : s.poll.attempt.toNat ≤ maxAttempts → s.poll.attempt.toNat + left ≤ maxAttempts) : SessionKept s t :=
  ⟨h.toCalled.sessionPart hsi h.stops (fun x => h.attempt_le hk (hl x)) fun _ => h.meas, .sent (h.sent h1)⟩

/-- S_POLL's handler and what follows (R135 to R138), for a poll that goes on from `s`. It sends a status frame. -/
theorem sessionAfterPoll_end {again : State → Host.Outcome State Fault Refusal} (left : Nat) (s : State)
    (hl : s.poll.attempt.toNat ≤ maxAttempts → s.poll.attempt.toNat + left ≤ maxAttempts)
    (hagain : ∀ t, Iterated s t → ∃ u, again t = .next u ∧ SessionEnd 1 t u) :
    ∃ t, sessionAfterPoll again (pollFrom left s) = .next t ∧ SessionEnd 1 s t ∧
      sentCount frameGetDrdy s.trace < sentCount frameGetDrdy t.trace := by
  rcases pollFrom_cases left s with ⟨k, t, h1, hk, h, hp, _, _, hsi, hx⟩ | ⟨t, h, hp, _, _, hsi, _⟩ |
    ⟨k, e, t, h1, hk, h, _, _, hp, _, hsi⟩ | ⟨k, t, h1, hk, h, hp, _, hsi, hph⟩ <;> rw [h]
  · have hkk : SessionKept s t := hp.sessionKept h1 hk hsi hl
    obtain ⟨u, hu, he⟩ := sessionAfterRead_end (again := again) (s := t.setPhase .sRead)
      (readLine_end _) fun v hv => hagain v ⟨(hkk.trans (sessionKept_setPhase t _)).trans hv.toSessionKept,
        Nat.le_trans (Nat.succ_le_succ hkk.afterXact) hv.past, hv.within⟩
    exact ⟨u, hu, (hkk.trans (sessionKept_setPhase t _)).thenEnd he,
      Nat.lt_of_lt_of_le (hp.sent h1) (sentCount_le _ he.trace)⟩
  · obtain ⟨u, hu, he⟩ := sessionAbort_end timeoutErr t
    exact ⟨u, hu, (hp.sessionKept (by omega) (Nat.le_refl _) hsi hl).thenEnd he,
      Nat.lt_of_lt_of_le (hp.sent (by omega)) (sentCount_le _ he.trace)⟩
  · obtain ⟨u, hu, he⟩ := sessionAbort_end e t
    exact ⟨u, hu, (hp.sessionKept h1 hk hsi hl).thenEnd he,
      Nat.lt_of_lt_of_le (hp.sent h1) (sentCount_le _ he.trace)⟩
  · exact ⟨t, rfl, hp.toCalled.inFlight hsi hph (fun x => hp.attempt_le hk (hl x)) (fun _ => hp.meas) (.sent (hp.sent h1)),
      hp.sent h1⟩

/-- A poll's entry, as a part of a session: it writes PSTATE and ATTEMPT before the first frame. -/
theorem sessionPart_entry (s : State) : SessionPart s (nextAttempt (pollEntry s)) :=
  (called_entry s).sessionPart rfl rfl (fun _ => by show ((0#4) + 1).toNat ≤ 11; decide) fun _ => ⟨rfl, rfl⟩

/-- The loop never runs out of its bound (log entry 23): each further iteration needs a later clock sample. -/
theorem sessionPoll_end (n : Nat) : ∀ s : State, 1 ≤ n →
    s.session.t0 + s.session.term + 2 ≤ n + s.clock.afterXact →
    ∃ t, sessionPoll n s = .next t ∧ SessionEnd 1 s t := by
  induction n with
  | zero => intro s h; omega
  | succ n ih =>
    intro s _ hb
    have hk := (sessionKept_setPhase s .sPoll).toSessionPart.trans (sessionPart_entry (s.setPhase .sPoll))
    obtain ⟨t, h, he, hq⟩ := sessionAfterPoll_end (again := sessionPoll n) 10 (nextAttempt (pollEntry (s.setPhase .sPoll)))
      (fun _ => by show ((0#4) + 1).toNat + 10 ≤ 11; decide) fun t ht => ih t
        (by
          have h1 := ht.past
          have h2 := ht.within
          have h3 := hk.afterXact
          have h4 : t.session.t0 + t.session.term = s.session.t0 + s.session.term := by
            rw [ht.t0, ht.latched, hk.t0, hk.latched]
          omega)
        (by
          have h1 := ht.past
          have h3 := hk.afterXact
          have h4 : t.session.t0 + t.session.term = s.session.t0 + s.session.term := by
            rw [ht.t0, ht.latched, hk.t0, hk.latched]
          omega)
    exact ⟨t, h, hk.thenEnd he (.sent hq)⟩

/-- The loop, entered again by a frame of an iteration, stays within its bound too. -/
theorem loop_again {s t : State} (ht : Iterated s t) :
    ∃ u, sessionPoll (loopBound s) t = .next u ∧ SessionEnd 1 t u := by
  refine sessionPoll_end _ t (by simp [loopBound]) ?_
  rw [ht.t0, ht.latched]
  simp only [loopBound]
  omega

/-- S_START's handler and what follows (R133 to R141). T0 changes here alone. -/
theorem sessionAfterStart_end {s : State} {r : Res Unit} (h : LineEnd s frameStartPeriodic r) :
    ∃ t, sessionAfterStart r = .next t ∧ SessionEnd 1 s t := by
  cases h with
  | ok t hc hsi hf hp hx ho =>
    have hn := sessionKept_now t ho
    have hk : SessionKept s t := hc.line hsi hf (by decide) hp
    have hnf := now_fields t
    obtain ⟨u, hu, he⟩ := sessionPoll_end ((now t).1 + (now t).2.session.term + 2)
      ({ (now t).2 with session := { (now t).2.session with t0 := (now t).1 } } : State) (by omega) (by dsimp only; omega)
    refine ⟨u, hu, ?_⟩
    have he' : SessionEnd 1 (now t).2 u :=
      ⟨he.params, he.req, he.term, he.acc, he.host, he.shutdown, he.trace, he.lawful, he.waiting, he.asked, he.later, he.afterXact,
        he.sampled, he.still, he.tx,
        he.rx, he.txForm, he.rxForm, he.ready, he.passed, he.corr, he.corrWritten, he.onlyLast, he.latched, he.attempt,
        he.meas, he.polled, he.ends⟩
    exact (hk.trans hn).thenEnd he'
  | raised e t hc hsi hk hf hp =>
    obtain ⟨u, hu, he⟩ := sessionStop_end (t.setPerr e)
    exact ⟨u, hu, ((hc.line hsi hf (by decide) hp).trans
      (sessionKept_setPerr t e)).thenEnd he⟩
  | silent t hc hsi hf hp hph => exact ⟨t, rfl, hc.inFlight hsi hph (by rw [hp.polled.1]; exact id) hp.meas fun _ => hp.polled⟩

/-- A session from S_START on (R132 to R141). -/
theorem sessionStart_end (s : State) :
    ∃ t, sessionStart s = .next t ∧ SessionEnd 1 s t := by
  obtain ⟨t, h, he⟩ := sessionAfterStart_end (s := s.setPhase .sStart)
    (writeLine_end .startPeriodic frameStartPeriodic _ rfl rfl whole_startPeriodic)
  exact ⟨t, h, (sessionKept_setPhase s .sStart).thenEnd he⟩

end Sys2Proof.Machine
end

