-- ==== Sys2Proof/Laws/Listed.lean ====
section
/-! SUPPORT. Runs whose transport answers are listed (42_transactions.md R100): one exchange, one line, and a poll, with
the answers that remain. -/

namespace Sys2Proof.Machine

/-- A whole exchange with listed answers. -/
theorem xact_ok_listed {c : Command} {f : List Byte} {s : State} {ws : List WriteAnswer} {rs : List ReadAnswer}
    {b : List Byte} (hc : c.respLen ≠ 0) (hb : b.length = c.respLen)
    (hw : s.env.writes = .ok f.length :: ws) (hr : s.env.reads = .ok b :: rs) :
    ∃ t, xact c f s = .ok () t ∧ DoneTrail c f s t ∧ t.rxbuf = Memory.writeAll s.rxbuf 0 b ∧ t.env.writes = ws ∧
      t.env.reads = rs ∧ OnBus (xactEvents c f (.ok f.length) (.ok b) s.params) s t := by
  have hbus := xact_bus (c := c) (f := f) (s := s) (a := .ok f.length) (r := .ok b) (by rw [hw]; rfl)
    (.inr (by rw [hr]; rfl))
  have h := xact_listed (c := c) (f := f) (s := s) (a := .ok f.length) (r := .ok b) ⟨by rw [hw]; rfl, by rw [hr]; rfl⟩
  have hx : exchangeOf f.length c.respLen (.ok f.length) (.ok b) = .response b := by
    simp only [exchangeOf]
    rw [if_neg (Nat.lt_irrefl _), if_neg hc, if_neg (by omega), ← hb, List.take_length]
  rw [hx] at h
  obtain ⟨t, h, hd, _, hrx, hrd⟩ := h
  rw [h] at hbus
  refine ⟨t, h, ⟨hd, ⟨b, .inr hb, hrx⟩⟩, hrx, by rw [hd.writes, hw]; rfl, ?_, hbus⟩
  rw [hrd, hr]
  rw [if_neg hc]
  rfl

/-- A write-only command with a listed answer that is not "no answer". -/
theorem xact_write_listed {c : Command} {f : List Byte} {s : State} {a : WriteAnswer} {ws : List WriteAnswer}
    (hc : c.respLen = 0) (hw : s.env.writes = a :: ws) (ha : a ≠ .never) :
    (exchangeOf f.length 0 a .err = .response [] ∧ ∃ t, xact c f s = .ok () t ∧ DoneTrail c f s t ∧
      t.env.writes = ws ∧ t.env.reads = s.env.reads ∧ OnBus (xactEvents c f a .err s.params) s t) ∨
    (∃ info, exchangeOf f.length 0 a .err = .failed info ∧ ∃ t, xact c f s = .raised (transportErr c.op info) t ∧
      RaisedTrail 0 f s t ∧ t.env.writes = ws ∧ t.env.reads = s.env.reads ∧
      OnBus (xactEvents c f a .err s.params) s t) := by
  have hbus := xact_bus (c := c) (f := f) (s := s) (a := a) (r := .err) (by rw [hw]; rfl) (.inl hc)
  have hd := writeDrawn_listed (f := f) (s := s) (a := a) (by rw [hw]; rfl)
  have he := xact_eq c f s
  rw [hd] at he
  have hq := (afterWrite_fields f (atWrite f s)).2.2.2.1
  cases a with
  | never => exact absurd rfl ha
  | err =>
    rcases xact_write_cases c f s hc with ⟨t, h, _⟩ | ⟨i, t, h, ht⟩ | ⟨t, h, _⟩
    · rw [he] at h; cases h
    · rw [he] at h hbus
      cases h
      exact .inr ⟨_, rfl, _, he, ht, by rw [ht.writes, hw]; rfl, hq, hbus⟩
    · rw [he] at h; cases h
  | ok k =>
    simp only [WriteAnswer.lawful, if_pos hc] at he
    by_cases hk : k < f.length
    · rw [if_pos (by omega), show min k f.length = k by omega] at he
      rcases xact_write_cases c f s hc with ⟨t, h, _⟩ | ⟨i, t, h, ht⟩ | ⟨t, h, _⟩
      · rw [he] at h; cases h
      · rw [he] at h hbus
        cases h
        exact .inr ⟨_, by simp [exchangeOf, hk], _, he, ht, by rw [ht.writes, hw]; rfl, hq, hbus⟩
      · rw [he] at h; cases h
    · rw [if_neg (by omega)] at he
      rcases xact_write_cases c f s hc with ⟨t, h, hd, _, hr⟩ | ⟨i, t, h, _⟩ | ⟨t, h, _⟩
      · rw [h] at hbus
        exact .inl ⟨by simp [exchangeOf, hk], t, h, hd, by rw [hd.writes, hw]; rfl, hr, hbus⟩
      · rw [he] at h; cases h
      · rw [he] at h; cases h

/-! ### A poll's attempts -/

/-- What registers and events say of the last status word stays so where they stay. -/
theorem Queried.kept {w : Word} {s t : State} (h : Queried w s) (hr : t.results = s.results)
    (hq : t.status.ready = s.status.ready) : Queried w t := by
  rw [Queried, hr, hq]
  exact h

/-- Nothing was answered where nothing changed. -/
theorem ReadKept.lastAnswer {s t : State} (h : ReadKept s t) : LastAnswer [] s t := by
  rw [LastAnswer]
  exact h.pollKept.2

/-- The first of some status words, and the others. -/
theorem LastAnswer.cons {x : Word} {ws : List Word} {s t u : State} (hx : Queried x t) (h : LastAnswer ws t u) :
    LastAnswer (x :: ws) s u := by
  unfold LastAnswer at h ⊢
  rw [List.getLast?_cons]
  cases hl : ws.getLast? with
  | some y =>
    rw [hl] at h
    exact h
  | none =>
    rw [hl] at h
    obtain ⟨h1, h2, h3, h4, h5⟩ := h
    exact ⟨h1.trans hx.1, h2.trans hx.2.1, h3.trans hx.2.2.1, h4.trans hx.2.2.2.1, h5.trans hx.2.2.2.2⟩

/-- What is kept before the exchanges does not matter to their words. -/
theorem LastAnswer.since {ws : List Word} {s t u : State} (k : ReadKept s t) (h : LastAnswer ws t u) :
    LastAnswer ws s u := by
  unfold LastAnswer at h ⊢
  split at h
  · exact h
  · rw [k.results, k.ready] at h
    exact h

/-- What is kept after the exchanges still shows their words. -/
theorem LastAnswer.kept {ws : List Word} {s t u : State} (h : LastAnswer ws s t) (k : ReadKept t u) :
    LastAnswer ws s u := by
  unfold LastAnswer at h ⊢
  split at h
  · exact h.kept k.results k.ready
  · rw [k.results, k.ready]
    exact h

/-- After a poll that ended READY its word is the last answer. -/
theorem PolledReady.queried {w : Word} {k : Nat} {t : State} (h : PolledReady w k t) (hz : w &&& 0x07FF#16 ≠ 0) :
    Queried w t :=
  ⟨h.2.1, h.2.2.1, h.2.2.2.1, h.2.2.2.2.1, h.2.2.2.2.2.trans (decide_eq_true hz).symm⟩

theorem pollEvents_more (p : Params) (a : WriteAnswer) (r : ReadAnswer) {rest : List (WriteAnswer × ReadAnswer)}
    (h : rest ≠ []) :
    pollEvents p ((a, r) :: rest) =
      pollEvents p rest ++ (.delay .poll p.pollInterval :: xactEvents .getDrdy [0xE4#8, 0xB8#8] a r p) := by
  rw [pollEvents, List.isEmpty_eq_false_iff.2 h]
  simp

/-- `QueryReady` on a listed status word. -/
theorem queryReady_listed {s : State} {w : Word} {ws : List WriteAnswer} {rs : List ReadAnswer}
    (hw : s.env.writes = .ok 2 :: ws) (hr : s.env.reads = .ok (validGroup w) :: rs) :
    ∃ t, queryReady s = .ok (decide (w &&& 0x07FF#16 ≠ 0)) t ∧ Attempted s t ∧ t.env.silent = s.env.silent ∧
      Queried w t ∧ t.env.writes = ws ∧ t.env.reads = rs ∧ s.clock.afterXact ≤ t.least ∧
      t.clock.afterXact = s.clock.afterXact ∧ Turns 1 s t ∧
      OnBus (pollEvents s.params [(.ok 2, .ok (validGroup w))]) s t := by
  obtain ⟨t, h, hd, hrx, hws, hrs, hbus⟩ := xact_ok_listed (c := .getDrdy) (f := frameGetDrdy) (b := validGroup w)
    (by decide) rfl hw hr
  have hg := checkGroup_filled (op := 0x4#4) (k := 1) (b0 := hiByte w) (b1 := loByte w)
    (ck := crc8 [hiByte w, loByte w]) (rx_filled hrx (i := 0) (by simp [validGroup]))
    (rx_filled hrx (i := 1) (by simp [validGroup])) (rx_filled hrx (i := 2) (by simp [validGroup]))
  rw [if_pos rfl, be16_bytes] at hg
  have ha := hd.toXactTrail.attempted hd.rx (Nat.le_refl _)
  refine ⟨(t.setWord w).setDrdy w, ?_, ⟨ha.toCalled.trans (called_word t w), ha.frames, ha.delays, ha.poll, ?_,
      ha.rx3, ha.samples⟩,
    hd.silent, ⟨rfl, rfl, drdyOf_eq w, rfl, ?_⟩, hws, hrs, hd.advanced, hd.afterXact,
    hd.turns.trans (k := 0) (.of_eq rfl rfl rfl), hbus⟩
  · unfold queryReady
    rw [h, Res.andThen_ok, hg, Res.andThen_ok, readyFlag_eq]
  · simp only [setDrdy_results, setWord_results, hd.same.results]
  · simp only [setDrdy_status, readyFlag_eq]
    rfl

/-- From the attempt of `s`, whose answer `x` is not ready, to the next one at `v` (43_polling.md R123). -/
structure Retried (x : Word) (s v : State) : Prop where
  polled : ∀ {k : Nat} {u : State}, 1 ≤ k → Polled k v u → Polled (k + 1) s u
  queried : Queried x v
  bus : ∀ {rest : List (WriteAnswer × ReadAnswer)} {u : State}, rest ≠ [] → OnBus (pollEvents v.params rest) v u →
    OnBus (pollEvents s.params ((.ok 2, .ok (validGroup x)) :: rest)) s u
  silent : v.env.silent = s.env.silent
  afterXact : v.clock.afterXact = s.clock.afterXact
  turns : Turns 2 s v

/-- An attempt of a poll on a listed status word that is not ready, with attempts left. -/
theorem pollFrom_retried {s : State} {x : Word} {left : Nat} {ws : List WriteAnswer} {rs : List ReadAnswer}
    (hx : x &&& 0x07FF#16 = 0) (hw : s.env.writes = .ok 2 :: ws) (hr : s.env.reads = .ok (validGroup x) :: rs) :
    ∃ v, pollFrom (left + 1) s = pollFrom left v ∧ Retried x s v ∧ v.env.writes = ws ∧ v.env.reads = rs := by
  obtain ⟨t, h, ha, hs, hq, hws, hrs, _, hax, hn, hb⟩ := queryReady_listed hw hr
  rw [decide_eq_false (by simpa using hx)] at h
  obtain ⟨_, r2, _, _, r5, _, _, _, _⟩ := retry_spec t
  have ho := observerTurn_only ((t.setPhase .pSleep).log (.delay .poll (waitTicks .poll (t.setPhase .pSleep).params)))
  have hr : (nextAttempt (delay .poll (t.setPhase .pSleep))).status.ready = t.status.ready :=
    congrArg StatusBits.ready (delay_same .poll (t.setPhase .pSleep)).status
  have hp : (nextAttempt (delay .poll (t.setPhase .pSleep))).params = s.params :=
    (delay_same .poll (t.setPhase .pSleep)).params.trans ha.params
  have hd : OnBus [.delay .poll s.params.pollInterval] t (nextAttempt (delay .poll (t.setPhase .pSleep))) := by
    rw [← ha.params]
    exact bus_delay .poll (t.setPhase .pSleep)
  refine ⟨nextAttempt (delay .poll (t.setPhase .pSleep)), by rw [pollFrom, h],
    ⟨fun hk p => .step ha p hk, hq.kept r2 hr, fun hne k => ?_, r5.trans hs, ?_, ?_⟩, ho.writes.trans hws,
    ho.reads.trans hrs⟩
  · rw [pollEvents_more _ _ _ hne]
    rw [hp] at k
    exact (hb.trans hd).trans k
  · show (observerTurn _).clock.afterXact = _
    rw [ho.clock]
    exact hax
  · exact (hn.trans (k := 0) (u := t.setPhase .pSleep) (.of_eq rfl rfl rfl)).trans
      ((turns_delay .poll (t.setPhase .pSleep)).trans (k := 0) (.of_eq rfl rfl rfl))

/-- A poll on listed status words: `nr` not-ready ones, and then a ready one. -/
theorem pollFrom_ready_listed {w : Word} {ws : List WriteAnswer} {rs : List ReadAnswer} (nr : List Word) :
    ∀ (left : Nat) (s : State), (∀ x ∈ nr, x &&& 0x07FF#16 = 0) → w &&& 0x07FF#16 ≠ 0 → nr.length ≤ left →
      s.env.writes = List.replicate (nr.length + 1) (.ok 2) ++ ws →
      s.env.reads = (nr ++ [w]).map (fun x => ReadAnswer.ok (validGroup x)) ++ rs →
      ∃ t, pollFrom left s = .ok () t ∧ Polled (nr.length + 1) s t ∧ t.poll.pstate = .ready ∧ Queried w t ∧
        t.env.silent = s.env.silent ∧ t.env.writes = ws ∧ t.env.reads = rs ∧
        s.clock.afterXact ≤ t.least ∧ Turns (2 * nr.length + 1) s t ∧
        OnBus (pollEvents s.params ((List.replicate (nr.length + 1) (.ok 2)).zip
          ((nr ++ [w]).map fun x => .ok (validGroup x)))) s t := by
  induction nr with
  | nil =>
    intro left s _ hz _ hw hr
    obtain ⟨t, h, ha, hs, hq, hws, hrs, hx, _, hn, hb⟩ := queryReady_listed hw hr
    rw [decide_eq_true hz] at h
    exact ⟨t.setPState .ready, by rw [pollFrom, h], ha.polled.setPState _, rfl, hq, hs, hws, hrs, hx,
      hn.trans (k := 0) (.of_eq rfl rfl rfl), hb⟩
  | cons x nr ih =>
    intro left s hnr hz hl hw hr
    obtain ⟨left, rfl⟩ : ∃ j, left = j + 1 := ⟨left - 1, by simp at hl; omega⟩
    obtain ⟨v, h, r, hws, hrs⟩ := pollFrom_retried (left := left) (hnr x (by simp)) hw hr
    obtain ⟨u, hu, hp, hps, hq, hsu, hwsu, hrsu, hxu, hnu, hb⟩ := ih left v
      (fun y hy => hnr y (List.mem_cons_of_mem _ hy)) hz (by simp at hl; omega) hws hrs
    refine ⟨u, h.trans hu, r.polled (Nat.le_add_left 1 nr.length) hp, hps, hq, hsu.trans r.silent, hwsu, hrsu,
      r.afterXact ▸ hxu, ?_, r.bus (by simp [List.replicate_succ]) hb⟩
    rw [List.length_cons, show 2 * (nr.length + 1) + 1 = 2 + (2 * nr.length + 1) by omega]
    exact r.turns.trans hnu

/-- What a poll on listed answers leaves that ends FAILED after `k` exchanges, `nr` being the words of those that
complete (43_polling.md R124, R125). -/
structure PollFailed (nr : List Word) (k : Nat) (answers : List (WriteAnswer × ReadAnswer)) (s t : State) : Prop
    extends Polled k s t where
  failed : t.poll.pstate = .failed
  silent : t.env.silent = s.env.silent
  answer : LastAnswer nr s t
  bus : OnBus (pollEvents s.params answers) s t

theorem PollFailed.retried {x : Word} {nr : List Word} {k : Nat} {answers : List (WriteAnswer × ReadAnswer)}
    {s v t : State} (r : Retried x s v) (h : PollFailed nr k answers v t) (hk : 1 ≤ k) (hne : answers ≠ []) :
    PollFailed (x :: nr) (k + 1) ((.ok 2, .ok (validGroup x)) :: answers) s t :=
  ⟨r.polled hk h.toPolled, h.failed, h.silent.trans r.silent, .cons r.queried h.answer, r.bus hne h.bus⟩

/-- A poll on listed status words that are all not ready. -/
theorem pollFrom_timeout_listed (left : Nat) :
    ∀ (nr : List Word) (s : State) (ws : List WriteAnswer) (rs : List ReadAnswer),
      (∀ x ∈ nr, x &&& 0x07FF#16 = 0) → nr.length = left + 1 →
      s.env.writes = List.replicate (left + 1) (.ok 2) ++ ws →
      s.env.reads = nr.map (fun x => ReadAnswer.ok (validGroup x)) ++ rs →
      ∃ t, pollFrom left s = .raised timeoutErr t ∧ t.env.writes = ws ∧
        PollFailed nr (left + 1) ((List.replicate (left + 1) (.ok 2)).zip (nr.map fun x => .ok (validGroup x))) s t := by
  induction left with
  | zero =>
    intro nr s ws rs hnr hl hw hr
    match nr, hl with
    | [x], _ =>
      obtain ⟨t, h, ha, hs, hq, hws, _, _, _, _, hb⟩ := queryReady_listed hw hr
      rw [decide_eq_false (by simpa using hnr x (by simp))] at h
      exact ⟨(t.setPState .failed).log (.raise timeoutErr), by rw [pollFrom, h]; rfl, hws,
        ⟨(ha.polled.setPState _).raise _, rfl, hs, hq, hb⟩⟩
  | succ left ih =>
    intro nr s ws rs hnr hl hw hr
    match nr, hl with
    | x :: nr, hl =>
      simp only [List.length_cons, Nat.add_right_cancel_iff] at hl
      obtain ⟨v, h, r, hws, hrs⟩ := pollFrom_retried (left := left) (hnr x (by simp)) hw hr
      obtain ⟨u, hu, hwu, hf⟩ := ih nr v ws rs (fun y hy => hnr y (List.mem_cons_of_mem _ hy)) hl hws hrs
      refine ⟨u, h.trans hu, hwu, hf.retried r (by omega) ?_⟩
      rw [List.replicate_succ]
      match nr, hl with
      | y :: nr, _ => simp

end Sys2Proof.Machine
end

