-- ==== Sys2Proof/Laws/Loop.lean ====
section
/-! SUPPORT. A session on listed answers (44_session.md R130 to R142): failing exchanges, and each of its phases with the
answers that remain, what it samples and what it emits. -/

namespace Sys2Proof.Machine

/-! ### Failing exchanges -/

/-- A status exchange that fails, by its listed answers. -/
theorem queryReady_failed {s : State} {a : WriteAnswer} {r : ReadAnswer} {e : Err} {ws : List WriteAnswer}
    {rs : List ReadAnswer} (he : exchangeFailure 0x4#4 (exchangeOf 2 3 a r) = some e) (hw : s.env.writes = a :: ws)
    (hr : s.env.reads = r :: rs) :
    ∃ t, queryReady s = .raised e t ∧ Attempted s t ∧ t.env.silent = s.env.silent ∧ t.env.writes = ws ∧ ReadKept s t ∧
      OnBus (pollEvents s.params [(a, r)]) s t := by
  have hbus := xact_bus (c := .getDrdy) (f := frameGetDrdy) (s := s) (a := a) (r := r) (by rw [hw]; rfl)
    (.inr (by rw [hr]; rfl))
  have h := xact_listed (c := .getDrdy) (f := frameGetDrdy) (s := s) (a := a) (r := r)
    ⟨by rw [hw]; rfl, by rw [hr]; rfl⟩
  change (match exchangeOf 2 3 a r with
    | .unanswered => _
    | .failed info => _
    | .response b => _) at h
  unfold queryReady
  cases hx : exchangeOf 2 3 a r with
  | unanswered => rw [hx] at he; cases he
  | failed info =>
    rw [hx] at h he
    obtain ⟨t, h, ht, hrx, hs⟩ := h
    rw [h] at hbus
    cases he
    exact ⟨t, by rw [h]; rfl, ht.attempted (m := 0) (.of_eq hrx) (by omega), hs, by rw [ht.writes, hw]; rfl,
      ht.same.readKept, hbus⟩
  | response b =>
    rw [hx] at h he
    obtain ⟨t, h, hd, hb, hrx, hrd⟩ := h
    rw [h] at hbus
    match b, hb with
    | [b0, b1, ck], _ =>
      have hg := checkGroup_filled (op := 0x4#4) (k := 1) (s := t) (b0 := b0) (b1 := b1) (ck := ck)
        (rx_filled hrx (i := 0) (by simp)) (rx_filled hrx (i := 1) (by simp)) (rx_filled hrx (i := 2) (by simp))
      simp only [exchangeFailure, groupFailure] at he
      rw [h, Res.andThen_ok, hg]
      by_cases hck : crc8 [b0, b1] = ck
      · rw [if_pos hck] at he
        cases he
      · rw [if_neg hck] at he ⊢
        cases he
        have ht := (hd.toXactTrail.quiet (quiet_raise t (checksumErr 0x4#4 1 (be16 (crc8 [b0, b1]) ck)))).attempted
          (m := 3) ⟨[b0, b1, ck], .inr rfl, hrx⟩ (Nat.le_refl _)
        refine ⟨_, rfl, ht, hd.silent, ?_, ⟨hd.same.poll, hd.same.results, congrArg StatusBits.ready hd.same.status⟩, hbus⟩
        show t.env.writes = ws
        rw [hd.writes, hw]
        rfl

/-- READ_MEAS's lines where its exchange fails, by its listed answers. -/
theorem readMeasLines_failed {s : State} {a : WriteAnswer} {r : ReadAnswer} {e : Err} {ws : List WriteAnswer}
    {rs : List ReadAnswer} (he : exchangeFailure 0x5#4 (exchangeOf 2 9 a r) = some e) (hw : s.env.writes = a :: ws)
    (hr : s.env.reads = r :: rs) :
    ∃ t, readMeasLines s = .raised e t ∧ RaisedTrail 9 frameReadMeas s t ∧ t.env.writes = ws ∧
      OnBus (xactEvents .readMeas [0xEC#8, 0x05#8] a r s.params) s t := by
  have hbus := xact_bus (c := .readMeas) (f := frameReadMeas) (s := s) (a := a) (r := r) (by rw [hw]; rfl)
    (.inr (by rw [hr]; rfl))
  have h := xact_listed (c := .readMeas) (f := frameReadMeas) (s := s) (a := a) (r := r)
    ⟨by rw [hw]; rfl, by rw [hr]; rfl⟩
  change (match exchangeOf 2 9 a r with
    | .unanswered => _
    | .failed info => _
    | .response b => _) at h
  unfold readMeasLines
  cases hx : exchangeOf 2 9 a r with
  | unanswered => rw [hx] at he; cases he
  | failed info =>
    rw [hx] at h he
    obtain ⟨t, h, ht, hrx, hs⟩ := h
    rw [h] at hbus
    cases he
    exact ⟨t, by rw [h]; rfl, ⟨ht, .of_eq hrx, hs⟩, by rw [ht.writes, hw]; rfl, hbus⟩
  | response b =>
    rw [hx] at h he
    obtain ⟨t, h, hd, hb, hrx, hrd⟩ := h
    rw [h] at hbus
    have hws : t.env.writes = ws := by
      rw [hd.writes, hw]
      rfl
    have hdt : DoneTrail .readMeas frameReadMeas s t := ⟨hd, b, .inr hb, hrx⟩
    match b, hb with
    | [a0, a1, c1, b0, b1, c2, d0, d1, c3], _ =>
      have g1 := checkGroup_filled (op := 0x5#4) (k := 1) (s := t) (b0 := a0) (b1 := a1) (ck := c1)
        (rx_filled hrx (i := 0) (by simp)) (rx_filled hrx (i := 1) (by simp)) (rx_filled hrx (i := 2) (by simp))
      have g2 := checkGroup_filled (op := 0x5#4) (k := 2) (s := t) (b0 := b0) (b1 := b1) (ck := c2)
        (rx_filled hrx (i := 3) (by simp)) (rx_filled hrx (i := 4) (by simp)) (rx_filled hrx (i := 5) (by simp))
      have g3 := checkGroup_filled (op := 0x5#4) (k := 3) (s := t) (b0 := d0) (b1 := d1) (ck := c3)
        (rx_filled hrx (i := 6) (by simp)) (rx_filled hrx (i := 7) (by simp)) (rx_filled hrx (i := 8) (by simp))
      simp only [exchangeFailure, groupFailure] at he
      rw [h, Res.andThen_ok, g1]
      by_cases h1 : crc8 [a0, a1] = c1
      · rw [if_pos h1] at he ⊢
        rw [Res.andThen_ok, g2]
        by_cases h2 : crc8 [b0, b1] = c2
        · rw [if_pos h2] at he ⊢
          rw [Res.andThen_ok, g3]
          by_cases h3 : crc8 [d0, d1] = c3
          · rw [if_pos h3] at he
            cases he
          · rw [if_neg h3] at he ⊢
            cases he
            exact ⟨_, rfl, hdt.raise _, hws, hbus⟩
        · rw [if_neg h2] at he ⊢
          cases he
          exact ⟨_, rfl, hdt.raise _, hws, hbus⟩
      · rw [if_neg h1] at he ⊢
        cases he
        exact ⟨_, rfl, hdt.raise _, hws, hbus⟩

/-- A poll on listed answers: status words that are not ready, and then an exchange that fails (43_polling.md R125). -/
theorem pollFrom_failed_listed {a : WriteAnswer} {r : ReadAnswer} {e : Err} {ws : List WriteAnswer}
    {rs : List ReadAnswer} (he : exchangeFailure 0x4#4 (exchangeOf 2 3 a r) = some e) (nr : List Word) :
    ∀ (left : Nat) (s : State), (∀ x ∈ nr, x &&& 0x07FF#16 = 0) → nr.length ≤ left →
      s.env.writes = List.replicate nr.length (.ok 2) ++ [a] ++ ws →
      s.env.reads = nr.map (fun x => ReadAnswer.ok (validGroup x)) ++ [r] ++ rs →
      ∃ t, pollFrom left s = .raised e t ∧ t.env.writes = ws ∧
        PollFailed nr (nr.length + 1) ((List.replicate nr.length (WriteAnswer.ok 2) ++ [a]).zip
          (nr.map (fun x => ReadAnswer.ok (validGroup x)) ++ [r])) s t := by
  induction nr with
  | nil =>
    intro left s _ _ hw hr
    obtain ⟨t, h, ha, hs, hws, hk, hb⟩ := queryReady_failed he hw hr
    exact ⟨(t.setPState .failed).log (.raise e), by rw [pollFrom, h]; rfl, hws,
      ⟨(ha.polled.setPState _).raise _, rfl, hs, hk.lastAnswer, hb⟩⟩
  | cons x nr ih =>
    intro left s hnr hl hw hr
    obtain ⟨left, rfl⟩ : ∃ j, left = j + 1 := ⟨left - 1, by simp at hl; omega⟩
    obtain ⟨v, h, q, hws, hrs⟩ := pollFrom_retried (left := left) (hnr x (by simp)) hw hr
    obtain ⟨u, hu, hwu, hf⟩ := ih left v (fun y hy => hnr y (List.mem_cons_of_mem _ hy)) (by simp at hl; omega) hws hrs
    exact ⟨u, h.trans hu, hwu, hf.retried q (Nat.le_add_left 1 nr.length) (by cases nr <;> simp [List.replicate_succ])⟩

/-- A poll on listed answers that end FAILED, from its first attempt on. -/
theorem pollFrom_failing {k : Nat} {s : State} {e : Err} {nr : List Word} {pw ws : List WriteAnswer}
    {pr rs : List ReadAnswer} (hl : FailingPoll e nr k pw pr) (hw : s.env.writes = pw ++ ws)
    (hr : s.env.reads = pr ++ rs) :
    ∃ t, pollFrom 10 s = .raised e t ∧ t.env.writes = ws ∧ PollFailed nr k (pw.zip pr) s t := by
  obtain ⟨hnr, ⟨a, r, he, hle, rfl, rfl, rfl⟩ | ⟨rfl, hle, rfl, rfl, rfl⟩⟩ := hl
  · exact pollFrom_failed_listed he nr 10 s hnr hle hw hr
  · exact pollFrom_timeout_listed 10 nr s ws rs hnr hle hw hr

/-- A failing group's error is one. -/
theorem groupFailure_kind {op : BitVec 4} {e : Err} (k : Nat) (bytes : List Byte)
    (h : groupFailure op k bytes = some e) : e.kind ≠ .none := by
  fun_induction groupFailure op k bytes with
  | case1 k b0 b1 rest ih => exact ih h
  | case2 k b0 b1 ck rest hc =>
    cases h
    simp
  | case3 => cases h

/-- A failing exchange's error is one. -/
theorem exchangeFailure_kind {op : BitVec 4} {x : Exchange} {e : Err} (h : exchangeFailure op x = some e) :
    e.kind ≠ .none := by
  cases x with
  | unanswered => cases h
  | failed i =>
    cases h
    simp
  | response b => exact groupFailure_kind 1 b h

/-- A failing poll's error is one. -/
theorem FailingPoll.kind {e : Err} {nr : List Word} {k : Nat} {pw : List WriteAnswer} {pr : List ReadAnswer}
    (h : FailingPoll e nr k pw pr) : e.kind ≠ .none := by
  obtain ⟨-, ⟨a, r, he, -⟩ | ⟨rfl, -⟩⟩ := h
  · exact exchangeFailure_kind he
  · simp

/-! ### A session's parts on listed answers -/

/-- What a part of a session leaves whose answers are taken up elsewhere: the errors, the parameters, and SHUTDOWN where no
move of the observer is listed. -/
structure Aside (s u : State) : Prop where
  params : u.params = s.params
  err : u.err = s.err
  errInfo : u.errInfo = s.errInfo
  shutdown : s.shutdown = true → u.shutdown = true
  still : Still s u

theorem Aside.trans {s t u : State} (h : Aside s t) (k : Aside t u) : Aside s u :=
  ⟨k.params.trans h.params, k.err.trans h.err, k.errInfo.trans h.errInfo, fun x => k.shutdown (h.shutdown x),
    h.still.trans k.still⟩

theorem Kept.aside {n m : Nat} {s t : State} (h : Kept n m s t) : Aside s t :=
  ⟨h.params, h.err, h.errInfo, h.shutdown, h.still⟩

theorem XactTrail.aside {f : List Byte} {s t : State} (h : XactTrail f s t) : Aside s t :=
  ⟨h.same.params, h.same.err, h.same.errInfo, h.same.shutdown, h.still⟩

/-- ATTEMPT after a poll of `k` exchanges from its entry (43_polling.md R121, R123). -/
theorem Polled.attempted {k : Nat} {s t : State} (h : Polled (k + 1) (nextAttempt (pollEntry s)) t) :
    t.poll = { pstate := t.poll.pstate, attempt := BitVec.ofNat 4 (k + 1) } := by
  have ha : t.poll.attempt = BitVec.ofNat 4 (k + 1) := by
    rw [h.attempt, Nat.add_sub_cancel, Nat.add_comm k 1, BitVec.ofNat_add]
    rfl
  rw [← ha]

/-- The registers of a poll that failed, from its entry. -/
theorem PollFailed.registers {nr : List Word} {k : Nat} {as : List (WriteAnswer × ReadAnswer)} {s t : State}
    (h : PollFailed nr (k + 1) as (nextAttempt (pollEntry s)) t) : PolledFailed nr (k + 1) s t :=
  ⟨h.failed ▸ h.attempted, h.answer⟩

/-- A clock sample as a part of a session. -/
theorem now_aside (s : State) : Aside s (now s).2 := by
  have h := now_same s
  have hf := now_fields s
  exact ⟨h.params, h.err, h.errInfo, h.shutdown, .of_eq hf.2.2.2.2.2.2.1 hf.2.2.2.1⟩

/-- S_EXIT (R141). -/
theorem sessionExit_spec (s : State) :
    ∃ t, sessionExit s = .next t ∧ t.measuring = false ∧ framesOf t.trace = framesOf s.trace ∧
      readingsOf t.trace = readingsOf s.trace ∧ samplesOf t.trace = samplesOf s.trace ∧ ReadKept s t ∧ OnBus [] s t ∧
      (s.session.perr.kind = .none → EndedWell true s t) ∧
      (s.session.perr.kind ≠ .none → EndedWith s.session.perr 0xB#4 s.session.perr2 t) := by
  have ho := observerTurn_only (s.setPhase .sExit)
  have hc := ho.counts
  have hse : (observerTurn (s.setPhase .sExit)).session = s.session := ho.same.session
  have hr := ho.same.readKept
  unfold sessionExit
  dsimp only
  rw [hse]
  split
  · rename_i hk
    exact ⟨_, rfl, rfl, hc.frames, hc.readings, hc.samples, ⟨hr.poll, hr.results, hr.ready⟩, ho.bus,
      fun _ => ⟨⟨rfl, rfl, rfl⟩, ho.same.err, ho.same.errInfo, rfl⟩, fun h => absurd hk h⟩
  · rename_i hk
    refine ⟨_, rfl, rfl, hc.frames, hc.readings, hc.samples, ⟨hr.poll, hr.results, hr.ready⟩, ho.bus,
      fun h => absurd h hk, fun _ => ⟨⟨rfl, rfl, rfl⟩, rfl, rfl, ?_, rfl⟩⟩
    exact decide_eq_true hk

/-- What a session's stop sends, emits, samples and reports, when its answer `b` is listed (R140, R141). -/
structure Stopped (b : WriteAnswer) (s t : State) : Prop where
  measuring : t.measuring = false
  frames : framesOf t.trace = stopFrame :: framesOf s.trace
  readings : readingsOf t.trace = readingsOf s.trace
  samples : samplesOf t.trace = samplesOf s.trace
  regs : ReadKept s t
  bus : OnBus (xactEvents .stopPeriodic [0x3F#8, 0x86#8] b .err s.params) s t
  well : s.session.perr.kind = .none →
    match exchangeOf 2 0 b .err with
    | .failed info => EndedWith { kind := .transport, op := 0x8#4, group := 0, info := info } 0xB#4 s.session.perr2 t
    | _ => EndedWell true s t
  failed : s.session.perr.kind ≠ .none →
    EndedWith s.session.perr 0xB#4 (if exchangeOf 2 0 b .err = .response [] then s.session.perr2 else .transport) t

/-- S_STOP on a listed answer. -/
theorem sessionStop_listed {s : State} {b : WriteAnswer} {ws : List WriteAnswer} (hw : s.env.writes = b :: ws)
    (hb : b ≠ .never) : ∃ t, sessionStop s = .next t ∧ Stopped b s t := by
  unfold sessionStop
  rcases xact_write_listed (c := .stopPeriodic) (f := frameStopPeriodic) (s := goto .sStop s) rfl hw hb with
    ⟨hx, t, h, hd, _, _, hb⟩ | ⟨info, hx, t, h, ht, _, _, hb⟩
  · rw [stopPeriodicLines, h]
    have hx : exchangeOf 2 0 b .err = .response [] := hx
    have hse : t.session = s.session := hd.same.session
    obtain ⟨u, hu, h1, h2, h3, h4, h5, hc, h6, h7⟩ := sessionExit_spec t
    refine ⟨u, hu, h1, h2.trans hd.frames, h3.trans hd.readings, h4.trans hd.samples,
      (((quiet_goto s .sStop).same.trans hd.same).readKept).trans h5, hb.trans hc, ?_, ?_⟩
    · intro hk
      rw [hx]
      have := h6 (by rw [hse]; exact hk)
      exact ⟨this.1, this.2.1.trans hd.same.err, this.2.2.1.trans hd.same.errInfo, this.2.2.2⟩
    · intro hk
      rw [hx, if_pos rfl, ← hse]
      exact h7 (by rw [hse]; exact hk)
  · rw [stopPeriodicLines, h]
    have hx : exchangeOf 2 0 b .err = .failed info := hx
    have hse : t.session = s.session := ht.same.session
    have hr : ReadKept s t := ((quiet_goto s .sStop).same.trans ht.same).readKept
    simp only [sessionAfterStop, hse]
    split
    · rename_i hk
      obtain ⟨u, hu, h1, h2, h3, h4, h5, hc, h6, h7⟩ := sessionExit_spec (t.setPerr (transportErr Command.stopPeriodic.op info))
      refine ⟨u, hu, h1, h2.trans ht.frames, h3.trans ht.readings, h4.trans ht.samples, hr.trans ⟨h5.poll, h5.results, h5.ready⟩,
        hb.trans hc, ?_, fun h => absurd hk h⟩
      intro _
      rw [hx, ← hse]
      exact h7 (by simp [State.setPerr, transportErr])
    · rename_i hk
      obtain ⟨u, hu, h1, h2, h3, h4, h5, hc, h6, h7⟩ :=
        sessionExit_spec (t.setPerr2 (transportErr Command.stopPeriodic.op info).kind)
      refine ⟨u, hu, h1, h2.trans ht.frames, h3.trans ht.readings, h4.trans ht.samples, hr.trans ⟨h5.poll, h5.results, h5.ready⟩,
        hb.trans hc, fun h => absurd h hk, ?_⟩
      intro _
      rw [hx, if_neg (by simp), ← hse]
      exact h7 (by show t.session.perr.kind ≠ _; rw [hse]; exact hk)

/-- The good start of a session (R131 to R134): T0 is sampled, and the loop begins. -/
theorem sessionStart_listed (onlyLast : Bool) {s : State} {ws : List WriteAnswer} (hw : s.env.writes = .ok 2 :: ws) :
    ∃ u, exec (.session onlyLast) s = sessionPoll (u.session.t0 + u.session.term + 2) u ∧ Aside s u ∧
      u.env.writes = ws ∧ u.env.reads = s.env.reads ∧
      u.session =
        { s.session with
          onlyLast := onlyLast, term := s.term, lastValid := false, perr := Err.absent, perr2 := .none
          t0 := u.session.t0 } ∧
      framesOf u.trace = frameStartPeriodic :: framesOf s.trace ∧ readingsOf u.trace = readingsOf s.trace ∧
      samplesOf u.trace = u.session.t0 :: samplesOf s.trace ∧ u.clock.afterXact = u.session.t0 + 1 ∧ ReadKept s u ∧
      Turns 1 s u ∧ OnBus (startEvents s.params (.ok 2)) s u := by
  rcases xact_write_listed (c := .startPeriodic) (f := frameStartPeriodic)
      (s := (sessionEntry onlyLast s).setPhase .sStart) rfl hw (by simp) with ⟨_, t, h, hd, hws, hrs, hb⟩ | ⟨_, hx, _⟩
  · have hf := now_fields t
    have hn := now_same t
    refine ⟨{ (now t).2 with session := { (now t).2.session with t0 := (now t).1 } }, ?_, ?_,
      hf.2.2.2.2.2.2.2.1.trans hws, hf.2.2.2.2.2.2.2.2.1.trans hrs, ?_, ?_, ?_, ?_, ?_,
      ⟨hn.poll.trans hd.same.poll, hn.results.trans hd.same.results,
        congrArg StatusBits.ready (hn.status.trans hd.same.status)⟩,
      (((Turns.of_eq (t := (sessionEntry onlyLast s).setPhase .sStart) rfl rfl rfl).trans hd.turns).trans
        (turns_now t)).trans (k := 0) (.of_eq rfl rfl rfl), hb.trans (bus_now t)⟩
    · show sessionAfterStart (xact _ _ _) = _
      rw [h]
      rfl
    · have k := (XactTrail.aside hd.toXactTrail).trans (now_aside t)
      exact ⟨k.params, k.err, k.errInfo, k.shutdown, k.still⟩
    · have q := hn.session.trans hd.same.session
      simp only [q]
      rfl
    · show framesOf (now t).2.trace = _
      rw [hf.2.2.2.2.2.2.2.2.2.2]
      exact hd.frames
    · show readingsOf (now t).2.trace = _
      rw [hf.2.2.2.2.2.2.2.2.2.2]
      exact hd.readings
    · show samplesOf (now t).2.trace = _
      rw [hf.2.2.2.2.2.2.2.2.2.2]
      exact congrArg (List.cons _) hd.samples
    · show (now t).2.clock.afterXact = _
      rw [hf.2.2.2.2.2.2.2.2.2.1]
  · cases hx

/-- READ_MEAS's lines on a listed response of three valid groups. -/
theorem readMeasLines_listed {s : State} {w1 w2 w3 : Word} {ws : List WriteAnswer} {rs : List ReadAnswer}
    (hw : s.env.writes = .ok 2 :: ws)
    (hr : s.env.reads = .ok (validGroup w1 ++ validGroup w2 ++ validGroup w3) :: rs) :
    ∃ t, readMeasLines s = .ok () ((now t).2.setMeas w1 w2 w3 (now t).1) ∧ DoneTrail .readMeas frameReadMeas s t ∧
      t.env.writes = ws ∧ t.env.reads = rs ∧
      OnBus (xactEvents .readMeas [0xEC#8, 0x05#8] (.ok 2)
        (.ok (validGroup w1 ++ validGroup w2 ++ validGroup w3)) s.params) s t := by
  obtain ⟨t, h, hd, hrx, hws, hrs, hb⟩ := xact_ok_listed (c := .readMeas) (f := frameReadMeas)
    (b := validGroup w1 ++ validGroup w2 ++ validGroup w3) (by decide) rfl hw hr
  have g1 := checkGroup_filled (op := 0x5#4) (k := 1) (s := t) (b0 := hiByte w1) (b1 := loByte w1)
    (ck := crc8 [hiByte w1, loByte w1]) (rx_filled hrx (i := 0) (by simp [validGroup]))
    (rx_filled hrx (i := 1) (by simp [validGroup])) (rx_filled hrx (i := 2) (by simp [validGroup]))
  have g2 := checkGroup_filled (op := 0x5#4) (k := 2) (s := t) (b0 := hiByte w2) (b1 := loByte w2)
    (ck := crc8 [hiByte w2, loByte w2]) (rx_filled hrx (i := 3) (by simp [validGroup]))
    (rx_filled hrx (i := 4) (by simp [validGroup])) (rx_filled hrx (i := 5) (by simp [validGroup]))
  have g3 := checkGroup_filled (op := 0x5#4) (k := 3) (s := t) (b0 := hiByte w3) (b1 := loByte w3)
    (ck := crc8 [hiByte w3, loByte w3]) (rx_filled hrx (i := 6) (by simp [validGroup]))
    (rx_filled hrx (i := 7) (by simp [validGroup])) (rx_filled hrx (i := 8) (by simp [validGroup]))
  rw [if_pos rfl, be16_bytes] at g1 g2 g3
  refine ⟨t, ?_, hd, hws, hrs, hb⟩
  unfold readMeasLines
  rw [h, Res.andThen_ok, g1, Res.andThen_ok, g2, Res.andThen_ok, g3, Res.andThen_ok]

/-- What the first three phases of the loop leave, up to the reading `r` in the result registers, with
`k` exchanges of the poll (R135, R136). -/
structure ReadOnce (w : Word) (k : Nat) (r : Reading) (bus : List Event) (s u : State) : Prop extends Aside s u where
  bus : OnBus bus s u
  session : u.session = s.session
  held : MeasHeld r u
  polled : PolledReady w k u
  turns : Turns (2 * k) s u
  frames : framesOf u.trace = frameReadMeas :: (List.replicate k frameGetDrdy ++ framesOf s.trace)
  readings : readingsOf u.trace = readingsOf s.trace
  samples : samplesOf u.trace = r.ts :: samplesOf s.trace
  later : s.clock.afterXact ≤ r.ts
  least : u.least = r.ts
  afterXact : u.clock.afterXact = r.ts + 1

/-- What a poll that ends READY after `k` exchanges leaves in a session (R135). -/
structure PolledOnce (w : Word) (k : Nat) (bus : List Event) (s u : State) : Prop extends Aside s u where
  bus : OnBus bus s u
  session : u.session = s.session
  frames : framesOf u.trace = List.replicate k frameGetDrdy ++ framesOf s.trace
  readings : readingsOf u.trace = readingsOf s.trace
  samples : samplesOf u.trace = samplesOf s.trace
  later : s.clock.afterXact ≤ u.least
  polled : PolledReady w k u
  meas : MeasKept s u
  turns : Turns (2 * k - 1) s u

/-- S_POLL on listed answers that end READY: S_READ is next. -/
theorem sessionPoll_polled {n k : Nat} {s : State} {w : Word} {pw ws : List WriteAnswer} {pr rs : List ReadAnswer}
    (hl : ReadyPoll w k pw pr) (hw : s.env.writes = pw ++ ws) (hr : s.env.reads = pr ++ rs) :
    ∃ u, sessionPoll (n + 1) s = sessionAfterRead (sessionPoll n) (readMeasLines u) ∧
      PolledOnce w k (pollEvents s.params (pw.zip pr)) s u ∧
      u.env.writes = ws ∧ u.env.reads = rs := by
  obtain ⟨nr, hnr, hz, hle, rfl, rfl, rfl⟩ := hl
  obtain ⟨t, h, hp, hps, hq, _, hws, hrs, hx, hn, hb⟩ := pollFrom_ready_listed (w := w) (ws := ws) (rs := rs) nr 10
    (nextAttempt (pollEntry (s.setPhase .sPoll))) hnr hz hle hw hr
  have hat := hp.attempted
  rw [hps] at hat
  have hrd := hq.2.2.2.2
  rw [decide_eq_true hz] at hrd
  refine ⟨t.setPhase .sRead, ?_, ⟨((sessionKept_setPhase s .sPoll).toKept.trans (sessionPart_entry _).toKept).aside.trans
    (hp.toKept.trans (kept_setPhase t _)).aside, hb, hp.session, hp.frames, hp.readings, hp.samples, hx,
    ⟨hat, hq.1, hq.2.1, hq.2.2.1, hq.2.2.2.1, hrd⟩, hp.meas, ?_⟩, hws, hrs⟩
  · rw [sessionPoll, pollLines_eq, h]
    rfl
  · rw [show 2 * (nr.length + 1) - 1 = 0 + (2 * nr.length + 1) by omega]
    exact (Turns.of_eq rfl rfl rfl).trans hn

/-- What a poll that ends FAILED after `k` exchanges leaves in a session (R135). -/
structure PollLost (nr : List Word) (k : Nat) (bus : List Event) (s u : State) : Prop extends Aside s u where
  bus : OnBus bus s u
  session : u.session = s.session
  polled : PolledFailed nr k s u
  meas : MeasKept s u
  frames : framesOf u.trace = List.replicate k frameGetDrdy ++ framesOf s.trace
  readings : readingsOf u.trace = readingsOf s.trace
  samples : samplesOf u.trace = samplesOf s.trace

/-- S_POLL on listed answers that end FAILED: S_ABORT is next (R135). -/
theorem sessionPoll_failed {n k : Nat} {s : State} {e : Err} {nr : List Word} {pw ws : List WriteAnswer}
    {pr rs : List ReadAnswer} (hl : FailingPoll e nr k pw pr) (hw : s.env.writes = pw ++ ws)
    (hr : s.env.reads = pr ++ rs) :
    ∃ u, sessionPoll (n + 1) s = sessionAbort e u ∧ PollLost nr k (pollEvents s.params (pw.zip pr)) s u ∧
      u.env.writes = ws := by
  obtain ⟨u, h, hws, hf⟩ := pollFrom_failing (s := nextAttempt (pollEntry (s.setPhase .sPoll))) hl hw hr
  obtain ⟨j, rfl⟩ : ∃ j, k = j + 1 := by
    obtain ⟨-, ⟨_, _, _, _, rfl, _⟩ | ⟨_, _, rfl, _⟩⟩ := hl <;> exact ⟨_, rfl⟩
  exact ⟨u, by rw [sessionPoll, pollLines_eq, h]; rfl,
    ⟨((sessionKept_setPhase s .sPoll).toKept.trans (sessionPart_entry _).toKept).aside.trans hf.toKept.aside, hf.bus,
      hf.session, hf.registers (s := s.setPhase .sPoll), hf.meas, hf.frames, hf.readings, hf.samples⟩, hws⟩

/-- An iteration of the loop on listed answers, up to S_KEEP. -/
theorem sessionPoll_read {n k : Nat} {s : State} {w w1 w2 w3 : Word} {pw ws : List WriteAnswer} {pr rs : List ReadAnswer}
    (hl : ReadyPoll w k pw pr) (hw : s.env.writes = pw ++ .ok 2 :: ws)
    (hr : s.env.reads = pr ++ .ok (validGroup w1 ++ validGroup w2 ++ validGroup w3) :: rs) :
    ∃ u ts, sessionPoll (n + 1) s = sessionTest (sessionPoll n) (sessionKeep u) ∧
      ReadOnce w k { ts := ts, co2 := w1, tRaw := w2, rhRaw := w3 }
        (iterationEvents s.params (pw.zip pr) (.ok 2) (.ok (validGroup w1 ++ validGroup w2 ++ validGroup w3))) s u ∧
      u.env.writes = ws ∧ u.env.reads = rs := by
  obtain ⟨u, h, p, hws, hrs⟩ := sessionPoll_polled (n := n) hl hw hr
  obtain ⟨t, hq, hd, hws, hrs, hb⟩ := readMeasLines_listed hws hrs
  have hk : 1 ≤ k := by
    obtain ⟨nr, _, _, _, hk, _⟩ := hl
    omega
  obtain ⟨j, hj, hn⟩ := now_spec t
  have hnf := now_fields t
  have hns := now_same t
  have htr : ((now t).2.setMeas w1 w2 w3 (now t).1).trace = .now (now t).1 :: t.trace := hnf.2.2.2.2.2.2.2.2.2.2
  refine ⟨(now t).2.setMeas w1 w2 w3 (now t).1, (now t).1, by rw [h, hq]; rfl,
    ⟨?_, p.params ▸ (p.bus.trans hb).trans (bus_now t), ?_, ⟨rfl, rfl⟩, ?_, ?_, ?_, ?_, ?_, ?_, ?_, ?_⟩,
    hnf.2.2.2.2.2.2.2.1.trans hws, hnf.2.2.2.2.2.2.2.2.1.trans hrs⟩
  · have a := (p.toAside.trans (XactTrail.aside hd.toXactTrail)).trans (now_aside t)
    exact ⟨a.params, a.err, a.errInfo, a.shutdown, a.still⟩
  · exact hns.session.trans (hd.same.session.trans p.session)
  · obtain ⟨q1, q2, q3, q4, q5, q6⟩ := (hd.same.trans hns).readKept.polled p.polled
    exact ⟨q1, q2, q3, q4, q5, q6⟩
  · rw [show 2 * k = 2 * k - 1 + 1 by omega]
    exact ((p.turns.trans hd.turns).trans (turns_now t)).trans (k := 0) (.of_eq rfl rfl rfl)
  · rw [htr]
    exact hd.frames.trans (congrArg _ p.frames)
  · rw [htr]
    exact hd.readings.trans p.readings
  · rw [htr]
    exact congrArg _ (hd.samples.trans p.samples)
  · exact Nat.le_trans p.later (Nat.le_trans (least_le hd.same.params hd.later) hj)
  · exact now_least t
  · show (now t).2.clock.afterXact = _
    rw [hnf.2.2.2.2.2.2.2.2.2.1]

/-- S_KEEP (R137). -/
theorem sessionKeep_spec (s : State) :
    Aside s (sessionKeep s) ∧ (sessionKeep s).env.writes = s.env.writes ∧ (sessionKeep s).env.reads = s.env.reads ∧
      (sessionKeep s).least = s.least ∧ (sessionKeep s).clock = s.clock ∧
      framesOf (sessionKeep s).trace = framesOf s.trace ∧ samplesOf (sessionKeep s).trace = samplesOf s.trace ∧
      (sessionKeep s).session =
        (if s.session.onlyLast then { s.session with last := readingOf s, lastValid := true }
          else s.session) ∧
      readingsOf (sessionKeep s).trace =
        (if s.session.onlyLast then readingsOf s.trace else readingOf s :: readingsOf s.trace) ∧
      ReadKept s (sessionKeep s) ∧ Turns 0 s (sessionKeep s) ∧ OnBus [] s (sessionKeep s) := by
  have ha := (sessionKept_keep s).toKept.aside
  unfold sessionKeep at ha ⊢
  dsimp only at ha ⊢
  cases h : s.session.onlyLast <;> simp only [setPhase_session, h] at ha ⊢ <;>
    exact ⟨ha, rfl, rfl, rfl, rfl, rfl, rfl, rfl, rfl, ⟨rfl, rfl, rfl⟩, .of_eq rfl rfl rfl, rfl⟩

/-- S_TEST (R138): the sample `n` and SHUTDOWN decide. -/
theorem sessionTest_spec (again : State → Host.Outcome State Fault Refusal) (s : State) :
    ∃ u n, sessionTest again s =
        (if n > s.session.t0 + s.session.term ∨ u.shutdown = true then sessionFinal u else again (goto .sPoll u)) ∧
      Aside s u ∧ u.session = s.session ∧ u.env.writes = s.env.writes ∧ u.env.reads = s.env.reads ∧
      framesOf u.trace = framesOf s.trace ∧ readingsOf u.trace = readingsOf s.trace ∧
      samplesOf u.trace = n :: samplesOf s.trace ∧ s.least ≤ n ∧ u.clock.afterXact = n + 1 ∧ ReadKept s u ∧
      Turns 1 s u ∧ OnBus [] s u := by
  have hf := now_fields (s.setPhase .sTest)
  have hn := now_same (s.setPhase .sTest)
  have ho := observerTurn_only (now (s.setPhase .sTest)).2
  have hc := ho.counts
  obtain ⟨j, hj, _⟩ := now_spec (s.setPhase .sTest)
  have htr := hf.2.2.2.2.2.2.2.2.2.2
  have hse : (observerTurn (now (s.setPhase .sTest)).2).session = s.session := ho.same.session.trans hn.session
  refine ⟨observerTurn (now (s.setPhase .sTest)).2, (now (s.setPhase .sTest)).1, ?_, ?_, hse,
    ho.writes.trans hf.2.2.2.2.2.2.2.1, ho.reads.trans hf.2.2.2.2.2.2.2.2.1, ?_, ?_, ?_, hj, ?_,
    ((sameRegs_setPhase s .sTest).trans (hn.trans ho.same)).readKept,
    ((Turns.of_eq (t := s.setPhase .sTest) rfl rfl rfl).trans (turns_now _)).trans (turns_observerTurn _),
    (bus_now _).trans ho.bus⟩
  · unfold sessionTest
    dsimp only
    rw [hse]
  · exact ((kept_setPhase (n := 0) (m := 0) s .sTest).aside.trans (now_aside _)).trans
      (kept_observerTurn (n := 0) (m := 0) _).aside
  · rw [hc.frames, htr]
    rfl
  · rw [hc.readings, htr]
    rfl
  · rw [hc.samples, htr]
    rfl
  · rw [ho.clock, hf.2.2.2.2.2.2.2.2.2.1]

/-- S_FINAL and the rest (R139 to R141), on a listed answer to the stop, after a session without an error. -/
theorem sessionFinal_listed {s : State} {b : WriteAnswer} {ws : List WriteAnswer} (hw : s.env.writes = b :: ws)
    (hb : b ≠ .never) (hp : s.session.perr = Err.absent) (hp2 : s.session.perr2 = .none) :
    ∃ t, sessionFinal s = .next t ∧ samplesOf t.trace = samplesOf s.trace ∧ ReadKept s t ∧
      StoppedAfter b (if s.session.onlyLast ∧ s.session.lastValid then [s.session.last] else []) [] [] s t := by
  unfold sessionFinal
  dsimp only
  have key : ∀ v : State, v.env.writes = b :: ws → v.session = s.session → v.err = s.err → v.errInfo = s.errInfo →
      framesOf v.trace = framesOf s.trace → samplesOf v.trace = samplesOf s.trace → ReadKept s v →
      v.params = s.params → OnBus [] s v → ∀ rs, readingsOf v.trace = rs ++ readingsOf s.trace →
      ∃ t, sessionStop v = .next t ∧ samplesOf t.trace = samplesOf s.trace ∧ ReadKept s t ∧
        StoppedAfter b rs [] [] s t := by
    intro v h1 h2 h3 h4 h5 h6 hk hq hv rs h7
    obtain ⟨t, ht, hs⟩ := sessionStop_listed h1 hb
    refine ⟨t, ht, hs.samples.trans h6, hk.trans hs.regs, hs.measuring, hs.readings.trans h7, ?_, ?_, ?_⟩
    · rw [hs.frames, h5]
      rfl
    · rw [List.append_nil, ← hq, ← List.append_nil (xactEvents ..)]
      exact hv.trans hs.bus
    · have := hs.well (by rw [h2, hp]; rfl)
      rw [h2, hp2] at this
      split
      · rename_i info hx
        rw [hx] at this
        exact this
      · rename_i hx
        split at this
        · rename_i info hx'
          exact absurd hx' (hx info)
        · exact ⟨this.1, this.2.1.trans h3, this.2.2.1.trans h4, this.2.2.2⟩
  rw [goto_session]
  split
  · exact key (emit s.session.last (goto .sFinal s)) hw rfl rfl rfl rfl rfl ⟨rfl, rfl, rfl⟩ rfl rfl [s.session.last] rfl
  · exact key (goto .sFinal s) hw rfl rfl rfl rfl rfl ⟨rfl, rfl, rfl⟩ rfl rfl [] rfl

/-- S_ABORT and the rest (R140 to R142), on a listed answer to the stop. -/
theorem sessionAbort_listed {s : State} {e : Err} {b : WriteAnswer} {ws : List WriteAnswer}
    (hw : s.env.writes = b :: ws) (hb : b ≠ .never) (he : e.kind ≠ .none) (hp2 : s.session.perr2 = .none) :
    ∃ t, sessionAbort e s = .next t ∧ samplesOf t.trace = samplesOf s.trace ∧ ReadKept s t ∧
      AbortedWith e b
        (if s.params.emitLastOnAbort ∧ s.session.onlyLast ∧ s.session.lastValid then [s.session.last] else []) [] [] s t := by
  unfold sessionAbort
  dsimp only
  have key : ∀ v : State, v.env.writes = b :: ws → v.session = { s.session with perr := e } → ReadKept s v →
      framesOf v.trace = framesOf s.trace → samplesOf v.trace = samplesOf s.trace →
      v.params = s.params → OnBus [] s v → ∀ rs, readingsOf v.trace = rs ++ readingsOf s.trace →
      ∃ t, sessionStop v = .next t ∧ samplesOf t.trace = samplesOf s.trace ∧ ReadKept s t ∧
        AbortedWith e b rs [] [] s t := by
    intro v h1 h2 h3 h5 h6 hq hv rs h7
    obtain ⟨t, ht, hs⟩ := sessionStop_listed h1 hb
    have hf := hs.failed (by rw [h2]; exact he)
    rw [h2] at hf
    dsimp only at hf
    rw [hp2] at hf
    refine ⟨t, ht, hs.samples.trans h6, h3.trans hs.regs, hf, hs.measuring, hs.readings.trans h7, ?_, ?_⟩
    · rw [hs.frames, h5]
      rfl
    · rw [List.append_nil, ← hq, ← List.append_nil (xactEvents ..)]
      exact hv.trans hs.bus
  have hs : (goto .sAbort (s.setPerr e)).session = { s.session with perr := e } := rfl
  have hq : (goto .sAbort (s.setPerr e)).params = s.params := rfl
  rw [hs, hq]
  dsimp only
  split
  · exact key (emit s.session.last (goto .sAbort (s.setPerr e))) hw rfl ⟨rfl, rfl, rfl⟩ rfl rfl rfl rfl [s.session.last] rfl
  · exact key (goto .sAbort (s.setPerr e)) hw rfl ⟨rfl, rfl, rfl⟩ rfl rfl rfl rfl [] rfl

/-! ### Parts together -/

/-- What was sent and emitted before S_FINAL counts into the end of a session without an error. -/
theorem StoppedAfter.after {b : WriteAnswer} {rs rs' : List Reading} {fs : List (List Byte)} {bus : List Event}
    {s u t : State} (h : StoppedAfter b rs [] [] u t) (ha : Aside s u)
    (hr : readingsOf u.trace = rs' ++ readingsOf s.trace) (hf : framesOf u.trace = fs ++ framesOf s.trace)
    (hb : OnBus bus s u) : StoppedAfter b (rs ++ rs') fs bus s t := by
  obtain ⟨h1, h2, h3, h5, h4⟩ := h
  rw [List.append_nil, ha.params] at h5
  refine ⟨h1, by rw [h2, hr, List.append_assoc], by rw [h3, hf]; rfl, hb.trans h5, ?_⟩
  split
  · rename_i info hx
    rw [hx] at h4
    exact h4
  · rename_i hx
    split at h4
    · rename_i info hx'
      exact absurd hx' (hx info)
    · exact ⟨h4.1, h4.2.1.trans ha.err, h4.2.2.1.trans ha.errInfo, h4.2.2.2⟩

/-- What was sent and emitted before S_ABORT counts into the end of a session with an error. -/
theorem AbortedWith.after {e : Err} {b : WriteAnswer} {rs rs' : List Reading} {fs : List (List Byte)} {bus : List Event}
    {s u t : State} (h : AbortedWith e b rs [] [] u t) (ha : Aside s u)
    (hr : readingsOf u.trace = rs' ++ readingsOf s.trace) (hf : framesOf u.trace = fs ++ framesOf s.trace)
    (hb : OnBus bus s u) : AbortedWith e b (rs ++ rs') fs bus s t := by
  obtain ⟨h1, h2, h3, h4, h5⟩ := h
  rw [List.append_nil, ha.params] at h5
  exact ⟨h1, h2, by rw [h3, hr, List.append_assoc], by rw [h4, hf]; rfl, hb.trans h5⟩

/-- What a session has at its first S_TEST, when its start, poll and read are listed as good ones: the samples T0, `ts` and
`n`, the registers of the session, the first reading held or emitted, and the observer's turns up to there. -/
structure FirstTest (onlyLast : Bool) (w : Word) (k t0 n : Nat) (r : Reading) (bus : List Event) (s u : State) : Prop
    extends Aside s u where
  bus : OnBus bus s u
  samples : samplesOf u.trace = [n, r.ts, t0] ++ samplesOf s.trace
  order : t0 < r.ts ∧ r.ts ≤ n
  afterXact : u.clock.afterXact = n + 1
  frames : framesOf u.trace =
    (frameReadMeas :: List.replicate k frameGetDrdy ++ [frameStartPeriodic]) ++ framesOf s.trace
  readings : readingsOf u.trace = (if onlyLast then [] else [r]) ++ readingsOf s.trace
  mode : u.session.onlyLast = onlyLast
  t0 : u.session.t0 = t0
  term : u.session.term = s.term
  perr : u.session.perr = Err.absent
  perr2 : u.session.perr2 = .none
  lastValid : u.session.lastValid = onlyLast
  last : onlyLast = true → u.session.last = r
  held : MeasHeld r u
  polled : PolledReady w k u
  turns : Turns (2 * k + 2) s u

/-- A session up to its first S_TEST on listed answers: past T0 + TERM, or with SHUTDOWN = 1, it goes to S_FINAL, else to
S_POLL. -/
theorem session_firstTest (onlyLast : Bool) {k : Nat} {s : State} {pw ws : List WriteAnswer} {pr rs : List ReadAnswer}
    {w w1 w2 w3 : Word} (hl : ReadyPoll w k pw pr) (hw : s.env.writes = .ok 2 :: (pw ++ .ok 2 :: ws))
    (hr : s.env.reads = pr ++ .ok (validGroup w1 ++ validGroup w2 ++ validGroup w3) :: rs) :
    ∃ u t0 ts n, exec (.session onlyLast) s =
        (if n > t0 + s.term ∨ u.shutdown = true then sessionFinal u else sessionPoll (t0 + s.term + 1) (goto .sPoll u)) ∧
      FirstTest onlyLast w k t0 n { ts := ts, co2 := w1, tRaw := w2, rhRaw := w3 }
        (iterationEvents s.params (pw.zip pr) (.ok 2) (.ok (validGroup w1 ++ validGroup w2 ++ validGroup w3)) ++
          startEvents s.params (.ok 2)) s u ∧
      u.env.writes = ws ∧ u.env.reads = rs := by
  obtain ⟨u1, h1, a1, b1, c1, d1, e1, f1, g1, i1, q1, t1, y1⟩ := sessionStart_listed onlyLast hw
  obtain ⟨u2, ts, h2, r2, b2, c2⟩ := sessionPoll_read (n := u1.session.t0 + u1.session.term + 1) hl b1 (c1.trans hr)
  obtain ⟨k1, k2, k3, k4, _, k6, k7, k8, k9, q2, t2, y2⟩ := sessionKeep_spec u2
  obtain ⟨u3, n, h3, a3, b3, c3, d3, e3, f3, g3, i3, j3, q3, t3, y3⟩ :=
    sessionTest_spec (sessionPoll (u1.session.t0 + u1.session.term + 1)) (sessionKeep u2)
  have hse : u1.session.term = s.term := by rw [d1]
  have hol : u1.session.onlyLast = onlyLast := by rw [d1]
  have hs2 : u2.session = u1.session := r2.session
  have hk : (sessionKeep u2).session.t0 = u1.session.t0 ∧ (sessionKeep u2).session.term = s.term := by
    rw [k8, hs2, hol]
    cases onlyLast <;> exact ⟨rfl, hse⟩
  have hs3 : u3.session =
      (if onlyLast then
        { u1.session with last := { ts := ts, co2 := w1, tRaw := w2, rhRaw := w3 }, lastValid := true }
      else u1.session) := by
    rw [b3, k8, hs2, hol, r2.held.1]
  refine ⟨u3, u1.session.t0, ts, n, ?_, ⟨(a1.trans r2.toAside).trans (k1.trans a3),
    a1.params ▸ ((y1.trans r2.bus).trans y2).trans y3, ?_, ⟨?_, ?_⟩, j3, ?_, ?_, ?_, ?_,
    ?_, ?_, ?_, ?_, ?_, (q2.trans q3).held r2.held, (q2.trans q3).polled r2.polled, ?_⟩, c3.trans (k2.trans b2),
    d3.trans (k3.trans c2)⟩
  · rw [h1]
    show sessionPoll (u1.session.t0 + u1.session.term + 1 + 1) u1 = _
    rw [h2, h3, hk.1, hk.2, hse]
  · rw [g3, k7, r2.samples, g1]
    rfl
  · have := r2.later
    rw [i1] at this
    exact this
  · have := r2.least
    rw [k4] at i3
    rw [this] at i3
    exact i3
  · rw [e3, k6, r2.frames, e1]
    simp
  · rw [f3, k9, hs2, hol, r2.readings, f1, r2.held.1]
    cases onlyLast <;> rfl
  · rw [hs3]
    cases onlyLast <;> exact hol
  · rw [hs3]
    cases onlyLast <;> rfl
  · rw [hs3]
    cases onlyLast <;> exact hse
  · rw [hs3, d1]
    cases onlyLast <;> rfl
  · rw [hs3, d1]
    cases onlyLast <;> rfl
  · rw [hs3, d1]
    cases onlyLast <;> rfl
  · rintro rfl
    rw [hs3]
    rfl
  · rw [show 2 * k + 2 = 1 + 2 * k + 0 + 1 by omega]
    exact ((t1.trans r2.turns).trans t2).trans t3

end Sys2Proof.Machine
end

