-- ==== Sys2Proof/Laws/PerInstr.lean ====
section
/-! SUPPORT. What holds of every instruction as syntax, one lemma for each constructor: a request is encoded as one word
whose OP is its own and whose bits 15:5 are 0, a frame as two bytes, or as five for forced recalibration. -/

namespace Sys2Proof.Laws

open Sys2Proof.Machine

/-- The level and the fixed bits of some bits of an instruction (30_encoding.md R57, R62, R63). -/
def encodedShape : Code → Bool
  | .req r => reqUnused r = 0 && (reqOp r).toNat < 0xC && (reqOL r = false || reqOp r = 0xB#4)
  | .frame bytes => bytes.length = 2 || (bytes.length = 5 && bytes.take 2 = [0x36#8, 0x2F#8])

def EncodedShape.Statement (i : Instr) : Prop := encodedShape (encode i) = true

theorem EncodedShape.crcInit : EncodedShape.Statement .crcInit := rfl

theorem EncodedShape.crcFeed (b : Byte) : EncodedShape.Statement (.crcFeed b) := by
  simp only [EncodedShape.Statement, encode, encodedShape, feedWord, reqUnused_append, reqOp_append, reqOL_append]
  decide

theorem EncodedShape.getVariant : EncodedShape.Statement .getVariant := rfl

theorem EncodedShape.selfTest : EncodedShape.Statement .selfTest := rfl

theorem EncodedShape.getDrdy : EncodedShape.Statement .getDrdy := rfl

theorem EncodedShape.readMeas : EncodedShape.Statement .readMeas := rfl

theorem EncodedShape.measSingle : EncodedShape.Statement .measSingle := rfl

theorem EncodedShape.startPeriodic : EncodedShape.Statement .startPeriodic := rfl

theorem EncodedShape.stopPeriodic : EncodedShape.Statement .stopPeriodic := rfl

theorem EncodedShape.frc (target : Word) : EncodedShape.Statement (.frc target) := by
  simp only [EncodedShape.Statement, encode, encodedShape, reqUnused_append, reqOp_append, reqOL_append]
  decide

theorem EncodedShape.pollReady : EncodedShape.Statement .pollReady := rfl

theorem EncodedShape.session (onlyLast : Bool) : EncodedShape.Statement (.session onlyLast) := by
  cases onlyLast <;> rfl

theorem EncodedShape.frameGetVariant : EncodedShape.Statement .frameGetVariant := rfl

theorem EncodedShape.frameSelfTest : EncodedShape.Statement .frameSelfTest := rfl

theorem EncodedShape.frameGetDrdy : EncodedShape.Statement .frameGetDrdy := rfl

theorem EncodedShape.frameReadMeas : EncodedShape.Statement .frameReadMeas := rfl

theorem EncodedShape.frameMeasSingle : EncodedShape.Statement .frameMeasSingle := rfl

theorem EncodedShape.frameStartPeriodic : EncodedShape.Statement .frameStartPeriodic := rfl

theorem EncodedShape.frameStopPeriodic : EncodedShape.Statement .frameStopPeriodic := rfl

theorem EncodedShape.frameFrc (target : Word) (ck : Byte) : EncodedShape.Statement (.frameFrc target ck) := rfl

end Sys2Proof.Laws
end

