-- ==== Sys2Proof/Tests/Slice0.lean ====
section
/-! SUPPORT. The model's own tests. Every expected value is one of 95_test_vectors.md or is read off the encoding tables of
30_encoding.md; each test names its vector. The last part shows, for every statement with hypotheses, a state and
operands that meet them all. -/

namespace Sys2Proof.Tests

open Sys2Proof.Machine

set_option Elab.async false

/-! ### Helpers -/

/-- The parameters of the tests: VARIANT_OK holds of 0x1441 alone, each command has a wait of its own, a second has ten
ticks and a clock unit two. -/
def params : Params :=
  { i2cAddr := 0x2A#7
    tExec :=
      { getVariant := 1, selfTest := 2, getDrdy := 3, readMeas := 4, measSingle := 5, startPeriodic := 6,
        stopPeriodic := 7, frc := 8 }
    ticksPerSecond := { pred := 9 }, clockUnit := { pred := 1 }
    clockW := 32, variantOk := [0x1441#16], emitLastOnAbort := true, hostRegAddr := [] }

/-- A read answer. -/
def bytes (l : List Nat) : ReadAnswer := .ok (l.map (BitVec.ofNat 8))

/-- The reset state with parameters, a host's program, transport answers and clock draws. -/
def start (host : List HostStep) (writes : List WriteAnswer) (reads : List ReadAnswer) (waits : List Nat) : State :=
  { State.reset with
    params := params
    env := { State.reset.env with host := host, writes := writes, reads := reads, waits := waits } }

/-- The next step on one request. -/
def run (r : BitVec 32) (writes : List WriteAnswer) (reads : List ReadAnswer) (waits : List Nat) :
    Host.Outcome State Fault Refusal := step (start [.request r] writes reads waits)

/-- What an outcome's next state shows. -/
def view {α : Type} (o : Host.Outcome State Fault Refusal) (f : State → α) : Option α :=
  match o with
  | .next s => some (f s)
  | _ => none

/-- STATUS, ERR and ERR_INFO. -/
def regs (s : State) : BitVec 16 × BitVec 32 × BitVec 16 := (s.statusWord, s.err.packed, s.errInfo)

/-- Whether an outcome is a next state. -/
def goesOn (o : Host.Outcome State Fault Refusal) : Bool := (view o fun _ => ()).isSome

theorem goesOn_next {o : Host.Outcome State Fault Refusal} (h : goesOn o = true) : ∃ t, o = .next t := by
  cases o with
  | next s => exact ⟨s, rfl⟩
  | fault f => cases h
  | refused r => cases h

/-- The fault of an outcome. -/
def faultOf (o : Host.Outcome State Fault Refusal) : Option Fault :=
  match o with
  | .fault f => some f
  | _ => none

/-- The rejection of some bits, if they are rejected. -/
def rejection (c : Code) : Option Reject :=
  match decode c with
  | .ok _ => none
  | .error e => some e

/-- A not-ready status (95_test_vectors.md K7). -/
def notReady : ReadAnswer := bytes [0x80, 0x00, 0xA2]

/-- A ready status (K8). -/
def isReady : ReadAnswer := bytes [0x80, 0x06, 0x04]

/-- The response of vector X17. -/
def meas : ReadAnswer := bytes [0x01, 0xF4, 0x33, 0x66, 0x67, 0xA2, 0x5E, 0xB9, 0x3C]

/-! ### Well-formedness and decoding -/

/-- R60: a forced-recalibration frame with another checksum byte stands for no frame. -/
theorem test_illformed_frc_refused : Instr.wellFormed (.frameFrc 400#16 0x4D#8) = false := by decide +kernel

/-- Vector V2. -/
theorem test_frc_wellformed : Instr.wellFormed (.frameFrc 400#16 0x4C#8) = true := by decide +kernel

/-- R62 and R63, bit by bit: ARG, bits 15:5, OL, OP. -/
theorem test_decode_requests :
    [0b0000000000000000_00000000000_0_0000#32, 0b0000000010111110_00000000000_0_0001#32,
      0b0000000000000000_00000000000_0_0010#32, 0b0000000000000000_00000000000_0_0011#32,
      0b0000000000000000_00000000000_0_0100#32, 0b0000000000000000_00000000000_0_0101#32,
      0b0000000000000000_00000000000_0_0110#32, 0b0000000000000000_00000000000_0_0111#32,
      0b0000000000000000_00000000000_0_1000#32, 0b0000000110010000_00000000000_0_1001#32,
      0b0000000000000000_00000000000_0_1010#32, 0b0000000000000000_00000000000_0_1011#32,
      0b0000000000000000_00000000000_1_1011#32].map (fun r => accepted (decode (.req r))) =
    [.crcInit, .crcFeed 0xBE#8, .getVariant, .selfTest, .getDrdy, .readMeas, .measSingle, .startPeriodic,
      .stopPeriodic, .frc 400#16, .pollReady, .session false, .session true].map some := by decide +kernel

/-- R58 and R60, byte by byte. -/
theorem test_decode_frames :
    [[0b00100000#8, 0b00101111#8], [0b00110110#8, 0b00111001#8], [0b11100100#8, 0b10111000#8],
      [0b11101100#8, 0b00000101#8], [0b00100001#8, 0b10011101#8], [0b00100001#8, 0b10110001#8],
      [0b00111111#8, 0b10000110#8],
      [0b00110110#8, 0b00101111#8, 0b00000001#8, 0b10010000#8, 0b01001100#8]].map
        (fun b => accepted (decode (.frame b))) =
    [.frameGetVariant, .frameSelfTest, .frameGetDrdy, .frameReadMeas, .frameMeasSingle, .frameStartPeriodic,
      .frameStopPeriodic, .frameFrc 400#16 0x4C#8].map some := by decide +kernel

/-- Vectors E15 to E22, and OP = 0xD and 0xE. -/
theorem test_illegal_requests :
    [0x0000000C#32, 0x0000000D#32, 0x0000000E#32, 0x0000000F#32, 0x00000010#32, 0x01BE0001#32, 0x00000011#32,
      0x00010002#32, 0x0000002B#32, 0x00010010#32].map (fun r => rejection (.req r)) =
    [some .reservedOp, some .reservedOp, some .reservedOp, some .reservedOp, some .mustBeZero, some .mustBeZero,
      some .mustBeZero, some .mustBeZero, some .mustBeZero, some .mustBeZero] := by decide +kernel

/-- R69: another opcode, a bad checksum, too few bytes and too many. -/
theorem test_rejected_frames :
    [[0x20#8, 0x2E#8], [0x36#8, 0x2F#8, 0x01#8, 0x90#8, 0x4D#8], [0x36#8, 0x2F#8, 0x01#8], [0x20#8],
      [0x20#8, 0x2F#8, 0x00#8]].map (fun b => rejection (.frame b)) =
    [some .notAFrame, some .badChecksum, some .shortFrame, some .shortFrame, some .trailingBytes] := by
  decide +kernel

/-- Vector E11: bit 4 of the target is bit 20 of the word, not OL. -/
theorem test_table_words :
    decodeTableWord 32 0x00100009 = some (.frc 16#16) ∧ decodeTableWord 16 0xE4B8 = some .frameGetDrdy ∧
    decodeTableWord 40 0x362F01904C = some (.frameFrc 400#16 0x4C#8) ∧ decodeTableWord 16 0x2030 = none := by
  decide +kernel

/-! ### The checksum -/

/-- Vectors K1 to K3, V1 and V4, and the trace V3. -/
theorem test_crc8 :
    crc8 [] = 0xFF#8 ∧ crc8 [0x00#8] = 0xAC#8 ∧ crc8 [0xFF#8] = 0x00#8 ∧ crc8 [0xBE#8, 0xEF#8] = 0x92#8 ∧
    crc8 [0x31#8, 0x32#8, 0x33#8, 0x34#8, 0x35#8, 0x36#8, 0x37#8, 0x38#8, 0x39#8] = 0xF7#8 ∧
    crcStep 0xFF#8 0xBE#8 = 0x0C#8 := by decide +kernel

/-- Vector V9, bits 15, 8, 7 and 0. -/
theorem test_flips :
    crc8 [0x3E#8, 0xEF#8] = 0xB1#8 ∧ crc8 [0xBF#8, 0xEF#8] = 0x66#8 ∧ crc8 [0xBE#8, 0x6F#8] = 0xE8#8 ∧
    crc8 [0xBE#8, 0xEE#8] = 0xA3#8 := by decide +kernel

/-! ### Requests -/

/-- Vector K30. -/
theorem test_crcInit :
    view (step { start [.request 0#32] [] [] [] with acc := 0x5A#8 }) (fun s => (s.acc, s.statusWord)) =
      some (0xFF#8, 0x000A#16) := by decide +kernel

/-- Vector K33: B = ACC. -/
theorem test_crcFeed_acc :
    view (step { start [.request 0x005A0001#32] [] [] [] with acc := 0x5A#8 }) (fun s => (s.acc, s.statusWord)) =
      some (0x00#8, 0x000A#16) := by decide +kernel

/-- Vector K34: the reset seed. -/
theorem test_crcFeed_reset : view (run 0x00000001#32 [] [] []) (fun s => s.acc) = some 0xAC#8 := by decide +kernel

/-- Vector X1. -/
theorem test_getVariant :
    view (run 0x00000002#32 [.ok 2] [bytes [0x14, 0x41, 0x60]] []) (fun s => (s.statusWord, s.results.word)) =
      some (0x000A#16, 0x1441#16) := by decide +kernel

/-- Vector X3. -/
theorem test_getVariant_checksum :
    view (run 0x00000002#32 [.ok 2] [bytes [0x14, 0x41, 0x61]] []) regs =
      some (0x0006#16, 0x00001222#32, 0x6061#16) := by decide +kernel

/-- Vector X7. -/
theorem test_selfTest_passed :
    view (run 0x00000003#32 [.ok 2] [bytes [0x00, 0x00, 0x81]] []) (fun s => (s.statusWord, s.results.word)) =
      some (0x008A#16, 0x0000#16) := by decide +kernel

/-- Vector X8. -/
theorem test_selfTest_failed :
    view (run 0x00000003#32 [.ok 2] [bytes [0x00, 0x06, 0x27]] []) regs =
      some (0x0006#16, 0x00000333#32, 0x0006#16) := by decide +kernel

/-- Vector X12: bit 11 is no readiness. -/
theorem test_getDrdy_bit11 :
    view (run 0x00000004#32 [.ok 2] [bytes [0x08, 0x00, 0xB6]] []) (fun s => (s.statusWord, s.results.drdy)) =
      some (0x000A#16, 0#11) := by decide +kernel

/-- Vector X14. -/
theorem test_getDrdy_ready :
    view (run 0x00000004#32 [.ok 2] [bytes [0x07, 0xFF, 0x83]] []) (fun s => (s.statusWord, s.results.drdy)) =
      some (0x004A#16, 0x7FF#11) := by decide +kernel

/-- Vector X17, where the wait of 4 ticks is two units and the listed draw three more. -/
theorem test_readMeas :
    view (run 0x00000005#32 [.ok 2] [meas] [3])
      (fun s => (s.results.co2, s.results.tRaw, s.results.rhRaw, s.results.ts)) =
      some (500#16, 0x6667#16, 0x5EB9#16, 5) := by decide +kernel

/-- Vector X21: the first failing group. -/
theorem test_readMeas_checksum :
    view (run 0x00000005#32 [.ok 2] [bytes [0x01, 0xF4, 0x00, 0x66, 0x67, 0xA2, 0x5E, 0xB9, 0x00]] []) regs =
      some (0x0006#16, 0x00001552#32, 0x3300#16) := by decide +kernel

/-- Vector X31. -/
theorem test_measSingle :
    view (run 0x00000006#32 [.ok 2] [] []) regs = some (0x0002#16, 0#32, 0#16) := by decide +kernel

/-- Vector X32. -/
theorem test_startPeriodic :
    view (run 0x00000007#32 [.ok 1] [] []) regs = some (0x0006#16, 0x00000771#32, 0x0001#16) := by decide +kernel

/-- Vector X34. -/
theorem test_stopPeriodic :
    view (run 0x00000008#32 [.err] [] []) regs = some (0x0006#16, 0x00000881#32, 0xFFFF#16) := by decide +kernel

/-- Vector X25. -/
theorem test_frc :
    view (run 0x01900009#32 [.ok 5] [bytes [0x00, 0x00, 0x81]] []) (fun s => (s.statusWord, s.results.corr)) =
      some (0x000A#16, 0x8000#16) := by decide +kernel

/-- Vector X28: FF FF, whatever the checksum. -/
theorem test_frc_sentinel :
    view (run 0x01900009#32 [.ok 5] [bytes [0xFF, 0xFF, 0x00]] []) regs =
      some (0x0006#16, 0x00000993#32, 0xFFFF#16) := by decide +kernel

/-- Vector L4: ready on attempt 11. -/
theorem test_pollReady_last :
    view (run 0x0000000A#32 (List.replicate 11 (.ok 2)) (List.replicate 10 notReady ++ [bytes [0x00, 0x01, 0xB0]]) [])
      (fun s => (s.statusWord, pollDelays s.trace)) = some (0x2E4A#16, 10) := by decide +kernel

/-- Vector L6: CHECKSUM ends the poll. -/
theorem test_pollReady_checksum :
    view (run 0x0000000A#32 [.ok 2, .ok 2] [notReady, bytes [0x80, 0x00, 0xA3]] []) regs =
      some (0x0B06#16, 0x00001A42#32, 0xA2A3#16) := by decide +kernel

/-- Program P7, with TERM = 10: the stop's error beside the read's. -/
theorem test_session_errors :
    view (step { start [.request 0x0000000B#32] [.ok 2, .ok 2, .ok 2, .err]
      [isReady, bytes [0x01, 0xF4, 0x33, 0x66, 0x67, 0xA3, 0x5E, 0xB9, 0x3C]] [] with term := 10 })
      (fun s => (regs s, readingsOf s.trace)) =
      some ((0x0646#16, 0x00012B52#32, 0xA2A3#16), []) := by decide +kernel

/-- Program P10: the observer asks while the poll runs; its check at S_EXIT still sees MEASURING = 1. -/
theorem test_session_shutdown :
    view (step
      (let s := start [.request 0x0000001B#32] [.ok 2, .ok 2, .ok 2, .ok 2] [isReady, meas] []
       { s with
         term := 1000
         env := { s.env with during := [[], [.setShutdown], [], [], [], [.check]], waits := [0, 0, 0] } }))
      (fun s => (s.statusWord, (readingsOf s.trace).map Reading.co2, s.env.observer, framesOf s.trace)) =
      some (0x066A#16, [500#16], .waiting,
        [[0x3F#8, 0x86#8], [0xEC#8, 0x05#8], [0xE4#8, 0xB8#8], [0x21#8, 0xB1#8]]) := by decide +kernel

/-- Parameters under which only POLL_INTERVAL takes time, one unit, with a value of EMIT_LAST_ON_ABORT. -/
def quick (emitLast : Bool) : Params :=
  { params with
    tExec :=
      { getVariant := 0, selfTest := 0, getDrdy := 0, readMeas := 0, measSingle := 0, startPeriodic := 0,
        stopPeriodic := 0, frc := 0 }
    ticksPerSecond := { pred := 0 }, clockUnit := { pred := 0 }, emitLastOnAbort := emitLast }

/-- Program P9. -/
theorem test_session_two_iterations :
    view (step { start [.request 0x0000000B#32] (List.replicate 7 (.ok 2))
      [isReady, meas, notReady, isReady, bytes [0x03, 0x20, 0x2A, 0x65, 0x5C, 0xA0, 0x5C, 0x28, 0xED]]
      [0, 0, 1, 1, 2] with params := quick true, term := 5 })
      (fun s => (s.statusWord, samplesOf s.trace, readingsOf s.trace, s.measuring)) =
      some (0x0A4A#16, [6, 4, 2, 1, 0],
        [{ ts := 4, co2 := 800#16, tRaw := 0x655C#16, rhRaw := 0x5C28#16 },
          { ts := 1, co2 := 500#16, tRaw := 0x6667#16, rhRaw := 0x5EB9#16 }], false) := by decide +kernel

/-- R160: CLOCK_ADVANCES bounds the samples and not the time gone by. With T0 = 5, an attempt that is not ready, a delay of
one unit and a ready attempt, READ_MEAS may sample 6. -/
theorem test_session_earliest_sample :
    view (step { start [.request 0x0000000B#32] (List.replicate 5 (.ok 2)) [notReady, isReady, meas] [5, 0, 0] with
      params := quick true }) (fun s => samplesOf s.trace) = some [6, 6, 5] := by decide +kernel

/-- R11: the raises of the status exchange (R100) and of the poll (R127), and each `goto` of the session (R135, R142), are
events, the newest first. -/
theorem test_session_gotos :
    view (step (start [.request 0x0000000B#32] [.ok 2, .err, .ok 2] [] []))
      (fun s => s.trace.filter fun v => match v with | .raise _ | .goto _ => true | _ => false) =
      some ([.goto .sStop, .goto .sAbort] ++
        List.replicate 2 (.raise { kind := .transport, op := 0x4#4, group := 0, info := 0xFFFF#16 })) := by
  decide +kernel

/-- Vector E21: ILLEGAL before S_ENTRY. -/
theorem test_illegal_session :
    view (run 0x0000002B#32 [] [] []) (fun s => (regs s, s.measuring, framesOf s.trace)) =
      some ((0x0006#16, 0x00000BB5#32, 0x002B#16), false, []) := by decide +kernel

/-! ### Frames -/

/-- A frame placed as the next to be sent. -/
def placed (nbits w : Nat) (writes : List WriteAnswer) (reads : List ReadAnswer) : State :=
  (start [] writes reads []).withFetchWord nbits w

/-- R91 and vector X1. -/
theorem test_frameGetVariant :
    view (step (placed 16 0x202F [.ok 2] [bytes [0x14, 0x41, 0x60]])) (fun s => (s.statusWord, s.results.word)) =
      some (0x000A#16, 0x1441#16) := by decide +kernel

/-- R92 and vector X9. -/
theorem test_frameSelfTest :
    view (step (placed 16 0x3639 [.ok 2] [bytes [0xFF, 0xFF, 0xAC]])) regs =
      some (0x0006#16, 0x00000333#32, 0xFFFF#16) := by decide +kernel

/-- R93 and vector X13. -/
theorem test_frameGetDrdy :
    view (step (placed 16 0xE4B8 [.ok 2] [bytes [0x00, 0x01, 0xB0]])) (fun s => (s.statusWord, s.results.drdy)) =
      some (0x004A#16, 1#11) := by decide +kernel

/-- R94 and vector X20. -/
theorem test_frameReadMeas :
    view (step (placed 16 0xEC05 [.ok 2] [bytes [0x01, 0xF4, 0x33, 0x66, 0x67, 0xA2, 0x5E, 0xB9, 0x00]])) regs =
      some (0x0006#16, 0x00003552#32, 0x3C00#16) := by decide +kernel

/-- R95 and vector X31. -/
theorem test_frameMeasSingle :
    view (step (placed 16 0x219D [.ok 2] [])) regs = some (0x0002#16, 0#32, 0#16) := by decide +kernel

/-- R96 and vector X32. -/
theorem test_frameStartPeriodic :
    view (step (placed 16 0x21B1 [.ok 1] [])) regs = some (0x0006#16, 0x00000771#32, 0x0001#16) := by decide +kernel

/-- R97 and vector X33. -/
theorem test_frameStopPeriodic :
    view (step (placed 16 0x3F86 [.ok 2] [])) regs = some (0x0002#16, 0#32, 0#16) := by decide +kernel

/-- R98 and vector X23. -/
theorem test_frameFrc :
    view (step (placed 40 0x362F01904C [.ok 5] [bytes [0x7F, 0xCE, 0x7B]])) (fun s => (s.statusWord, s.results.corr)) =
      some (0x000A#16, 0xFFCE#16) := by decide +kernel

/-! ### The host and its observer -/

/-- R34 and R185: a result register that nothing has written, a read while BUSY = 1, and a read of REQ. -/
theorem test_host_reads :
    hostRead State.reset .word = .error .unwrittenRead ∧
    hostRead { State.reset with status := { State.reset.status with busy := true } } .err = .error .readWhileBusy ∧
    hostRead State.reset .req = .error .readOfWriteOnly ∧ hostRead State.reset .acc = .ok 0xFF := by
  exact ⟨rfl, rfl, rfl, rfl⟩

/-- 20_memory.md R40 law (c): the session's status read is never answered, MEASURING stays 1, and the next step is
stuck. -/
theorem test_silent :
    view (run 0x0000000B#32 [.ok 2, .ok 2] [.never] []) (fun s => (s.measuring, s.status.busy, faultOf (step s))) =
      some (true, true, some .stuck) := by decide +kernel

/-- R33 and R170. -/
theorem test_reset : regs State.reset = (0x0000#16, 0#32, 0#16) ∧ State.reset.acc = 0xFF#8 := by decide +kernel

/-! ### Physical values and the assembler -/

/-- Vectors T3, T9 and T14. -/
theorem test_tempF :
    (tempF 0x3333#16).bits = 0xC024000000000000#64 ∧ (tempF 0x6667#16).bits = 0x403900AF00AF00B0#64 ∧
    (tempF 0xFFFE#16).bits = 0x40603FEA1FEA1FEA#64 := by decide +kernel

/-- Vectors T2, T3 and T7. -/
theorem test_rhF :
    (rhF 0x0001#16).bits = 0x3F59001900190019#64 ∧ (rhF 0x3333#16).bits = 0x4034000000000000#64 ∧
    (rhF 0x5EB9#16).bits = 0x4042803480348035#64 := by decide +kernel

/-- Vector K32, and R70's ranges. -/
theorem test_assemble :
    assemble params (.crc [0xBE, 0xEF]) =
      some [.request 0x00000000#32, .request 0x00BE0001#32, .request 0x00EF0001#32] ∧
    assemble params (.frc 400) = some [.request 0x01900009#32] ∧ assemble params (.crcFeed 256) = none ∧
    assemble params (.frc 65536) = none ∧ assemble params .sessionLast = some [.request 0x0000001B#32] := by
  decide +kernel

/-- R145: a second has 10 ticks and a unit 2, so 9 units are one whole second. -/
theorem test_timestamp :
    (Reading.measurement params 0 0 { ts := 9, co2 := 0, tRaw := 0, rhRaw := 0 }).timestamp = 1 := by decide +kernel

/-- R70's lines as text, with the words that R62 gives them, and lines that R70 gives no meaning. -/
theorem test_readLine :
    assembleText params "FRC 400" = some [.request 0x01900009#32] ∧
    assembleText params "CRC_FEED 0xBE" = some [.request 0x00BE0001#32] ∧
    assembleText params "CRC 0xBE, 0xEF" =
      some [.request 0x00000000#32, .request 0x00BE0001#32, .request 0x00EF0001#32] ∧
    assembleText params "SESSION.LAST" = some [.request 0x0000001B#32] ∧
    assembleText params "SET_TERM 0" = some [.act (.writeTerm 0)] ∧
    assembleText params "FRC" = none ∧ assembleText params "FRC 65536" = none ∧
    assembleText params "CRC_FEED 0x" = none ∧ assembleText params "NOP" = none := by decide +kernel

/-! ### Witnesses: for every statement with hypotheses, a state and operands that meet them all -/

/-- A request with these answers is running. -/
def running (op : BitVec 4) (writes : List WriteAnswer) (reads : List ReadAnswer) : State :=
  let s := start [] writes reads [0, 0, 0]
  { s with seq := { curOp := some op, phase := .xWrite }, status := { s.status with busy := true } }

theorem accepted_ok {α : Type} {x : Except Reject α} {a : α} (h : accepted x = some a) : x = .ok a := by
  cases x with
  | ok b => exact congrArg _ (Option.some.inj h)
  | error e => cases h

theorem next_of {i : Instr} {s : State} (h : goesOn (exec i s) = true) : ∃ t, exec i s = .next t := goesOn_next h

/-- EncodeThenDecode, at both ends of every operand. -/
theorem test_witness_wellformed :
    ∀ i ∈ [Instr.crcFeed 0#8, .crcFeed 0xFF#8, .frc 0#16, .frc 0xFFFF#16, .session false, .session true,
        .frameFrc 0#16 0x81#8, .frameFrc 0xFFFF#16 0xAC#8, .frameReadMeas], i.wellFormed = true := by decide +kernel

/-- DecodedBitsAreTheEncoding and PlacedCodeRunsNext. -/
theorem test_witness_decoded :
    decode (.req 0xFFFF0009#32) = .ok (.frc 0xFFFF#16) ∧ decodeReq 0x00FF0001#32 = .ok (.crcFeed 0xFF#8) ∧
    decodeFrame [0xE4#8, 0xB8#8] = .ok .frameGetDrdy ∧
    decodeFrame [0x36#8, 0x2F#8, 0x01#8, 0x90#8, 0x4C#8] = .ok (.frameFrc 400#16 0x4C#8) :=
  ⟨accepted_ok (by decide +kernel), accepted_ok (by decide +kernel), accepted_ok (by decide +kernel),
    accepted_ok (by decide +kernel)⟩

/-- FramesHaveTheirLengthAndChecksum. -/
theorem test_witness_not_frc :
    ∀ c ∈ [Command.getVariant, .selfTest, .getDrdy, .readMeas, .measSingle, .startPeriodic, .stopPeriodic], c ≠ .frc := by
  decide

/-- StepRunsTheRequest. -/
theorem test_witness_request :
    let s := start [.request 0x0000001B#32] [] [] []
    s.status.busy = false ∧ s.env.host = [.request 0x0000001B#32] ∧ decodeReq 0x0000001B#32 = .ok (.session true) :=
  ⟨rfl, rfl, rfl⟩

/-- StepRunsTheFrame, for a frame of two bytes and one of five. -/
theorem test_witness_frame :
    (placed 16 0xEC05 [] []).status.busy = true ∧ (placed 16 0xEC05 [] []).env.silent = false ∧
    (placed 16 0xEC05 [] []).seq.phase = .xWrite ∧
    takeFrame (Memory.leading (placed 16 0xEC05 [] []).txbuf 0 5) = .ok (.frameReadMeas, []) ∧
    takeFrame (Memory.leading (placed 40 0x362F01904C [] []).txbuf 0 5) = .ok (.frameFrc 400#16 0x4C#8, []) :=
  ⟨rfl, rfl, rfl, accepted_ok (by decide +kernel), accepted_ok (by decide +kernel)⟩

/-- AcceptanceAndBusy: a write of REQ with a call in flight, and one that waits while a frame's step runs. -/
theorem test_witness_busy :
    (let s := { running 0x5#4 [] [] with env := { State.reset.env with silent := true, host := [.request 4#32] } }
     s.status.busy = true ∧ s.env.silent = true ∧ s.env.host = [.request 4#32]) ∧
    (let s := (start [.request 4#32] [.ok 2] [isReady] []).withFetchWord 16 0xE4B8
     s.status.busy = true ∧ s.env.host = [.request 4#32] ∧ ∃ t, step s = .next t) :=
  ⟨⟨rfl, rfl, rfl⟩, rfl, rfl, goesOn_next (by decide +kernel)⟩

/-- IllegalRequestRaisesIllegal and IllegalWordsAreTheRejectedOnes: the first reserved OP, the last must-be-0 bit. -/
theorem test_witness_illegal :
    ([0x0000000C#32, 0x0000000F#32, 0x80000000#32, 0x01000001#32, 0x00008009#32, 0x0000002B#32].all fun r =>
      (start [.request r] [] [] []).status.busy = false ∧
        (start [.request r] [] [] []).env.host = [.request r] ∧ illegalWord r = true) = true := by decide +kernel

/-- SilentTransportIsStuck. -/
theorem test_witness_silent :
    (let s := { running 0x5#4 [] [] with env := { State.reset.env with silent := true } }
     s.status.busy = true ∧ s.env.silent = true ∧ s.env.host = []) ∧
    (start [] [] [] []).status.busy = false ∧ (start [] [] [] []).env.host = [] := by decide +kernel

/-- CrcInitSetsTheSeed and CrcFeedFoldsOneByte: illegal words of OP 0 and 1, and legal ones of OP 1, as the host's next
write with BUSY = 0. -/
theorem test_witness_crc_words :
    (start [.request 0x00000010#32] [] [] []).status.busy = false ∧
    (start [.request 0x00000010#32] [] [] []).env.host = [.request 0x00000010#32] ∧
    (0x00000010#32).extractLsb' 0 4 = 0#4 ∧ (0x00000010#32 : BitVec 32) ≠ 0#32 ∧
    ([0x00000001#32, 0x00FF0001#32].all fun r => r.extractLsb' 0 4 = 1#4 ∧ r.extractLsb' 24 8 = 0#8 ∧
      r.extractLsb' 4 12 = 0#12) = true ∧
    ([0x01000001#32, 0x00000011#32, 0x00008001#32].all fun r => r.extractLsb' 0 4 = 1#4 ∧
      ¬ (r.extractLsb' 24 8 = 0#8 ∧ r.extractLsb' 4 12 = 0#12)) = true := by decide +kernel

/-- FedBytesLeaveTheirChecksum, with another request between the two. -/
theorem test_witness_fed :
    [Instr.crcInit, .getDrdy, .crcFeed 0xBE#8].filter writesAcc = .crcInit :: [0xBE#8].map .crcFeed ∧
    ∃ t, execAll [.crcInit, .getDrdy, .crcFeed 0xBE#8] (start [] [.ok 2] [isReady] []) = .next t :=
  ⟨rfl, goesOn_next (by decide +kernel)⟩

/-- OnlyCrcRequestsWriteAcc. -/
theorem test_witness_not_acc :
    writesAcc .getDrdy = false ∧ ∃ t, exec .getDrdy (running 0x4#4 [.ok 2] [isReady]) = .next t :=
  ⟨rfl, next_of (by decide +kernel)⟩

/-- CheckGroupValidatesOneGroup: the last group's cells, and a group whose last cell holds no value. -/
theorem test_witness_group :
    1 ≤ 3 ∧ Memory.read [(6, 0xBE#8), (7, 0xEF#8), (8, 0x92#8)] (3 * (3 - 1)) = some 0xBE#8 ∧
      Memory.read [(6, 0xBE#8), (7, 0xEF#8), (8, 0x92#8)] (3 * (3 - 1) + 2) = some 0x92#8 ∧
      Memory.read [(0, 0xBE#8), (1, 0xEF#8)] (3 * (1 - 1) + 2) = none := by decide +kernel

/-- SingleFlipIsDetected, at the ends of both ranges. -/
theorem test_witness_flip : 0 < 16 ∧ 15 < 16 ∧ 0 < 8 ∧ 7 < 8 := by decide

/-- XactRunsOneTransaction and the statements about one command: listed answers for each way an exchange can end. -/
theorem test_witness_answers (op : BitVec 4) :
    (Answers (running op [.ok 5] [isReady]) (.ok 5) isReady ∧
      exchangeOf 2 3 (.ok 5) isReady = .response [0x80#8, 0x06#8, 0x04#8] ∧
      exchangeOf 5 3 (.ok 5) isReady = .response [0x80#8, 0x06#8, 0x04#8] ∧
      exchangeOf 2 0 (.ok 5) isReady = .response []) ∧
    (Answers (running op [.ok 2] [meas]) (.ok 2) meas ∧
      exchangeOf 2 9 (.ok 2) meas =
        .response [0x01#8, 0xF4#8, 0x33#8, 0x66#8, 0x67#8, 0xA2#8, 0x5E#8, 0xB9#8, 0x3C#8]) ∧
    (Answers (running op [.ok 1] [.err]) (.ok 1) .err ∧ exchangeOf 2 3 (.ok 1) .err = .failed 1#16) ∧
    (Answers (running op [.ok 2] [bytes [1, 2]]) (.ok 2) (bytes [1, 2]) ∧
      exchangeOf 2 3 (.ok 2) (bytes [1, 2]) = .failed 2#16) ∧
    (Answers (running op [.ok 2] [.never]) (.ok 2) .never ∧ exchangeOf 2 3 (.ok 2) .never = .unanswered) ∧
    (Answers (running op [.never] [.err]) .never .err ∧ exchangeOf 2 3 .never .err = .unanswered) :=
  ⟨⟨⟨rfl, rfl⟩, rfl, rfl, rfl⟩, ⟨⟨rfl, rfl⟩, rfl⟩, ⟨⟨rfl, rfl⟩, rfl⟩, ⟨⟨rfl, rfl⟩, rfl⟩, ⟨⟨rfl, rfl⟩, rfl⟩,
    ⟨rfl, rfl⟩, rfl⟩

/-- FramesRunTheirRequests, FramesActAsTheirRequests, FramesResumePollAndSession, PollEndsReadyOrFailed and
SessionEndsWithOneStop: each sender's CUR_OP, with answers listed and no call in flight. -/
theorem test_witness_senders (op : BitVec 4) :
    (running op [.ok 5] [isReady]).seq.curOp = some op ∧ (running op [.ok 5] [isReady]).env.silent = false ∧
      Answers (running op [.ok 5] [isReady]) (.ok 5) isReady := ⟨rfl, rfl, rfl, rfl⟩

/-- ResumedFramesFrame. -/
theorem test_witness_resumed :
    (∃ t, exec .frameGetDrdy (running 0xA#4 [.ok 2] [isReady]) = .next t) ∧
    (∃ t, exec .frameStartPeriodic (running 0xB#4 [.ok 2, .ok 2, .ok 2, .ok 2] [isReady, meas]) = .next t) ∧
    (∃ t, exec .frameGetDrdy (running 0xB#4 [.ok 2, .ok 2, .ok 2] [isReady, meas]) = .next t) ∧
    (∃ t, exec .frameReadMeas (running 0xB#4 [.ok 2, .ok 2] [meas]) = .next t) ∧
    ∃ t, exec .frameStopPeriodic (running 0xB#4 [.ok 2] []) = .next t :=
  ⟨next_of (by decide +kernel), next_of (by decide +kernel), next_of (by decide +kernel), next_of (by decide +kernel),
    next_of (by decide +kernel)⟩

/-- StrayFramesFault: with nothing running, inside a poll, and inside a session. -/
theorem test_witness_stray :
    (State.reset.seq.curOp ≠ some Command.getDrdy.op ∧ State.reset.seq.curOp ≠ some 0xA#4 ∧
      State.reset.seq.curOp ≠ some 0xB#4) ∧
    ((running 0xA#4 [] []).seq.curOp ≠ some Command.readMeas.op ∧ Command.readMeas ≠ .getDrdy) ∧
    ((running 0xB#4 [] []).seq.curOp ≠ some Command.frc.op ∧
      Command.frc ∉ [.startPeriodic, .getDrdy, .readMeas, .stopPeriodic]) := by decide +kernel

/-- CommandRequestsFrame, CommandResultsFrame and DecodingDependsOnTheBytesAlone: every one of the eight requests, at
both ends of the target. -/
theorem test_witness_requests :
    ∀ i ∈ [Instr.getVariant, .selfTest, .getDrdy, .readMeas, .measSingle, .startPeriodic, .stopPeriodic, .frc 0#16,
        .frc 0xFFFF#16], ∃ t, exec i (running 0x4#4 [.ok 5] [meas]) = .next t := by
  have h : ([Instr.getVariant, .selfTest, .getDrdy, .readMeas, .measSingle, .startPeriodic, .stopPeriodic, .frc 0#16,
      .frc 0xFFFF#16].all fun i => goesOn (exec i (running 0x4#4 [.ok 5] [meas]))) = true := by decide +kernel
  exact fun i hi => next_of (List.all_eq_true.1 h i hi)

/-- DecodingDependsOnTheBytesAlone: two states that differ in the clock, the draws and the buffers. -/
theorem test_witness_two_states :
    let s := running 0x5#4 [.ok 2] [meas]
    let u := { s with clock := { time := 9, floor := 7, afterXact := 10 }, rxbuf := [(0, 1#8)], measuring := true }
    Answers s (.ok 2) meas ∧ Answers u (.ok 2) meas ∧ s.params = u.params ∧ s.seq.curOp = u.seq.curOp ∧
      s.status = u.status ∧ s.err = u.err ∧ s.errInfo = u.errInfo ∧ s.results = u.results ∧
      (∃ t, exec .readMeas s = .next t) ∧ ∃ t, exec .readMeas u = .next t :=
  ⟨⟨rfl, rfl⟩, ⟨rfl, rfl⟩, rfl, rfl, rfl, rfl, rfl, rfl, next_of (by decide +kernel), next_of (by decide +kernel)⟩

/-- PollCountsItsAnswers, with the polls of test_witness_ready_polls, test_witness_failing_poll,
test_witness_failing_last_poll and test_witness_timed_out_poll; and PollFrame. -/
theorem test_witness_poll :
    (∀ pw pr, (running 0xA#4 pw pr).env.writes = pw ++ [] ∧ (running 0xA#4 pw pr).env.reads = pr ++ []) ∧
    ∃ t, exec .pollReady (running 0xA#4 [.ok 2] [isReady]) = .next t :=
  ⟨fun _ _ => ⟨(List.append_nil _).symm, (List.append_nil _).symm⟩, next_of (by decide +kernel)⟩

/-- Vector L7 on the bus: an attempt, the delay of POLL_INTERVAL, and a failed write with no wait and no read after it.
WORD and DRDY hold the first answer. -/
theorem test_poll_bus :
    view (exec .pollReady (running 0xA#4 [.ok 2, .err] [notReady])) (fun t => (busOf t.trace, t.results.word, t.results.drdy)) =
      some ([.memWrite 0x2A#7 [0xE4#8, 0xB8#8] .err, .delay .poll 10, .memRead 0x2A#7 3 notReady,
        .delay (.exec .getDrdy) 3, .memWrite 0x2A#7 [0xE4#8, 0xB8#8] (.ok 2)], 0x8000#16, 0#11) := by decide +kernel

/-- FailedStartIsReportedFirst, with a stop that succeeds and one that fails. -/
theorem test_witness_failed_start :
    exchangeOf 2 0 (.ok 0) .err = .failed 0#16 ∧ exchangeOf 2 0 .err .err = .failed 0xFFFF#16 ∧
    (running 0xB#4 [.err, .ok 2] []).env.writes = [.err, .ok 2] ∧ WriteAnswer.ok 2 ≠ .never ∧
    (running 0xB#4 [.ok 0, .err] []).env.writes = [.ok 0, .err] ∧ WriteAnswer.err ≠ .never := by decide +kernel

/-- Program P6 on the bus: no wait after the short start, and the stop's wait of T_EXEC after the stop. -/
theorem test_failed_start_bus :
    view (exec (.session false) (running 0xB#4 [.ok 1, .ok 2] [])) (fun t => (busOf t.trace, samplesOf t.trace)) =
      some ([.delay (.exec .stopPeriodic) 7, .memWrite 0x2A#7 [0x3F#8, 0x86#8] (.ok 2),
        .memWrite 0x2A#7 [0x21#8, 0xB1#8] (.ok 1)], []) := by decide +kernel

/-- A poll's not-ready words, as the session statements' polls have them. -/
theorem not_ready_words (n : Nat) : ∀ x ∈ List.replicate n 0x8000#16, x &&& 0x07FF#16 = 0#16 :=
  fun _ hx => List.eq_of_mem_replicate hx ▸ rfl

/-- The polls of the session statements: READY on attempts 1 and 11. -/
theorem test_witness_ready_polls :
    ReadyPoll 0x8006#16 1 [.ok 2] [.ok (validGroup 0x8006#16)] ∧
    ReadyPoll 0x0001#16 1 [.ok 2] [.ok (validGroup 0x0001#16)] ∧
    ReadyPoll 0x0400#16 11 (List.replicate 11 (.ok 2))
      ((List.replicate 10 0x8000#16 ++ [0x0400#16]).map fun x => .ok (validGroup x)) :=
  ⟨⟨[], not_ready_words 0, by decide, by decide, rfl, rfl, rfl⟩,
    ⟨[], not_ready_words 0, by decide, by decide, rfl, rfl, rfl⟩,
    ⟨_, not_ready_words 10, by decide, by decide, rfl, rfl, rfl⟩⟩

/-- A poll that ends FAILED by an exchange on attempt 1. -/
theorem test_witness_failing_poll : FailingPoll (transportErr 0x4#4 1#16) [] 1 [.ok 1] [.err] :=
  ⟨not_ready_words 0, .inl ⟨.ok 1, .err, by decide +kernel, by decide, rfl, rfl, rfl⟩⟩

/-- A poll that ends FAILED by an exchange on attempt 11, after ten not-ready answers. -/
theorem test_witness_failing_last_poll :
    FailingPoll (checksumErr 0x4#4 1 0xA2A3#16) (List.replicate 10 0x8000#16) 11 (List.replicate 11 (.ok 2))
      ((List.replicate 10 0x8000#16).map (fun x => .ok (validGroup x)) ++ [bytes [0x80, 0x00, 0xA3]]) :=
  ⟨not_ready_words 10, .inl ⟨.ok 2, bytes [0x80, 0x00, 0xA3], by decide +kernel, by decide, rfl, rfl, rfl⟩⟩

/-- A poll that ends FAILED by TIMEOUT, after eleven not-ready answers. -/
theorem test_witness_timed_out_poll :
    FailingPoll timeoutErr (List.replicate 11 0x8000#16) 11 (List.replicate 11 (.ok 2))
      ((List.replicate 11 0x8000#16).map fun x => .ok (validGroup x)) :=
  ⟨not_ready_words 11, .inr ⟨rfl, rfl, rfl, rfl, rfl⟩⟩

/-- OneIterationSession, with TERM = 0, and with SHUTDOWN = 1 before or set in the first or the last of the four turns and a
longer TERM; the stop succeeds or fails. -/
theorem test_witness_one_iteration :
    ∀ b ∈ [WriteAnswer.ok 2, .err], ∀ s ∈ [running 0xB#4 [.ok 2, .ok 2, .ok 2, b] [.ok (validGroup 0x8006#16),
          .ok (validGroup 500#16 ++ validGroup 0x6667#16 ++ validGroup 0x5EB9#16)],
        { running 0xB#4 [.ok 2, .ok 2, .ok 2, b] [.ok (validGroup 0x8006#16),
          .ok (validGroup 500#16 ++ validGroup 0x6667#16 ++ validGroup 0x5EB9#16)] with shutdown := true, term := 1000 }] ++
        [[[.setShutdown]], [[], [], [], [.check, .setShutdown]]].map (fun d =>
          let s := running 0xB#4 [.ok 2, .ok 2, .ok 2, b] [.ok (validGroup 0x8006#16),
            .ok (validGroup 500#16 ++ validGroup 0x6667#16 ++ validGroup 0x5EB9#16)]
          { s with term := 1000, env := { s.env with during := d } }),
      (s.term = 0 ∨ ShutdownWithin (2 * 1 + 2) s) ∧ b ≠ .never ∧ s.env.writes = .ok 2 :: ([.ok 2] ++ .ok 2 :: b :: []) ∧
      s.env.reads = [.ok (validGroup 0x8006#16)] ++
        .ok (validGroup 500#16 ++ validGroup 0x6667#16 ++ validGroup 0x5EB9#16) :: [] := by
  unfold ShutdownWithin
  decide +kernel

/-- A session's state with these parameters, TERM, answers and draws. -/
def inSession (p : Params) (term : Nat) (writes : List WriteAnswer) (reads : List ReadAnswer) (waits : List Nat) : State :=
  { running 0xB#4 [] [] with
    params := p, term := term
    env := { State.reset.env with writes := writes, reads := reads, waits := waits } }

/-- In it no termination is asked for, in any turn. -/
theorem inSession_not_shutdown (p : Params) (term : Nat) (writes : List WriteAnswer) (reads : List ReadAnswer)
    (waits : List Nat) (n : Nat) : ¬ ShutdownWithin n (inSession p term writes reads waits) := by
  rintro (h | ⟨-, ms, h, -⟩)
  · cases h
  · rw [show (inSession p term writes reads waits).env.during = [] from rfl, List.take_nil] at h
    cases h

/-- Two good iterations are listed, with T0 = 0 and the samples of S_TEST 2 and 6, as in program P9. -/
def looping (term : Nat) : State :=
  inSession (quick true) term (List.replicate 6 (.ok 2))
    [.ok (validGroup 0x8006#16), .ok (validGroup 500#16 ++ validGroup 0x6667#16 ++ validGroup 0x5EB9#16),
      .ok (validGroup 0x0001#16), .ok (validGroup 800#16 ++ validGroup 0x655C#16 ++ validGroup 0x5C28#16)]
    [0, 0, 1, 1, 2]

/-- SessionLoopsWithinItsTerm, in both modes: TERM = 1 has gone by at the first sample of S_TEST, TERM = 2 and TERM = 5 at
the second. -/
theorem test_witness_loop :
    (∀ t, ¬ ShutdownWithin (2 * 1 + 2) (looping t) ∧ (looping t).env.writes =
      .ok 2 :: ([.ok 2] ++ .ok 2 :: ([.ok 2] ++ .ok 2 :: .ok 2 :: []))) ∧ WriteAnswer.ok 2 ≠ .never ∧
    ∀ o ∈ [false, true],
      view (exec (.session o) (looping 1)) (fun s => (samplesOf s.trace, (readingsOf s.trace).map Reading.co2)) =
        some ([2, 1, 0], [500#16]) ∧
      ∀ term ∈ [2, 5],
        view (exec (.session o) (looping term)) (fun s => (samplesOf s.trace, (readingsOf s.trace).map Reading.co2)) =
          some ([6, 4, 2, 1, 0], 800#16 :: if o then [] else [500#16]) :=
  ⟨fun _ => ⟨inSession_not_shutdown _ _ _ _ _ _, rfl⟩, by decide +kernel⟩

/-- SHUTDOWN set in a session with a long TERM (program P10): in the last turn before the first S_TEST's reading of it, one
iteration runs; in the next turn, or in the last before the second S_TEST's reading, two. -/
theorem test_shutdown_turns :
    (∀ x ∈ [(3, 1), (4, 2), (6, 2)],
      let s := looping 1000
      view (exec (.session false) { s with
          env := { s.env with during := List.replicate x.1 [.check] ++ [[.setShutdown]] } })
        (fun t => (t.shutdown, t.err.packed, (readingsOf t.trace).length)) = some (true, 0#32, x.2)) ∧
    (let s := { looping 1000 with env := { (looping 1000).env with during := List.replicate 6 [] ++ [[.setShutdown]] } }
     ¬ ShutdownWithin (2 * 1 + 2) s ∧ ShutdownWithin (2 * 1 + 2 * 1 + 3) s) := by
  unfold ShutdownWithin
  decide +kernel

/-- The failing read and poll exchanges of the next two: by the write's count and `Err`, by the read's count and `Err`,
and by each group of the response. -/
theorem test_witness_failures :
    ([(WriteAnswer.ok 0, ReadAnswer.err), (.err, .err), (.ok 2, .err), (.ok 2, bytes (List.replicate 8 0)),
      (.ok 2, bytes [0x01, 0xF4, 0x34, 0, 0, 0, 0, 0, 0]), (.ok 2, bytes [0x01, 0xF4, 0x33, 0x66, 0x67, 0xA3, 0, 0, 0]),
      (.ok 2, bytes [0x01, 0xF4, 0x33, 0x66, 0x67, 0xA2, 0x5E, 0xB9, 0x3D])].map
        fun x => exchangeFailure 0x5#4 (exchangeOf 2 9 x.1 x.2)) =
      [some { kind := .transport, op := 0x5#4, group := 0, info := 0#16 },
        some { kind := .transport, op := 0x5#4, group := 0, info := 0xFFFF#16 },
        some { kind := .transport, op := 0x5#4, group := 0, info := 0xFFFF#16 },
        some { kind := .transport, op := 0x5#4, group := 0, info := 8#16 },
        some { kind := .checksum, op := 0x5#4, group := 1, info := 0x3334#16 },
        some { kind := .checksum, op := 0x5#4, group := 2, info := 0xA2A3#16 },
        some { kind := .checksum, op := 0x5#4, group := 3, info := 0x3C3D#16 }] ∧
    ([(WriteAnswer.ok 1, ReadAnswer.err), (.ok 2, bytes [0x80]), (.ok 2, bytes [0x80, 0x00, 0xA3])].map
        fun x => exchangeFailure 0x4#4 (exchangeOf 2 3 x.1 x.2)) =
      [some { kind := .transport, op := 0x4#4, group := 0, info := 1#16 },
        some { kind := .transport, op := 0x4#4, group := 0, info := 1#16 },
        some { kind := .checksum, op := 0x4#4, group := 1, info := 0xA2A3#16 }] := by decide +kernel

/-- FailedPollOrLaterReadAborts: a first poll that times out and one whose eleventh attempt fails; and, after a good
iteration whose S_TEST sample is 2 with TERM = 2, a failing second poll and a failing second read, in both modes and for
both values of EMIT_LAST_ON_ABORT (no termination is asked for: inSession_not_shutdown). -/
theorem test_witness_later_failures :
    (∀ last ∈ [ReadAnswer.ok (validGroup 0x8000#16), bytes [0x80, 0x00, 0xA3]],
      view (exec (.session true) (inSession (quick true) 0 (List.replicate 12 (.ok 2) ++ [.err])
        (List.replicate 10 (.ok (validGroup 0x8000#16)) ++ [last]) []))
        (fun t => (t.err.packed, (framesOf t.trace).length)) =
        some (if last = .ok (validGroup 0x8000#16) then 0x00010BA4#32 else 0x00011B42#32, 13)) ∧
    ∀ emitLast ∈ [false, true], ∀ o ∈ [false, true],
      (let s := inSession (quick emitLast) 2 [.ok 2, .ok 2, .ok 2, .ok 1, .ok 2]
        [.ok (validGroup 0x8006#16), .ok (validGroup 500#16 ++ validGroup 0x6667#16 ++ validGroup 0x5EB9#16), .err]
        [0, 0, 1]
       view (exec (.session o) s) (fun t => (samplesOf t.trace, t.err.packed, (readingsOf t.trace).map Reading.co2)) =
          some ([2, 1, 0], 0x00000B41#32, if o && !emitLast then [] else [500#16])) ∧
      (let s := inSession (quick emitLast) 2 [.ok 2, .ok 2, .ok 2, .ok 2, .ok 2, .err]
        [.ok (validGroup 0x8006#16), .ok (validGroup 500#16 ++ validGroup 0x6667#16 ++ validGroup 0x5EB9#16),
          .ok (validGroup 0x0001#16), bytes [0x01, 0xF4, 0x33, 0x66, 0x67, 0xA3, 0, 0, 0]]
        [0, 0, 1]
       view (exec (.session o) s) (fun t => (samplesOf t.trace, t.err.packed, (readingsOf t.trace).map Reading.co2)) =
          some ([2, 1, 0], 0x00012B52#32, if o && !emitLast then [] else [500#16])) := by decide +kernel

/-- FailedFirstReadEmitsNothing, with one of the failing reads of test_witness_failures. -/
theorem test_witness_failed_read :
    let s := running 0xB#4 [.ok 2, .ok 2, .ok 2, .err] [.ok (validGroup 0x0001#16), bytes (List.replicate 8 0)]
    WriteAnswer.err ≠ .never ∧ s.env.writes = .ok 2 :: ([.ok 2] ++ .ok 2 :: .err :: []) ∧
      s.env.reads = [.ok (validGroup 0x0001#16)] ++ bytes (List.replicate 8 0) :: [] := by decide +kernel

/-- ObserverWaitsForTheSession, ObserverMoves and SessionFrame, the last also where neither a read frame nor a status frame
is sent. -/
theorem test_witness_observer :
    (let s := { running 0xB#4 [] [] with measuring := true, shutdown := true }
     s.measuring = true ∧ s.env.observer = .resting ∧ s.env.observer ≠ .passed) ∧
    (let s := running 0xB#4 [.ok 2, .ok 2, .ok 2, .ok 2] [isReady, meas]
     let u : State := { s with shutdown := true, env := { s.env with observer := .waiting } }
     u.env.observer = .waiting ∧ u.env.observer ≠ .passed ∧ ∃ t, exec (.session false) u = .next t) ∧
    ({ State.reset with env := { State.reset.env with observer := .passed } } : State).env.observer = .passed ∧
    view (exec (.session false) (running 0xB#4 [.err, .ok 2] []))
      (fun t => (sentCount [0xEC#8, 0x05#8] t.trace, sentCount [0xE4#8, 0xB8#8] t.trace)) = some (0, 0) :=
  ⟨⟨rfl, rfl, by decide⟩, ⟨rfl, by decide, next_of (by decide +kernel)⟩, rfl, by decide +kernel⟩

/-- RaiseAndComplete, at the ends of OP. -/
theorem test_witness_raise :
    (running 0xF#4 [] []).seq.curOp = some 0xF#4 ∧ (running 0x0#4 [] []).seq.curOp = some 0x0#4 ∧
      (transportErr 0x2#4 0#16).kind ≠ .none := by decide +kernel

/-- HostReads and HostWritesTerm: both values of BUSY, an action beside a call in flight, and both ends of a 32-bit
TERM. -/
theorem test_witness_host :
    (running 0x5#4 [] []).status.busy = true ∧ State.reset.status.busy = false ∧
    (let s := { running 0x5#4 [] [] with
      env := { State.reset.env with silent := true, host := [.act (.observer .setShutdown), .act (.read .status)] } }
     s.status.busy = true ∧ s.env.silent = true ∧
      s.env.host = .act (.observer .setShutdown) :: [.act (.read .status)] ∧
      view (step s) (fun t => (t.shutdown, t.env.host)) = some (true, [.act (.read .status)])) ∧
    ∀ v ∈ [0, 2 ^ 32 - 1],
      (start [.act (.writeTerm v)] [] [] []).status.busy = false ∧
        (start [.act (.writeTerm v)] [] [] []).env.host = [.act (.writeTerm v)] ∧
        v < 2 ^ (start [.act (.writeTerm v)] [] [] []).params.clockW := by decide +kernel

/-- StepKeepsTheInvariant, ParametersAreNeverWritten, ShutdownIsNeverCleared and PortIsLawful: a frame's step, with
SHUTDOWN = 1 and an event behind it. -/
theorem test_witness_step :
    let s : State := { (placed 16 0xE4B8 [.ok 2] [isReady]) with shutdown := true, trace := [.now 0] }
    s.Inv ∧ s.shutdown = true ∧ s.trace.all Event.lawful = true ∧ ∃ t, step s = .next t := by
  refine ⟨?_, rfl, rfl, goesOn_next (by decide +kernel)⟩
  constructor <;> decide +kernel

/-- ClockLaws: each way a transaction can end after a sample, a step from the state that a sample leaves, and a request
with listed answers. -/
theorem test_witness_xact :
    (∃ u, xact .getDrdy frameGetDrdy (now (running 0x4#4 [.ok 2] [isReady])).2 = .ok () u) ∧
    (∃ e u, xact .getDrdy frameGetDrdy (now (running 0x4#4 [.ok 1] [])).2 = .raised e u) ∧
    (∃ u, xact .getDrdy frameGetDrdy (now (running 0x4#4 [.never] [])).2 = .silent u) ∧
    Sampled (now (running 0x4#4 [.ok 2] [isReady])).2 ∧
    (∃ t, step (now (start [.request 4#32] [.ok 2] [isReady] [7])).2 = .next t) ∧
    Answers (running 0x4#4 [.ok 2] [isReady]) (.ok 2) isReady ∧
    exchangeOf 2 3 (.ok 2) isReady = .response [0x80#8, 0x06#8, 0x04#8] ∧
    ∃ t, exec .getDrdy (running 0x4#4 [.ok 2] [isReady]) = .next t :=
  ⟨⟨_, rfl⟩, ⟨_, _, rfl⟩, ⟨_, rfl⟩, by unfold Sampled; decide +kernel, goesOn_next (by decide +kernel), ⟨rfl, rfl⟩, rfl,
    next_of (by decide +kernel)⟩

/-- PhysicalValues, at both ends. -/
theorem test_witness_words : (0#16).toNat < (1#16).toNat ∧ (0xFFFE#16).toNat < (0xFFFF#16).toNat := by decide

/-- AssemblerEmitsLegalWords, at the last value in each range and the first out of it; and a `CRC` line with no byte. -/
theorem test_witness_assembler :
    2 ^ params.clockW ≤ 2 ^ 32 ∧ 0x100 ∈ [0xFF, 0x100] ∧ assemble params (.setTerm (2 ^ 32)) = none ∧
      assemble params (.crc [0xFF, 0x100]) = none ∧ assembleText params "CRC" = some [.request 0#32] ∧
    0xFF ≤ 0xFF ∧ 0xFFFF ≤ 0xFFFF ∧ 2 ^ 32 - 1 < 2 ^ params.clockW ∧ 0xFF < 0x100 ∧ 0xFFFF < 0x10000 ∧ assemble params (.frc 0xFFFF) = some [.request 0xFFFF0009#32] ∧
      HostStep.request 0xFFFF0009#32 ∈ [HostStep.request 0xFFFF0009#32] := by decide +kernel

end Sys2Proof.Tests
end

section
/-! Raise and completion (60_exceptions.md R153, R154) and the events of 00_scope.md R11: what each writes, whole. -/

namespace Sys2Proof.Machine

/-- ERRF is 1 exactly when ERR holds a kind (10_state.md R23). -/
theorem errf_eq_true_iff {s : State} : s.errf = true ↔ s.err.kind ≠ .none := decide_eq_true_iff

/-- ERRF after the end of a request with an error follows that error's kind. -/
theorem errf_endWithError {e : Err} (he : e.kind ≠ .none) (ctx : BitVec 4) (kind2 : ErrKind) (s : State) :
    (endWithError e ctx kind2 s).errf = true :=
  errf_eq_true_iff.mpr (by simpa only [endWithError_err] using he)

/-- A raise at the top level of a request: its event, then R153's writes. -/
theorem finish_raise (e : Err) (s : State) : finish (raise e s) = .next (raiseTop e (s.log (.raise e))) := rfl

/-- While a request runs, the CTX of a top-level raise is that request's CUR_OP. -/
theorem raiseTop_eq_endWithError {s : State} {op : BitVec 4} (hop : s.seq.curOp = some op) (e : Err) :
    raiseTop e s = endWithError e op .none s := by
  rw [raiseTop, hop, Option.getD_some]

/-- Settles O46, one clause of the statement at a time: CTX by the request in flight, ERRF by the kind that ERR then
holds, and the raise, the `goto` and the completion by their own records of writes. -/
theorem raiseAndComplete : Obligations.RaiseAndComplete := by
  unfold Obligations.RaiseAndComplete
  refine ⟨finish_raise, ?goto, ?raise, ?errf, ?complete⟩
  case goto => exact fun l s => rfl
  case raise =>
    intro e op s hop
    rw [raiseTop_eq_endWithError hop, endWithError]
  case errf => exact fun e s he => errf_endWithError he _ _ s
  case complete => exact fun s => rfl

end Sys2Proof.Machine
end

section
/-! How a request ends after its lines (60_exceptions.md R153, R154): with a value or a raise it is over, with a transport
call that is not answered it stays in flight, and each end leaves alone every register but SEQ, BUSY, DONE, RVALID, ERR
and ERR_INFO. -/

namespace Sys2Proof.Machine

/-- The lines of the request of `s` end in a state with `P`, and do not fault: after a value or a raise no further call is
in flight, and a call that is not answered (20_memory.md R40 law c) is in flight at its write or its read. -/
inductive EndsIn (s : State) (P : State → Prop) : Res Unit → Prop where
  | ok (u : State) (left : P u) (silent : u.env.silent = s.env.silent) : EndsIn s P (.ok () u)
  | raised (e : Err) (u : State) (left : P u) (silent : u.env.silent = s.env.silent) : EndsIn s P (.raised e u)
  | silent (u : State) (left : P u) (silent : u.env.silent = true)
      (phase : u.seq.phase = .xWrite ∨ u.seq.phase = .xRead) : EndsIn s P (.silent u)

/-- Lines that start in `v`, before which no call was made, end as lines of `s` do. -/
theorem EndsIn.from {s v : State} {P Q : State → Prop} {r : Res Unit} (h : EndsIn v P r)
    (hv : v.env.silent = s.env.silent) (hPQ : ∀ u, P u → Q u) : EndsIn s Q r := by
  cases h with
  | ok u left silent => exact .ok u (hPQ u left) (silent.trans hv)
  | raised e u left silent => exact .raised e u (hPQ u left) (silent.trans hv)
  | silent u left silent phase => exact .silent u (hPQ u left) silent phase

/-- What the end of the request of `s` leaves of the state `u` that its lines end in, and the two ways it can end. -/
structure RequestEnd (s u t : State) : Prop where
  params : t.params = u.params
  req : t.req = u.req
  term : t.term = u.term
  ready : t.status.ready = u.status.ready
  passed : t.status.passed = u.status.passed
  acc : t.acc = u.acc
  results : t.results = u.results
  poll : t.poll = u.poll
  measuring : t.measuring = u.measuring
  shutdown : t.shutdown = u.shutdown
  session : t.session = u.session
  txbuf : t.txbuf = u.txbuf
  rxbuf : t.rxbuf = u.rxbuf
  env : t.env = u.env
  trace : t.trace = u.trace
  ends :
    (t = u ∧ u.env.silent = true ∧ (u.seq.phase = .xWrite ∨ u.seq.phase = .xRead)) ∨
    (Ended t ∧ u.env.silent = s.env.silent ∧ (t.status.rvalid = true → t.err = u.err))

theorem requestEnd_complete {s u : State} (h : u.env.silent = s.env.silent) : RequestEnd s u (complete u) :=
  ⟨rfl, rfl, rfl, rfl, rfl, rfl, rfl, rfl, rfl, rfl, rfl, rfl, rfl, rfl, rfl, .inr ⟨⟨rfl, rfl, rfl⟩, h, fun _ => rfl⟩⟩

theorem requestEnd_setRvalid {s u : State} (h : u.env.silent = s.env.silent) :
    RequestEnd s u (complete u.setRvalid) :=
  ⟨rfl, rfl, rfl, rfl, rfl, rfl, rfl, rfl, rfl, rfl, rfl, rfl, rfl, rfl, rfl, .inr ⟨⟨rfl, rfl, rfl⟩, h, fun _ => rfl⟩⟩

theorem requestEnd_raiseTop {s u : State} (e : Err) (h : u.env.silent = s.env.silent) : RequestEnd s u (raiseTop e u) :=
  ⟨rfl, rfl, rfl, rfl, rfl, rfl, rfl, rfl, rfl, rfl, rfl, rfl, rfl, rfl, rfl,
    .inr ⟨⟨rfl, rfl, rfl⟩, h, fun hr => Bool.noConfusion hr⟩⟩

theorem requestEnd_inFlight {s u : State} (h : u.env.silent = true)
    (hp : u.seq.phase = .xWrite ∨ u.seq.phase = .xRead) : RequestEnd s u u :=
  ⟨rfl, rfl, rfl, rfl, rfl, rfl, rfl, rfl, rfl, rfl, rfl, rfl, rfl, rfl, rfl, .inl ⟨rfl, h, hp⟩⟩

/-- The end of a request without results. It answers a next state. -/
theorem finish_end {s : State} {P : State → Prop} {r : Res Unit} (h : EndsIn s P r) :
    ∃ u t, finish r = .next t ∧ P u ∧ RequestEnd s u t := by
  cases h with
  | ok u left silent => exact ⟨u, _, rfl, left, requestEnd_complete silent⟩
  | raised e u left silent => exact ⟨u, _, rfl, left, requestEnd_raiseTop e silent⟩
  | silent u left silent phase => exact ⟨u, _, rfl, left, requestEnd_inFlight silent phase⟩

/-- The end of a request with results. It answers a next state. -/
theorem finishResult_end {s : State} {P : State → Prop} {r : Res Unit} (h : EndsIn s P r) :
    ∃ u t, finishResult r = .next t ∧ P u ∧ RequestEnd s u t := by
  cases h with
  | ok u left silent => exact ⟨u, _, rfl, left, requestEnd_setRvalid silent⟩
  | raised e u left silent => exact ⟨u, _, rfl, left, requestEnd_raiseTop e silent⟩
  | silent u left silent phase => exact ⟨u, _, rfl, left, requestEnd_inFlight silent phase⟩

/-- What a request leaves of the host's side, where its lines keep it and the session's registers. -/
theorem RequestEnd.hostSide {n m : Nat} {s u t : State} (k : RequestEnd s u t) (h : Kept n m s u)
    (hs : u.session = s.session) : SameHostSide s t where
  params := k.params.trans h.params
  req := k.req.trans h.req
  term := k.term.trans h.term
  measuring := k.measuring.trans h.measuring
  session := k.session.trans hs
  host := (congrArg Env.host k.env).trans h.host
  shutdown := fun hd => k.shutdown.trans (h.shutdown hd)
  still := h.still.trans (.of_eq (congrArg Env.during k.env) k.shutdown)
  trace := k.trace ▸ h.trace

theorem RequestEnd.txKept {n : Nat} {s u t : State} (k : RequestEnd s u t) (h : TxKept n s u) : TxKept n s t := by
  rw [TxKept, k.txbuf]
  exact h

theorem RequestEnd.rxKept {n : Nat} {s u t : State} (k : RequestEnd s u t) (h : RxKept n s u) : RxKept n s t := by
  rw [RxKept, k.rxbuf]
  exact h

end Sys2Proof.Machine
end

section
/-! The eight sensor commands (42_transactions.md R102 to R112), each once for its request and its frame: the lines that
run, and what they leave, by the command. -/

namespace Sys2Proof

/-- The request that sends a command (30_encoding.md R63). The target counts for FRC only. -/
def Command.request (target : Word) : Command → Instr
  | .getVariant => .getVariant
  | .selfTest => .selfTest
  | .getDrdy => .getDrdy
  | .readMeas => .readMeas
  | .measSingle => .measSingle
  | .startPeriodic => .startPeriodic
  | .stopPeriodic => .stopPeriodic
  | .frc => .frc target

/-- The frame of a command as an instruction (30_encoding.md R58). The target counts for FRC only. -/
def Command.frame (target : Word) : Command → Instr
  | .getVariant => .frameGetVariant
  | .selfTest => .frameSelfTest
  | .getDrdy => .frameGetDrdy
  | .readMeas => .frameReadMeas
  | .measSingle => .frameMeasSingle
  | .startPeriodic => .frameStartPeriodic
  | .stopPeriodic => .frameStopPeriodic
  | .frc => .frameFrc target (Machine.targetCk target)

namespace Machine

/-- The lines of a command's request. -/
def commandLines (target : Word) (s : State) : Command → Res Unit
  | .getVariant => variantLines s
  | .selfTest => selfTestLines s
  | .getDrdy => (queryReady s).andThen fun _ u => .ok () u
  | .readMeas => readMeasLines s
  | .measSingle => measSingleLines s
  | .startPeriodic => startPeriodicLines s
  | .stopPeriodic => stopPeriodicLines s
  | .frc => frcLines (frameFrc target) s

/-- A command's request: a command with a response writes results. -/
def runCommand (c : Command) (target : Word) (s : State) : Host.Outcome State Fault Refusal :=
  if c.respLen = 0 then finish (commandLines target s c) else finishResult (commandLines target s c)

theorem exec_request (c : Command) (target : Word) (s : State) :
    exec (c.request target) s = runCommand c target s := by
  cases c <;> rfl

/-- The result registers after a command: those it writes are new, the others old (10_state.md R26). -/
def resultsFrom (old new : Results) : Command → Results
  | .getVariant => { old with word := new.word, wordWritten := new.wordWritten }
  | .selfTest => { old with word := new.word, wordWritten := new.wordWritten }
  | .getDrdy =>
    { old with
      word := new.word, wordWritten := new.wordWritten, drdy := new.drdy, drdyWritten := new.drdyWritten }
  | .readMeas =>
    { old with co2 := new.co2, tRaw := new.tRaw, rhRaw := new.rhRaw, ts := new.ts, measWritten := new.measWritten }
  | .measSingle => old
  | .startPeriodic => old
  | .stopPeriodic => old
  | .frc =>
    { old with
      word := new.word, wordWritten := new.wordWritten, corr := new.corr, corrWritten := new.corrWritten }

/-- What a command's lines leave, however they end. -/
structure CommandLeft (c : Command) (f : List Byte) (s t : State) : Prop extends Kept f.length c.respLen s t where
  session : t.session = s.session
  poll : t.poll = s.poll
  txbuf : t.txbuf = Memory.writeAll s.txbuf 0 f
  passed : c ≠ .selfTest → t.status.passed = s.status.passed
  readyKept : c ≠ .getDrdy → t.status.ready = s.status.ready
  results : t.results = resultsFrom s.results t.results c

/-- Every command's frame is a whole frame of the block. -/
theorem whole_wireFrame (c : Command) (target : Word) : ∃ i, takeFrame (wireFrame c target) = .ok (i, []) := by
  cases c with
  | getVariant => exact whole_getVariant
  | selfTest => exact whole_selfTest
  | getDrdy => exact whole_getDrdy
  | readMeas => exact whole_readMeas
  | measSingle => exact whole_measSingle
  | startPeriodic => exact whole_startPeriodic
  | stopPeriodic => exact whole_stopPeriodic
  | frc => exact whole_frcOf rfl

theorem wireFrame_length (c : Command) (target : Word) : (wireFrame c target).length = if c = .frc then 5 else 2 := by
  cases c <;> rfl

theorem wireFrame_length_le (c : Command) (target : Word) : (wireFrame c target).length ≤ txLen := by
  rw [wireFrame_length]
  split <;> decide

/-- The bus traffic of a command writes no register. -/
theorem XactTrail.commandLeft {c : Command} {target : Word} {s t : State} (h : XactTrail (wireFrame c target) s t)
    (hr : RxAfter c.respLen s t) : CommandLeft c (wireFrame c target) s t where
  toKept := h.kept hr (whole_wireFrame c target) (Nat.le_refl _) (wireFrame_length_le c target) (by cases c <;> decide)
  session := h.same.session
  poll := h.same.poll
  txbuf := h.txbuf
  passed := fun _ => congrArg StatusBits.passed h.same.status
  readyKept := fun _ => congrArg StatusBits.ready h.same.status
  results := by rw [h.same.results]; cases c <;> rfl

theorem RaisedTrail.commandLeft {c : Command} {target : Word} {s t : State}
    (h : RaisedTrail c.respLen (wireFrame c target) s t) : CommandLeft c (wireFrame c target) s t :=
  h.toXactTrail.commandLeft h.rx

theorem SilentTrail.commandLeft {c : Command} {target : Word} {s t : State} (h : SilentTrail (wireFrame c target) s t) :
    CommandLeft c (wireFrame c target) s t :=
  h.toXactTrail.commandLeft (.of_eq h.rx)

theorem DoneTrail.commandLeft {c : Command} {target : Word} {s t : State} (h : DoneTrail c (wireFrame c target) s t) :
    CommandLeft c (wireFrame c target) s t :=
  h.toXactTrail.commandLeft h.rx

/-- A call that is not answered ends a command's lines. -/
theorem SilentTrail.endsIn {c : Command} {target : Word} {s t : State} (h : SilentTrail (wireFrame c target) s t) :
    EndsIn s (CommandLeft c (wireFrame c target) s) (.silent t) :=
  .silent t h.commandLeft h.silent h.phase

/-- A raise out of a command's lines, after which no register has been written. -/
theorem RaisedTrail.endsIn {c : Command} {target : Word} {s t : State} (e : Err)
    (h : RaisedTrail c.respLen (wireFrame c target) s t) :
    EndsIn s (CommandLeft c (wireFrame c target) s) (.raised e t) :=
  .raised e t h.commandLeft h.silent

/-- Writes of PASSED and of result registers that the command makes after its exchange. -/
theorem CommandLeft.write {c : Command} {f : List Byte} {s t u : State} (h : CommandLeft c f s t)
    (hk : Kept f.length c.respLen t u) (hs : u.session = t.session) (hp : u.poll = t.poll) (ht : u.txbuf = t.txbuf)
    (hps : c ≠ .selfTest → u.status.passed = t.status.passed) (hrd : c ≠ .getDrdy → u.status.ready = t.status.ready)
    (hr : u.results = resultsFrom t.results u.results c) : CommandLeft c f s u where
  toKept := h.toKept.trans hk
  session := hs.trans h.session
  poll := hp.trans h.poll
  txbuf := ht.trans h.txbuf
  passed := fun hc => (hps hc).trans (h.passed hc)
  readyKept := fun hc => (hrd hc).trans (h.readyKept hc)
  results := by
    refine hr.trans ?_
    rw [h.results]
    cases c <;> rfl

/-- A write-only command's lines are its exchange. -/
theorem writeOnly_endsIn (c : Command) (target : Word) (s : State) (hc : c.respLen = 0) :
    EndsIn s (CommandLeft c (wireFrame c target) s) (xact c (wireFrame c target) s) := by
  rcases xact_write_cases c (wireFrame c target) s hc with ⟨t, h, hd, _⟩ | ⟨info, t, h, ht⟩ | ⟨t, h, ht⟩ <;> rw [h]
  · exact .ok t hd.commandLeft hd.silent
  · exact RaisedTrail.endsIn _ (hc ▸ ht)
  · exact ht.endsIn

theorem variantLines_endsIn (s : State) :
    EndsIn s (CommandLeft .getVariant frameGetVariant s) (variantLines s) := by
  rcases variantLines_cases s with ⟨w, t, h, hd⟩ | ⟨e, t, h, _, ht⟩ | ⟨t, h, ht⟩ <;> rw [h]
  · exact .ok _ ((DoneTrail.commandLeft (target := 0) hd).write (kept_setWord t w) rfl rfl rfl (fun _ => rfl)
      (fun _ => rfl) rfl) hd.silent
  · exact RaisedTrail.endsIn (c := .getVariant) (target := 0) e ht
  · exact SilentTrail.endsIn (c := .getVariant) (target := 0) ht

theorem selfTestLines_endsIn (s : State) :
    EndsIn s (CommandLeft .selfTest frameSelfTest s) (selfTestLines s) := by
  rcases selfTestLines_cases s with ⟨t, h, hd⟩ | ⟨w, t, _, h, ht⟩ | ⟨e, t, h, _, ht⟩ | ⟨t, h, ht⟩ <;> rw [h]
  · exact .ok _ ((DoneTrail.commandLeft (target := 0) hd).write ((kept_setPassed t 0).trans (kept_setWord _ 0)) rfl rfl
      rfl (fun hc => absurd rfl hc) (fun _ => rfl) rfl) hd.silent
  · exact .raised _ _ ((RaisedTrail.commandLeft (c := .selfTest) (target := 0) ht).write (kept_setPassed t w) rfl rfl rfl
      (fun hc => absurd rfl hc) (fun _ => rfl) rfl) ht.silent
  · exact RaisedTrail.endsIn (c := .selfTest) (target := 0) e ht
  · exact SilentTrail.endsIn (c := .selfTest) (target := 0) ht

theorem drdyLines_endsIn (s : State) :
    EndsIn s (CommandLeft .getDrdy frameGetDrdy s) ((queryReady s).andThen fun _ u => .ok () u) := by
  rcases queryReady_cases s with ⟨w, t, h, hd⟩ | ⟨e, t, h, _, _, ht⟩ | ⟨t, h, ht⟩ <;> rw [h]
  · exact .ok _ ((DoneTrail.commandLeft (target := 0) hd).write ((kept_setWord t w).trans (kept_setDrdy _ w)) rfl rfl rfl
      (fun _ => rfl) (fun hc => absurd rfl hc) rfl) hd.silent
  · exact RaisedTrail.endsIn (c := .getDrdy) (target := 0) e ht
  · exact SilentTrail.endsIn (c := .getDrdy) (target := 0) ht

theorem readMeasLines_endsIn (s : State) :
    EndsIn s (CommandLeft .readMeas frameReadMeas s) (readMeasLines s) := by
  rcases readMeasLines_cases s with ⟨w1, w2, w3, t, h, hd⟩ | ⟨e, t, h, _, _, ht⟩ | ⟨t, h, ht⟩ <;> rw [h]
  · have order : t.clock.afterXact ≤ t.least + 1 := hd.afterXact ▸ Nat.le_succ_of_le hd.advanced
    have sampled := now_same t
    obtain ⟨_, tx, _, _, silent, _⟩ := now_fields t
    refine .ok _ ((DoneTrail.commandLeft (target := 0) hd).write ((kept_now t order).trans (kept_setMeas _ w1 w2 w3 _))
      sampled.session sampled.poll tx (fun _ => congrArg StatusBits.passed sampled.status)
      (fun _ => congrArg StatusBits.ready sampled.status) ?_) (silent.trans hd.silent)
    simp only [setMeas_results, sampled.results, resultsFrom]
  · exact RaisedTrail.endsIn (c := .readMeas) (target := 0) e ht
  · exact SilentTrail.endsIn (c := .readMeas) (target := 0) ht

theorem frcLines_endsIn (target : Word) (s : State) :
    EndsIn s (CommandLeft .frc (frameFrc target) s) (frcLines (frameFrc target) s) := by
  rcases frcLines_cases (frameFrc target) s with ⟨w, t, h, hd⟩ | ⟨e, t, h, _, ht⟩ | ⟨t, h, ht⟩ <;> rw [h]
  · exact .ok _ ((DoneTrail.commandLeft hd).write ((kept_setWord t w).trans (kept_setCorr _ w)) rfl rfl rfl (fun _ => rfl)
      (fun _ => rfl) rfl) hd.silent
  · exact RaisedTrail.endsIn (c := .frc) e ht
  · exact SilentTrail.endsIn (c := .frc) ht

/-- What a command's lines leave, by the command. -/
theorem commandLines_endsIn (c : Command) (target : Word) (s : State) :
    EndsIn s (CommandLeft c (wireFrame c target) s) (commandLines target s c) := by
  cases c with
  | getVariant => exact variantLines_endsIn s
  | selfTest => exact selfTestLines_endsIn s
  | getDrdy => exact drdyLines_endsIn s
  | readMeas => exact readMeasLines_endsIn s
  | measSingle => exact writeOnly_endsIn .measSingle target s rfl
  | startPeriodic => exact writeOnly_endsIn .startPeriodic target s rfl
  | stopPeriodic => exact writeOnly_endsIn .stopPeriodic target s rfl
  | frc => exact frcLines_endsIn target s

/-- A command's request answers a next state. -/
theorem runCommand_end (c : Command) (target : Word) (s : State) :
    ∃ u t, runCommand c target s = .next t ∧ CommandLeft c (wireFrame c target) s u ∧ RequestEnd s u t := by
  unfold runCommand
  split
  · exact finish_end (commandLines_endsIn c target s)
  · exact finishResult_end (commandLines_endsIn c target s)

/-- What a command's request that answers `t` leaves. -/
theorem runCommand_left {c : Command} {target : Word} {s t : State} (h : runCommand c target s = .next t) :
    ∃ u, CommandLeft c (wireFrame c target) s u ∧ RequestEnd s u t := by
  obtain ⟨u, t', h', left, ends⟩ := runCommand_end c target s
  rw [h] at h'
  cases h'
  exact ⟨u, left, ends⟩

/-- The result registers that a command's request leaves alone. -/
theorem runCommand_results {c : Command} {target : Word} {s t : State} (h : runCommand c target s = .next t) :
    t.results = resultsFrom s.results t.results c := by
  obtain ⟨u, left, ends⟩ := runCommand_left h
  rw [ends.results]
  exact left.results

/-- Settles O31, one command at a time: each request is `runCommand` of its command, whose lines and end leave these. -/
theorem commandRequestsFrame : Obligations.CommandRequestsFrame := by
  unfold Obligations.CommandRequestsFrame
  intro target s t
  show ∀ x ∈ Command.all.map fun c => (c.request target, wireFrame c target, c.respLen), _
  intro x hx h
  obtain ⟨c, _, rfl⟩ := List.mem_map.1 hx
  obtain ⟨u, left, ends⟩ := runCommand_left ((exec_request c target s).symm.trans h)
  refine ⟨ends.hostSide left.toKept left.session, ends.acc.trans left.acc, ends.poll.trans left.poll,
    ends.txKept left.tx, ends.rxKept left.rx, ?frame, ?passed, ?ready⟩
  case frame =>
    intro i hi
    have := Memory.read_writeAll_at (wireFrame c target) s.txbuf 0 i hi
    rwa [Nat.zero_add, ← left.txbuf, ← ends.txbuf] at this
  case passed => exact fun hc => ends.passed.trans (left.passed fun e => hc (e ▸ rfl))
  case ready => exact fun hc => ends.ready.trans (left.readyKept fun e => hc (e ▸ rfl))

/-- Settles O32, by the registers that each command writes. -/
theorem commandResultsFrame : Obligations.CommandResultsFrame := by
  unfold Obligations.CommandResultsFrame
  intro target s t
  have results (c : Command) (h : exec (c.request target) s = .next t) :=
    runCommand_results ((exec_request c target s).symm.trans h)
  refine ⟨?none, ?word, results .getDrdy, results .readMeas, results .frc⟩
  case none =>
    show ∀ i ∈ [Command.measSingle, .startPeriodic, .stopPeriodic].map (Command.request target), _
    simp only [List.forall_mem_map, List.forall_mem_cons]
    exact ⟨results .measSingle, results .startPeriodic, results .stopPeriodic, nofun⟩
  case word =>
    show ∀ i ∈ [Command.getVariant, .selfTest].map (Command.request target), _
    simp only [List.forall_mem_map, List.forall_mem_cons]
    exact ⟨results .getVariant, results .selfTest, nofun⟩

end Machine

end Sys2Proof
end

section
/-! Polls (43_polling.md R121 to R127) and sessions (44_session.md R131 to R144): what they leave alone. -/

namespace Sys2Proof.Machine

/-- What a poll leaves, however its lines end. -/
structure PollLeft (s t : State) : Prop extends Called s t where
  attempt : s.poll.attempt.toNat ≤ maxAttempts → t.poll.attempt.toNat ≤ maxAttempts
  results : t.results = resultsFrom s.results t.results .getDrdy
  rx3 : RxKept 3 s t

theorem Polled.pollLeft {k left : Nat} {s t : State} (h : Polled k s t) (hk : k ≤ left + 1)
    (hl : s.poll.attempt.toNat ≤ maxAttempts → s.poll.attempt.toNat + left ≤ maxAttempts) : PollLeft s t :=
  ⟨h.toCalled, fun ha => h.attempt_le hk (hl ha), h.results, h.rx3⟩

/-- A poll from an attempt on, with `left` attempts allowed after it. -/
theorem pollFrom_endsIn {left : Nat} {s : State}
    (hl : s.poll.attempt.toNat ≤ maxAttempts → s.poll.attempt.toNat + left ≤ maxAttempts) :
    EndsIn s (PollLeft s) (pollFrom left s) := by
  rcases pollFrom_cases left s with ⟨k, t, _, hk, h, hp, _, _, silent, _⟩ | ⟨t, h, hp, _, _, silent, _⟩ |
    ⟨k, e, t, _, hk, h, _, _, hp, _, silent⟩ | ⟨k, t, _, hk, h, hp, _, silent, phase⟩ <;> rw [h]
  · exact .ok t (hp.pollLeft hk hl) silent
  · exact .raised _ t (hp.pollLeft (Nat.le_refl _) hl) silent
  · exact .raised e t (hp.pollLeft hk hl) silent
  · exact .silent t (hp.pollLeft hk hl) silent phase

/-- A poll from its entry on (R127). -/
theorem pollLines_endsIn (s : State) : EndsIn s (PollLeft s) (pollLines s) := by
  have entry : (nextAttempt (pollEntry s)).poll.attempt.toNat = 1 := rfl
  have poll : EndsIn _ _ (pollFrom 10 (nextAttempt (pollEntry s))) :=
    pollFrom_endsIn fun _ => by rw [entry]; decide
  rw [pollLines_eq]
  exact poll.from rfl fun u left =>
    ⟨(called_entry s).trans left.toCalled, fun _ => left.attempt (by rw [entry]; decide), left.results, left.rx3⟩

/-- ATTEMPT and the attempts that R123 still allows come to 11. -/
theorem attempt_add_attemptsLeft {s : State} (h : s.poll.attempt.toNat ≤ maxAttempts) :
    s.poll.attempt.toNat + attemptsLeft s ≤ maxAttempts :=
  Nat.le_of_eq (Nat.add_sub_of_le h)

/-- What a POLL_READY that answers `t` leaves. -/
theorem execPollReady_left {s t : State} (h : execPollReady s = .next t) :
    ∃ u, PollLeft s u ∧ RequestEnd s u t := by
  obtain ⟨u, t', h', left, ends⟩ := finishResult_end (pollLines_endsIn s)
  rw [execPollReady, h'] at h
  cases h
  exact ⟨u, left, ends⟩

/-- Settles O36, by what the poll's lines leave and what their end does. -/
theorem pollFrame : Obligations.PollFrame := by
  unfold Obligations.PollFrame
  intro s t h
  obtain ⟨u, left, ends⟩ := execPollReady_left h
  refine ⟨ends.hostSide left.toKept left.session, ends.acc.trans left.acc, ends.passed.trans left.passed,
    ends.txKept left.tx, ends.rxKept left.rx3, ?_⟩
  rw [ends.results]
  exact left.results

/-- A session from its entry on (44_session.md R144). It answers a next state. -/
theorem execSession_end (onlyLast : Bool) (s : State) :
    ∃ t, execSession onlyLast s = .next t ∧ SessionEnd 1 (sessionEntry onlyLast s) t :=
  sessionStart_end _

theorem execSession_left {onlyLast : Bool} {s t : State} (h : execSession onlyLast s = .next t) :
    SessionEnd 1 (sessionEntry onlyLast s) t := by
  obtain ⟨t', h', ends⟩ := execSession_end onlyLast s
  rw [h'] at h
  cases h
  exact ends

/-- Settles O45: the entry writes MEASURING, PHASE and the session's registers alone, and the rest of the session leaves
these alone. -/
theorem sessionFrame : Obligations.SessionFrame := by
  unfold Obligations.SessionFrame
  intro onlyLast s t h
  have ends := execSession_left h
  exact ⟨ends.params, ends.req, ends.term, ends.acc, ends.host, ends.corr, ends.corrWritten, ends.passed, ends.onlyLast,
    ends.latched, ends.shutdown, ends.still, ends.trace, ends.tx, ends.rx, ends.meas, ends.polled⟩

/-- Settles O30: the lines of the twelve requests do not fault, and whatever they end in, the request answers a next
state. -/
theorem noRequestFaults : Obligations.NoRequestFaults := by
  unfold Obligations.NoRequestFaults
  intro s b target onlyLast
  have command (c : Command) : ∃ t, exec (c.request target) s = .next t := by
    obtain ⟨_, t, h, _⟩ := runCommand_end c target s
    exact ⟨t, (exec_request c target s).trans h⟩
  have poll : ∃ t, exec .pollReady s = .next t := by
    obtain ⟨_, t, h, _⟩ := finishResult_end (pollLines_endsIn s)
    exact ⟨t, h⟩
  have session : ∃ t, exec (.session onlyLast) s = .next t := by
    obtain ⟨t, h, _⟩ := execSession_end onlyLast s
    exact ⟨t, h⟩
  simp only [List.forall_mem_cons]
  exact ⟨⟨_, rfl⟩, ⟨_, rfl⟩, command .getVariant, command .selfTest, command .getDrdy, command .readMeas,
    command .measSingle, command .startPeriodic, command .stopPeriodic, command .frc, poll, session, nofun⟩

end Sys2Proof.Machine
end

section
/-! What every instruction leaves alone, requests and frames, from the state its lines start in. -/

namespace Sys2Proof.Machine

/-- The state in which an instruction's lines start: after the write of ACC by a CRC request (40_checksum.md R83, R84) and
after S_ENTRY of a session (44_session.md R131). -/
def entryOf (s : State) : Instr → State
  | .crcInit => s.setAcc crcSeed
  | .crcFeed b => s.setAcc (crcStep s.acc b)
  | .session onlyLast => sessionEntry onlyLast s
  | _ => s

/-- What every run of an instruction leaves, from its entry `s` to the state `t` that it answers, and how it ends. -/
structure Ran (s t : State) : Prop where
  params : t.params = s.params
  req : t.req = s.req
  term : t.term = s.term
  acc : t.acc = s.acc
  host : t.env.host = s.env.host
  shutdown : s.shutdown = true → t.shutdown = true
  asked : (s.env.observer ≠ .resting → s.shutdown = true) → t.env.observer ≠ .resting → t.shutdown = true
  txForm : Memory.wf s.txbuf = true ∧ Memory.within txLen s.txbuf = true →
    Memory.wf t.txbuf = true ∧ Memory.within txLen t.txbuf = true
  rxForm : Memory.wf s.rxbuf = true ∧ Memory.within rxLen s.rxbuf = true →
    Memory.wf t.rxbuf = true ∧ Memory.within rxLen t.rxbuf = true
  ready : s.status.ready = readyFlag s.results.drdy → t.status.ready = readyFlag t.results.drdy
  attempt : s.poll.attempt.toNat ≤ maxAttempts → t.poll.attempt.toNat ≤ maxAttempts
  measuring : t.measuring = true → s.measuring = true
  ends :
    (InFlight s t ∧ t.measuring = s.measuring ∧ t.status.done = s.status.done ∧ t.status.rvalid = s.status.rvalid ∧
      t.err = s.err ∧ t.errInfo = s.errInfo) ∨
    (Ended t ∧ t.env.silent = s.env.silent ∧ (t.status.rvalid = true → t.err = s.err))

/-- A request whose lines keep this much, and its end. -/
theorem RequestEnd.ran {n m : Nat} {s u t : State} (k : RequestEnd s u t) (h : Kept n m s u)
    (ha : s.poll.attempt.toNat ≤ maxAttempts → u.poll.attempt.toNat ≤ maxAttempts) : Ran s t where
  params := k.params.trans h.params
  req := k.req.trans h.req
  term := k.term.trans h.term
  acc := k.acc.trans h.acc
  host := (congrArg Env.host k.env).trans h.host
  shutdown := fun hd => k.shutdown.trans (h.shutdown hd)
  asked := by rw [k.env, k.shutdown]; exact h.asked
  txForm := by rw [k.txbuf]; exact h.txForm
  rxForm := by rw [k.rxbuf]; exact h.rxForm
  ready := by rw [k.ready, k.results]; exact h.ready
  attempt := by rw [k.poll]; exact ha
  measuring := fun hm => (k.measuring.trans h.measuring).symm.trans hm
  ends := by
    rcases k.ends with ⟨rfl, silent, phase⟩ | ⟨ended, silent, rvalid⟩
    · exact .inl ⟨⟨silent, h.busy, h.curOp, phase⟩, h.measuring, h.done, h.rvalid, h.err, h.errInfo⟩
    · exact .inr ⟨ended, (congrArg Env.silent k.env).trans silent, fun hr => (rvalid hr).trans h.err⟩

/-- MEASURING is not 1 where a part of a session began with 0. -/
theorem SessionEnd.measuring {n : Nat} {s t : State} (h : SessionEnd n s t) (hm : t.measuring = true) :
    s.measuring = true := by
  rcases h.ends with ⟨_, kept, _⟩ | ⟨_, off, _⟩
  · exact kept.symm.trans hm
  · rw [off] at hm
    cases hm

/-- A session that ends leaves MEASURING = 0. -/
theorem SessionEnd.measuring_of_ended {n : Nat} {s t : State} (h : SessionEnd n s t) (hs : s.status.busy = true)
    (ht : Ended t) : t.measuring = false := by
  rcases h.ends with ⟨⟨_, busy, _⟩, _⟩ | ⟨_, off, _⟩
  · obtain ⟨idle, _⟩ := ht
    rw [busy, hs] at idle
    cases idle
  · exact off

theorem SessionEnd.ran {n : Nat} {s t : State} (h : SessionEnd n s t) : Ran s t where
  params := h.params
  req := h.req
  term := h.term
  acc := h.acc
  host := h.host
  shutdown := h.shutdown
  asked := h.asked
  txForm := h.txForm
  rxForm := h.rxForm
  ready := h.ready
  attempt := h.attempt
  measuring := h.measuring
  ends := h.ends.imp_right fun ⟨ended, _, silent, _, rvalid⟩ => ⟨ended, silent, rvalid⟩

theorem runCommand_ran {c : Command} {target : Word} {s t : State} (h : runCommand c target s = .next t) : Ran s t := by
  obtain ⟨u, left, ends⟩ := runCommand_left h
  exact ends.ran left.toKept (left.poll ▸ id)

/-- The end of a poll in POLL_READY, from its entry or from a frame on. -/
theorem pollEnd_ran {s t : State} {r : Res Unit} (hr : EndsIn s (PollLeft s) r) (h : finishResult r = .next t) :
    Ran s t := by
  obtain ⟨u, t', h', left, ends⟩ := finishResult_end hr
  rw [h'] at h
  cases h
  exact ends.ran left.toKept left.attempt

/-- What a frame runs outside the request of its own command: the rest of a poll (R93) or of a session (R93, R94, R96,
R97), or nothing. -/
def resumed (s : State) : Command → Host.Outcome State Fault Refusal
  | .getDrdy =>
    if s.seq.curOp = some 0xA#4 then finishResult (pollFrom (attemptsLeft s) s)
    else if s.seq.curOp = some 0xB#4 then sessionAfterPoll (sessionPoll (loopBound s)) (pollFrom (attemptsLeft s) s)
    else .fault .strayFrame
  | .readMeas =>
    if s.seq.curOp = some 0xB#4 then sessionAfterRead (sessionPoll (loopBound s)) (readMeasLines s)
    else .fault .strayFrame
  | .startPeriodic =>
    if s.seq.curOp = some 0xB#4 then sessionAfterStart (startPeriodicLines s) else .fault .strayFrame
  | .stopPeriodic =>
    if s.seq.curOp = some 0xB#4 then sessionAfterStop (stopPeriodicLines s) else .fault .strayFrame
  | _ => .fault .strayFrame

/-- What a frame runs, by the request it is met under. -/
theorem exec_frame (c : Command) (target : Word) (s : State) :
    exec (c.frame target) s = if s.seq.curOp = some c.op then runCommand c target s else resumed s c := by
  cases c <;> rfl

/-- SESSION is no command's request. -/
theorem op_ne_session (c : Command) : c.op ≠ 0xB#4 := by
  cases c <;> decide

/-- A frame met in a session runs the rest of the session. -/
theorem exec_frame_session {c : Command} {target : Word} {s t : State} (hop : s.seq.curOp = some 0xB#4)
    (h : exec (c.frame target) s = .next t) : SessionEnd 1 s t := by
  have other : s.seq.curOp ≠ some c.op := fun e => op_ne_session c (Option.some.inj (e.symm.trans hop))
  have again (v : State) (hv : Iterated s v) := loop_again hv
  rw [exec_frame, if_neg other] at h
  cases c with
  | getDrdy =>
    obtain ⟨t', h', ends, _⟩ := sessionAfterPoll_end (attemptsLeft s) s attempt_add_attemptsLeft again
    rw [resumed, if_neg (by rw [hop]; decide), if_pos hop, h'] at h
    cases h
    exact ends
  | readMeas =>
    obtain ⟨t', h', ends⟩ := sessionAfterRead_end (readLine_end s) again
    rw [resumed, if_pos hop, h'] at h
    cases h
    exact ends
  | startPeriodic =>
    obtain ⟨t', h', ends⟩ := sessionAfterStart_end
      (writeLine_end .startPeriodic frameStartPeriodic s rfl rfl whole_startPeriodic)
    rw [resumed, if_pos hop, startPeriodicLines, h'] at h
    cases h
    exact ends
  | stopPeriodic =>
    obtain ⟨t', h', ends⟩ := sessionAfterStop_end
      (writeLine_end .stopPeriodic frameStopPeriodic s rfl rfl whole_stopPeriodic)
    rw [resumed, if_pos hop, stopPeriodicLines, h'] at h
    cases h
    exact ends
  | _ => cases h

/-- Outside a session, a frame that is not met under its own request either runs the rest of a poll. -/
theorem resumed_poll {c : Command} {s t : State} (hop : s.seq.curOp ≠ some 0xB#4) (h : resumed s c = .next t) :
    finishResult (pollFrom (attemptsLeft s) s) = .next t := by
  cases c with
  | getDrdy =>
    rw [resumed, if_neg hop] at h
    split at h
    · exact h
    · cases h
  | readMeas => rw [resumed, if_neg hop] at h; cases h
  | startPeriodic => rw [resumed, if_neg hop] at h; cases h
  | stopPeriodic => rw [resumed, if_neg hop] at h; cases h
  | _ => cases h

/-- Whatever request a frame resumes. -/
theorem exec_frame_ran {c : Command} {target : Word} {s t : State} (h : exec (c.frame target) s = .next t) :
    Ran s t := by
  by_cases hop : s.seq.curOp = some 0xB#4
  · exact (exec_frame_session hop h).ran
  · rw [exec_frame] at h
    split at h
    · exact runCommand_ran h
    · exact pollEnd_ran (pollFrom_endsIn attempt_add_attemptsLeft) (resumed_poll hop h)

/-- Every instruction that stands for an encoding. -/
theorem exec_ran {i : Instr} {s t : State} (hi : i.wellFormed = true) (h : exec i s = .next t) : Ran (entryOf s i) t := by
  have request (c : Command) (target : Word) (hr : exec (c.request target) s = .next t) : Ran s t :=
    runCommand_ran ((exec_request c target s).symm.trans hr)
  have acc (a : Byte) (hr : finishResult (.ok () (s.setAcc a)) = .next t) : Ran (s.setAcc a) t := by
    cases hr
    exact (requestEnd_setRvalid rfl).ran (.refl (n := 0) (m := 0) _) id
  cases i with
  | crcInit => exact acc crcSeed h
  | crcFeed b => exact acc (crcStep s.acc b) h
  | getVariant => exact request .getVariant 0 h
  | selfTest => exact request .selfTest 0 h
  | getDrdy => exact request .getDrdy 0 h
  | readMeas => exact request .readMeas 0 h
  | measSingle => exact request .measSingle 0 h
  | startPeriodic => exact request .startPeriodic 0 h
  | stopPeriodic => exact request .stopPeriodic 0 h
  | frc target => exact request .frc target h
  | pollReady => exact pollEnd_ran (pollLines_endsIn s) h
  | session onlyLast => exact (execSession_left h).ran
  | frameGetVariant => exact exec_frame_ran (c := .getVariant) (target := 0) h
  | frameSelfTest => exact exec_frame_ran (c := .selfTest) (target := 0) h
  | frameGetDrdy => exact exec_frame_ran (c := .getDrdy) (target := 0) h
  | frameReadMeas => exact exec_frame_ran (c := .readMeas) (target := 0) h
  | frameMeasSingle => exact exec_frame_ran (c := .measSingle) (target := 0) h
  | frameStartPeriodic => exact exec_frame_ran (c := .startPeriodic) (target := 0) h
  | frameStopPeriodic => exact exec_frame_ran (c := .stopPeriodic) (target := 0) h
  | frameFrc target ck =>
    obtain rfl : ck = targetCk target := of_decide_eq_true hi
    exact exec_frame_ran (c := .frc) (target := target) h

/-- The entry of an instruction writes ACC in the two CRC requests alone (10_state.md R27). -/
theorem entryOf_acc {i : Instr} (s : State) (h : writesAcc i = false) : (entryOf s i).acc = s.acc := by
  cases i with
  | crcInit => cases h
  | crcFeed b => cases h
  | _ => rfl

theorem entryOf_shared (s : State) (i : Instr) :
    (entryOf s i).params = s.params ∧ (entryOf s i).shutdown = s.shutdown ∧ (entryOf s i).req = s.req ∧
      (entryOf s i).env = s.env := by
  cases i <;> exact ⟨rfl, rfl, rfl, rfl⟩

/-- An FRC frame leaves ACC alone, whatever its checksum byte. -/
theorem execFrameFrc_acc {target : Word} {ck : Byte} {s t : State} (h : execFrameFrc target ck s = .next t) :
    t.acc = s.acc := by
  unfold execFrameFrc at h
  split at h
  · rcases frcLines_cases (frameFrcOf target ck) s with ⟨w, u, hl, left⟩ | ⟨e, u, hl, _, left⟩ | ⟨u, hl, left⟩ <;>
      (rw [hl] at h; cases h; exact left.same.acc)
  · cases h

/-- Settles O15, by the entry of each instruction; the frame of a forced recalibration that has another checksum than its
target's stands for no encoding, and is seen by itself. -/
theorem onlyCrcRequestsWriteAcc : Obligations.OnlyCrcRequestsWriteAcc := by
  unfold Obligations.OnlyCrcRequestsWriteAcc
  intro i s t hi h
  cases hw : i.wellFormed with
  | true => exact (exec_ran hw h).acc.trans (entryOf_acc s hi)
  | false =>
    cases i with
    | frameFrc target ck => exact execFrameFrc_acc h
    | _ => cases hw

end Sys2Proof.Machine
end

section
/-! What a step can be (10_state.md R32, 20_memory.md R40): the decoder's answers read backwards, and the kinds of step of
a state that a next state can come from. -/

namespace Sys2Proof.Machine

/-- The opcode of the request that an instruction is (30_encoding.md R63). A frame is none. -/
def requestOp : Instr → Option (BitVec 4)
  | .crcInit => some 0x0#4
  | .crcFeed _ => some 0x1#4
  | .getVariant => some 0x2#4
  | .selfTest => some 0x3#4
  | .getDrdy => some 0x4#4
  | .readMeas => some 0x5#4
  | .measSingle => some 0x6#4
  | .startPeriodic => some 0x7#4
  | .stopPeriodic => some 0x8#4
  | .frc _ => some 0x9#4
  | .pollReady => some 0xA#4
  | .session _ => some 0xB#4
  | _ => none

theorem legalIf_ok {ok : Bool} {i j : Instr} (h : legalIf ok i = .ok j) : j = i := by
  unfold legalIf at h
  split at h <;> cases h
  rfl

/-- The decoder of request words answers the request of the word's OP. -/
theorem decodeReq_op {r : BitVec 32} {i : Instr} (h : decodeReq r = .ok i) : requestOp i = some (reqOp r) := by
  unfold decodeReq at h
  split at h
  case h_13 => cases h
  all_goals
    rename_i hop
    rw [legalIf_ok h]
    exact congrArg some (BitVec.eq_of_toNat_eq hop.symm)

/-- A request is an instruction that stands for an encoding. -/
theorem wellFormed_of_requestOp {i : Instr} {op : BitVec 4} (h : requestOp i = some op) : i.wellFormed = true := by
  cases i with
  | frameFrc target ck => cases h
  | _ => rfl

theorem be16_eq {b0 b1 : Byte} {w : Word} (h : be16 b0 b1 = w) : b0 = hiByte w ∧ b1 = loByte w := by
  subst h
  exact ⟨(hiByte_be16 b0 b1).symm, (loByte_be16 b0 b1).symm⟩

theorem opcode_of_ofOpcode {w : Word} {c : Command} (h : Command.ofOpcode w = some c) : w = c.opcode :=
  (of_decide_eq_true (List.find?_some (p := fun c : Command => decide (c.opcode = w)) h)).symm

/-- The frame of a command, read off the head of a byte sequence, leaves the bytes after it. -/
theorem takeFrame_wireFrame (c : Command) (target : Word) (rest : List Byte) :
    takeFrame (wireFrame c target ++ rest) = .ok (c.frame target, rest) := by
  cases c with
  | frc => rw [wireFrame, frameFrc, takeFrame_frcOf, if_pos rfl, be16_bytes, Command.frame]
  | _ => rfl

/-- The rest of a forced-recalibration frame after its opcode: its target, and the target's checksum (R69). -/
theorem takePayload_frc_ok {bytes rest : List Byte} {i : Instr} (h : takePayload .frc bytes = .ok (i, rest)) :
    ∃ target, bytes = hiByte target :: loByte target :: targetCk target :: rest ∧ i = Command.frc.frame target := by
  rcases bytes with _ | ⟨hi, _ | ⟨lo, _ | ⟨ck, tail⟩⟩⟩
  case cons.cons.cons =>
    rw [takePayload] at h
    split at h <;> cases h
    rename_i hck
    refine ⟨be16 hi lo, ?_⟩
    rw [Command.frame, targetCk, hiByte_be16, loByte_be16, hck]
    exact ⟨rfl, rfl⟩
  all_goals cases h

/-- A frame that the decoder takes off the head of a byte sequence is a command's. -/
theorem takeFrame_ok {bytes rest : List Byte} {i : Instr} (h : takeFrame bytes = .ok (i, rest)) :
    ∃ (c : Command) (target : Word), bytes = wireFrame c target ++ rest ∧ i = c.frame target := by
  rcases bytes with _ | ⟨b0, _ | ⟨b1, tail⟩⟩
  case cons.cons =>
    rw [takeFrame] at h
    cases hc : Command.ofOpcode (be16 b0 b1) with
    | none =>
      rw [hc] at h
      cases h
    | some c =>
      rw [hc] at h
      obtain ⟨rfl, rfl⟩ := be16_eq (opcode_of_ofOpcode hc)
      cases c with
      | getVariant => cases h; exact ⟨.getVariant, 0, rfl, rfl⟩
      | selfTest => cases h; exact ⟨.selfTest, 0, rfl, rfl⟩
      | getDrdy => cases h; exact ⟨.getDrdy, 0, rfl, rfl⟩
      | readMeas => cases h; exact ⟨.readMeas, 0, rfl, rfl⟩
      | measSingle => cases h; exact ⟨.measSingle, 0, rfl, rfl⟩
      | startPeriodic => cases h; exact ⟨.startPeriodic, 0, rfl, rfl⟩
      | stopPeriodic => cases h; exact ⟨.stopPeriodic, 0, rfl, rfl⟩
      | frc =>
        obtain ⟨target, rfl, hi⟩ := takePayload_frc_ok h
        exact ⟨.frc, target, rfl, hi⟩
  all_goals cases h

/-- A byte sequence that decodes as a frame is one command's frame. -/
theorem decodeFrame_ok {bytes : List Byte} {i : Instr} (h : decodeFrame bytes = .ok i) :
    ∃ (c : Command) (target : Word), bytes = wireFrame c target ∧ i = c.frame target := by
  unfold decodeFrame at h
  split at h <;> cases h
  rename_i htake
  obtain ⟨c, target, hb, hi⟩ := takeFrame_ok htake
  exact ⟨c, target, by rw [hb, List.append_nil], hi⟩

/-- The bytes that a buffer leads with, after which further cells may hold values. -/
theorem Memory.leading_append {m : List Host.Cell} (bs : List Byte) (k : Nat) :
    ∀ base : Nat, (∀ i, i < bs.length → Memory.read m (base + i) = bs[i]?) →
      Memory.leading m base (bs.length + k) = bs ++ Memory.leading m (base + bs.length) k := by
  induction bs with
  | nil => intro base _; rw [List.length_nil, Nat.zero_add, Nat.add_zero, List.nil_append]
  | cons b bs ih =>
    intro base h
    have head : Memory.read m base = some b := h 0 (Nat.succ_pos _)
    have tail := ih (base + 1) fun i hi => by
      rw [Nat.add_assoc, Nat.add_comm 1]
      exact h (i + 1) (Nat.succ_lt_succ hi)
    rw [List.length_cons, Nat.add_right_comm, Memory.leading, head, tail, List.cons_append, Nat.add_assoc,
      Nat.add_comm 1]

/-- Where a command's frame was written into TXBUF, the fetch reads that frame. -/
theorem fetchFrame_wireFrame {c : Command} {target : Word} {s : State} {m : List Host.Cell}
    (h : s.txbuf = Memory.writeAll m 0 (wireFrame c target)) : fetchFrame s = .run (c.frame target) s := by
  have lead := Memory.leading_append (m := s.txbuf) (wireFrame c target) (txLen - (wireFrame c target).length) 0
    fun i hi => h ▸ Memory.read_writeAll_at _ m 0 i hi
  rw [Nat.add_sub_of_le (wireFrame_length_le c target)] at lead
  rw [fetchFrame, lead, takeFrame_wireFrame]

/-- The frame in TXBUF is a command's, or the fetch stops. -/
theorem fetchFrame_cases (s : State) :
    (∃ (c : Command) (target : Word), fetchFrame s = .run (c.frame target) s) ∨
    fetchFrame s = .done (.fault .unwrittenRead) ∨ fetchFrame s = .done (.refused .notAFrame) := by
  unfold fetchFrame
  split
  · rename_i i rest htake
    obtain ⟨c, target, _, rfl⟩ := takeFrame_ok htake
    exact .inl ⟨c, target, rfl⟩
  · exact .inr (.inl rfl)
  · exact .inr (.inr rfl)

/-! ### The step of a state, by its kind -/

theorem step_run {s u : State} {i : Instr} (h : fetch s = .run i u) : step s = exec i u := by
  rw [step, h]

theorem step_done {s : State} {o : Host.Outcome State Fault Refusal} (h : fetch s = .done o) : step s = o := by
  rw [step, h]

theorem fetch_idle {s : State} (h : s.status.busy = false) : fetch s = fetchRequest s := by
  simp [fetch, h]

theorem fetch_frame {s : State} (hb : s.status.busy = true) (hp : s.seq.phase = .xWrite ∧ s.env.silent = false) :
    fetch s = fetchFrame s := by
  simp [fetch, hb, hp]

theorem step_alone {s : State} (hb : s.status.busy = true) (hp : ¬(s.seq.phase = .xWrite ∧ s.env.silent = false)) :
    step s = hostAlone s :=
  step_done (by simp [fetch, hb, hp])

/-- With BUSY = 0 and no step of the host listed, nothing happens (70_reset_and_hazards.md R170). -/
theorem step_waits {s : State} (hb : s.status.busy = false) (hh : s.env.host = []) : step s = .next s :=
  step_done (by rw [fetch_idle hb, fetchRequest, hh])

theorem step_acts {s : State} {a : HostAction} {rest : List HostStep} (hb : s.status.busy = false)
    (hh : s.env.host = .act a :: rest) : step s = hostAct a (s.setHost rest) :=
  step_done (by rw [fetch_idle hb, fetchRequest, hh])

theorem step_illegal {s : State} {r : BitVec 32} {rest : List HostStep} {e : Reject} (hb : s.status.busy = false)
    (hh : s.env.host = .request r :: rest) (hd : decodeReq r = .error e) :
    step s = finish (raise (illegalErr r) (accept r (s.setHost rest))) :=
  step_done (by rw [fetch_idle hb, fetchRequest, hh]; simp only [hd])

theorem step_request {s : State} {r : BitVec 32} {rest : List HostStep} {i : Instr} (hb : s.status.busy = false)
    (hh : s.env.host = .request r :: rest) (hd : decodeReq r = .ok i) :
    step s = exec i (accept r (s.setHost rest)) :=
  step_run (by rw [fetch_idle hb, fetchRequest, hh]; simp only [hd])

/-- Beside a call in flight an action of the host goes on. -/
theorem hostAlone_act {s : State} {a : HostAction} {rest : List HostStep} (hh : s.env.host = .act a :: rest) :
    hostAlone s = hostAct a (s.setHost rest) := by
  rw [hostAlone, hh]

/-- Beside a call in flight nothing but an action of the host goes on (10_state.md R32, 20_memory.md R40 law c). -/
theorem hostAlone_stuck {s : State} (hh : ∀ a rest, s.env.host ≠ .act a :: rest) : hostAlone s = .fault .stuck := by
  unfold hostAlone
  split
  · rename_i a rest h
    exact absurd h (hh a rest)
  · rfl

/-- The kinds of step that answer a next state. -/
inductive Steps (s : State) : State → Prop where
  /-- With BUSY = 0 and a host that has nothing to do, nothing happens. -/
  | waits (idle : s.status.busy = false) : Steps s s
  /-- An action of the host. -/
  | acts (a : HostAction) (rest : List HostStep) (t : State) (host : s.env.host = .act a :: rest)
      (act : hostAct a (s.setHost rest) = .next t) : Steps s t
  /-- The acceptance of a word that is no request, and its ILLEGAL (30_encoding.md R66). -/
  | illegal (r : BitVec 32) (rest : List HostStep) (t : State) (idle : s.status.busy = false)
      (ran : finish (raise (illegalErr r) (accept r (s.setHost rest))) = .next t) : Steps s t
  /-- The acceptance of a request (10_state.md R32), and its run. -/
  | request (r : BitVec 32) (rest : List HostStep) (i : Instr) (t : State) (idle : s.status.busy = false)
      (decodes : decodeReq r = .ok i) (ran : exec i (accept r (s.setHost rest)) = .next t) : Steps s t
  /-- The run of a frame that stands in TXBUF at X_WRITE. -/
  | frame (c : Command) (target : Word) (t : State) (busy : s.status.busy = true) (phase : s.seq.phase = .xWrite)
      (answered : s.env.silent = false) (ran : exec (c.frame target) s = .next t) : Steps s t

/-- With BUSY = 0 a step is the host's. -/
theorem steps_of_idle {s t : State} (hb : s.status.busy = false) (h : step s = .next t) : Steps s t := by
  cases hh : s.env.host with
  | nil =>
    rw [step_waits hb hh] at h
    cases h
    exact .waits hb
  | cons hostStep rest =>
    cases hostStep with
    | act a =>
      rw [step_acts hb hh] at h
      exact .acts a rest t hh h
    | request r =>
      cases hd : decodeReq r with
      | ok i =>
        rw [step_request hb hh hd] at h
        exact .request r rest i t hb hd h
      | error e =>
        rw [step_illegal hb hh hd] at h
        exact .illegal r rest t hb h

/-- With BUSY = 1 a step sends a frame, or is an action of the host beside a call in flight. -/
theorem steps_of_busy {s t : State} (hb : s.status.busy = true) (h : step s = .next t) : Steps s t := by
  by_cases hp : s.seq.phase = .xWrite ∧ s.env.silent = false
  · have hf := fetch_frame hb hp
    rcases fetchFrame_cases s with ⟨c, target, hc⟩ | hc | hc <;> rw [hc] at hf
    · rw [step_run hf] at h
      exact .frame c target t hb hp.1 hp.2 h
    · rw [step_done hf] at h
      cases h
    · rw [step_done hf] at h
      cases h
  · rw [step_alone hb hp] at h
    by_cases hh : ∃ a rest, s.env.host = .act a :: rest
    · obtain ⟨a, rest, hh⟩ := hh
      rw [hostAlone_act hh] at h
      exact .acts a rest t hh h
    · rw [hostAlone_stuck fun a rest ha => hh ⟨a, rest, ha⟩] at h
      cases h

/-- Every step that answers a next state is of one of these kinds. -/
theorem steps_of_step {s t : State} (h : step s = .next t) : Steps s t := by
  cases hb : s.status.busy with
  | false => exact steps_of_idle hb h
  | true => exact steps_of_busy hb h

/-- What the host does besides writing REQ: a read is recorded, TERM is written, or the observer moves. -/
theorem hostAct_cases {a : HostAction} {s t : State} (h : hostAct a s = .next t) :
    (∃ r v, t = s.log (.hostRead r v)) ∨ (∃ v, t = s.setTerm v) ∨ ∃ m, t = observerMove m s := by
  cases a with
  | read r =>
    rw [hostAct] at h
    split at h <;> cases h
    exact .inl ⟨r, _, rfl⟩
  | writeTerm v =>
    cases h
    exact .inr (.inl ⟨v, rfl⟩)
  | observer m =>
    cases h
    exact .inr (.inr ⟨m, rfl⟩)

end Sys2Proof.Machine
end

section
/-! The invariant: every kind of step keeps it, and it holds after reset. -/

namespace Sys2Proof.Machine

/-! ### The host's own steps -/

/-- A change of nothing that the invariant speaks of but the observer, whose promise it keeps. -/
theorem State.Inv.of_same {s t : State} (h : s.Inv) (same : SameRegs s t) (seq : t.seq = s.seq)
    (tx : t.txbuf = s.txbuf) (rx : t.rxbuf = s.rxbuf) (silent : t.env.silent = s.env.silent)
    (asked : (s.env.observer ≠ .resting → s.shutdown = true) → t.env.observer ≠ .resting → t.shutdown = true) :
    t.Inv where
  tx := tx ▸ h.tx
  rx := rx ▸ h.rx
  attempt := same.poll ▸ h.attempt
  term := by rw [same.term, same.params]; exact h.term
  ready := by rw [same.status, same.results]; exact h.ready
  idle := by rw [same.status, seq, same.measuring, silent]; exact h.idle
  running := by rw [same.status, seq, same.err, same.errInfo, silent]; exact h.running
  measuring := by rw [same.measuring, seq]; exact h.measuring
  rvalid := by rw [same.status, same.err]; exact h.rvalid
  observer := asked h.observer

theorem State.Inv.log {s : State} (h : s.Inv) (e : Event) : (s.log e).Inv :=
  h.of_same (sameRegs_log s e) rfl rfl rfl rfl id

theorem State.Inv.observerMove {s : State} (h : s.Inv) (m : ObserverMove) : (observerMove m s).Inv := by
  have moved := observerMove_only m s
  exact h.of_same moved.same moved.seq moved.txbuf moved.rxbuf moved.silent moved.asked

theorem State.Inv.setTerm {s : State} (h : s.Inv) (v : Nat) : (s.setTerm v).Inv :=
  ⟨h.tx, h.rx, h.attempt, Nat.mod_lt _ (Nat.two_pow_pos _), h.ready, h.idle, h.running, h.measuring, h.rvalid,
    h.observer⟩

theorem State.Inv.setHost {s : State} (h : s.Inv) (rest : List HostStep) : (s.setHost rest).Inv :=
  ⟨h.tx, h.rx, h.attempt, h.term, h.ready, h.idle, h.running, h.measuring, h.rvalid, h.observer⟩

theorem hostAct_keeps_inv {a : HostAction} {s t : State} (h : s.Inv) (ha : hostAct a s = .next t) : t.Inv := by
  rcases hostAct_cases ha with ⟨r, v, rfl⟩ | ⟨v, rfl⟩ | ⟨m, rfl⟩
  · exact h.log _
  · exact h.setTerm v
  · exact h.observerMove m

/-! ### Runs of instructions -/

/-- Where an instruction's lines start: with BUSY = 1 and no call in flight, and with the invariant but for PHASE, which
the lines' first transaction sets to X_WRITE. -/
structure Running (s : State) : Prop where
  inv : (s.setPhase .xWrite).Inv
  busy : s.status.busy = true
  answered : s.env.silent = false

/-- The acceptance of a request word (10_state.md R32). -/
theorem running_accept {s : State} (h : s.Inv) (hb : s.status.busy = false) (r : BitVec 32) :
    Running (accept r s) := by
  obtain ⟨_, off, answered⟩ := h.idle hb
  have noMeasuring : s.measuring = true → some (reqOp r) = some 0xB#4 := fun on => by
    rw [off] at on
    cases on
  exact ⟨⟨h.tx, h.rx, h.attempt, h.term, h.ready, nofun, fun _ => ⟨nofun, rfl, rfl, rfl, rfl, .inr rfl⟩,
    noMeasuring, nofun, h.observer⟩, rfl, answered⟩

theorem running_frame {s : State} (h : s.Inv) (hb : s.status.busy = true) (hp : s.seq.phase = .xWrite)
    (hs : s.env.silent = false) : Running s := by
  have same : s.setPhase .xWrite = s := by rw [State.setPhase, ← hp]
  exact ⟨same.symm ▸ h, hb, hs⟩

/-- The writes of a CRC request before its end, and those of S_ENTRY under a session's own opcode. -/
theorem running_entryOf {s : State} {i : Instr} (h : Running s) (hop : requestOp i = s.seq.curOp) :
    Running (entryOf s i) := by
  obtain ⟨inv, hb, hs⟩ := h
  have setAcc (a : Byte) : Running (s.setAcc a) :=
    ⟨⟨inv.tx, inv.rx, inv.attempt, inv.term, inv.ready, inv.idle, inv.running, inv.measuring, inv.rvalid,
      inv.observer⟩, hb, hs⟩
  cases i with
  | crcInit => exact setAcc crcSeed
  | crcFeed b => exact setAcc (crcStep s.acc b)
  | session onlyLast =>
    exact ⟨⟨inv.tx, inv.rx, inv.attempt, inv.term, inv.ready, fun off => Bool.noConfusion (hb.symm.trans off),
      inv.running, fun _ => hop.symm, inv.rvalid, inv.observer⟩, hb, hs⟩
  | _ => exact ⟨inv, hb, hs⟩

/-- A run ends with the invariant, if MEASURING is 0 where the request is over. -/
theorem Ran.inv {s t : State} (h : Ran s t) (hs : Running s) (hm : Ended t → t.measuring = false) : t.Inv := by
  obtain ⟨inv, busy, answered⟩ := hs
  obtain ⟨op, notDone, notValid, noErr, noInfo, _⟩ := inv.running busy
  have term : t.term < 2 ^ t.params.clockW := by rw [h.term, h.params]; exact inv.term
  rcases h.ends with ⟨⟨silent, busy', curOp, _⟩, meas, done', rvalid', err', info'⟩ | ⟨ended, silent, valid⟩
  · refine ⟨h.txForm inv.tx, h.rxForm inv.rx, h.attempt inv.attempt, term, h.ready inv.ready, ?_, ?_, ?_, ?_,
      h.asked inv.observer⟩
    · exact fun off => Bool.noConfusion (off.symm.trans (busy'.trans busy))
    · exact fun _ => ⟨curOp ▸ op, done'.trans notDone, rvalid'.trans notValid, err'.trans noErr, info'.trans noInfo,
        .inl silent⟩
    · exact fun on => curOp.trans (inv.measuring (meas.symm.trans on))
    · exact fun on => Bool.noConfusion (notValid.symm.trans (rvalid'.symm.trans on))
  · have off := hm ended
    obtain ⟨idle, done', seq⟩ := ended
    refine ⟨h.txForm inv.tx, h.rxForm inv.rx, h.attempt inv.attempt, term, h.ready inv.ready, ?_, ?_, ?_, ?_,
      h.asked inv.observer⟩
    · exact fun _ => ⟨seq, off, silent.trans answered⟩
    · exact fun on => Bool.noConfusion (idle.symm.trans on)
    · exact fun on => Bool.noConfusion (off.symm.trans on)
    · exact fun on => ⟨done', congrArg ErrReg.kind ((valid on).trans noErr)⟩

theorem Ran.measuring_off {s t : State} (h : Ran s t) (hs : s.measuring = false) : t.measuring = false :=
  Bool.eq_false_iff.2 fun on => Bool.noConfusion (hs.symm.trans (h.measuring on))

/-- A word that is no request (30_encoding.md R66). -/
theorem illegal_ran {e : Err} {s t : State} (h : finish (raise e s) = .next t) : Ran s t := by
  cases h
  exact (requestEnd_raiseTop (s := s) (u := s.log (.raise e)) e rfl).ran (kept_raise (n := 0) (m := 0) s e) id

/-- The run of a request, from its acceptance. -/
theorem request_keeps_inv {r : BitVec 32} {i : Instr} {s t : State} (h : s.Inv) (hb : s.status.busy = false)
    (hd : decodeReq r = .ok i) (hx : exec i (accept r s) = .next t) : t.Inv := by
  have op := decodeReq_op hd
  have ran := exec_ran (wellFormed_of_requestOp op) hx
  have running := running_entryOf (running_accept h hb r) op
  obtain ⟨_, off, _⟩ := h.idle hb
  refine ran.inv running fun ended => ?_
  cases i with
  | session onlyLast => exact (execSession_left hx).measuring_of_ended running.busy ended
  | _ => exact ran.measuring_off off

/-- The run of a frame, in a session or in another request. -/
theorem frame_keeps_inv {c : Command} {target : Word} {s t : State} (h : s.Inv) (hb : s.status.busy = true)
    (hp : s.seq.phase = .xWrite) (hs : s.env.silent = false) (hx : exec (c.frame target) s = .next t) : t.Inv := by
  have ran := exec_frame_ran hx
  have running := running_frame h hb hp hs
  by_cases hop : s.seq.curOp = some 0xB#4
  · exact ran.inv running ((exec_frame_session hop hx).measuring_of_ended hb)
  · exact ran.inv running fun _ => ran.measuring_off (Bool.eq_false_iff.2 fun on => hop (h.measuring on))

/-- Settles O53, by the kinds of step: the host's own, an illegal word, a request, and a frame. -/
theorem stepKeepsTheInvariant : Obligations.StepKeepsTheInvariant := by
  unfold Obligations.StepKeepsTheInvariant
  intro s t h hstep
  cases steps_of_step hstep with
  | waits => exact h
  | acts a rest _ _ act => exact hostAct_keeps_inv (h.setHost rest) act
  | illegal r rest _ idle ran =>
    have run := illegal_ran ran
    obtain ⟨_, off, _⟩ := h.idle idle
    exact run.inv (running_accept (h.setHost rest) idle r) fun _ => run.measuring_off off
  | request r rest i _ idle decodes ran => exact request_keeps_inv (h.setHost rest) idle decodes ran
  | frame c target _ busy phase answered ran => exact frame_keeps_inv h busy phase answered ran

/-- Settles O52: after reset the buffers are empty, TERM is 0 and the block is idle. -/
theorem resetMeetsTheInvariant : Obligations.ResetMeetsTheInvariant := by
  unfold Obligations.ResetMeetsTheInvariant
  obtain ⟨tx, rx⟩ := reset_buffers_wf
  exact ⟨⟨tx, rfl⟩, ⟨rx, rfl⟩, Nat.zero_le _, Nat.two_pow_pos _, rfl, fun _ => ⟨rfl, rfl, rfl⟩, nofun, nofun, nofun,
    fun moved => absurd rfl moved⟩

end Sys2Proof.Machine
end

section
/-! What no step does: it writes no parameter (10_state.md R36) and does not clear SHUTDOWN (R29, R30). -/

namespace Sys2Proof.Machine

/-- What an action of the host leaves of the parameters and of SHUTDOWN. -/
theorem hostAct_keeps {a : HostAction} {s t : State} (h : hostAct a s = .next t) :
    t.params = s.params ∧ (s.shutdown = true → t.shutdown = true) := by
  rcases hostAct_cases h with ⟨r, v, rfl⟩ | ⟨v, rfl⟩ | ⟨m, rfl⟩
  · exact ⟨rfl, id⟩
  · exact ⟨rfl, id⟩
  · exact ⟨(observerMove_only m s).same.params, (observerMove_only m s).same.shutdown⟩

/-- What an instruction's run leaves of the parameters and of SHUTDOWN. -/
theorem exec_keeps {i : Instr} {s t : State} (hi : i.wellFormed = true) (h : exec i s = .next t) :
    t.params = s.params ∧ (s.shutdown = true → t.shutdown = true) := by
  have ran := exec_ran hi h
  obtain ⟨params, shutdown, _⟩ := entryOf_shared s i
  exact ⟨ran.params.trans params, fun hd => ran.shutdown (shutdown.trans hd)⟩

/-- What every step leaves of the parameters and of SHUTDOWN. -/
theorem step_keeps {s t : State} (h : step s = .next t) :
    t.params = s.params ∧ (s.shutdown = true → t.shutdown = true) := by
  cases steps_of_step h with
  | waits => exact ⟨rfl, id⟩
  | acts a rest _ _ act => exact hostAct_keeps (s := s.setHost rest) act
  | illegal r rest _ _ ran => exact ⟨(illegal_ran ran).params, (illegal_ran ran).shutdown⟩
  | request r rest i _ _ decodes ran =>
    exact exec_keeps (s := accept r (s.setHost rest)) (wellFormed_of_requestOp (decodeReq_op decodes)) ran
  | frame c target _ _ _ _ ran => exact ⟨(exec_frame_ran ran).params, (exec_frame_ran ran).shutdown⟩

/-- Settles O54, by the kinds of step. -/
theorem parametersAreNeverWritten : Obligations.ParametersAreNeverWritten := by
  unfold Obligations.ParametersAreNeverWritten
  exact fun s t h => (step_keeps h).1

/-- Settles O55, by the kinds of step: only the observer writes SHUTDOWN, and it writes 1. -/
theorem shutdownIsNeverCleared : Obligations.ShutdownIsNeverCleared := by
  unfold Obligations.ShutdownIsNeverCleared
  exact fun s t hd h => (step_keeps h).2 hd

end Sys2Proof.Machine
end

section
/-! Which instruction a step runs, and in which state (10_state.md R32, 30_encoding.md R69). -/

namespace Sys2Proof.Machine

/-- Settles O6: with BUSY = 0 the step is the host's next one, here the acceptance of a request. -/
theorem stepRunsTheRequest : Obligations.StepRunsTheRequest := by
  unfold Obligations.StepRunsTheRequest
  intro s r rest i hb hh hd
  rw [step_request hb hh hd, State.setHost]

/-- Settles O8: a placed request word is the host's next step, and a placed frame is what the fetch reads in TXBUF. -/
theorem placedCodeRunsNext : Obligations.PlacedCodeRunsNext := by
  unfold Obligations.PlacedCodeRunsNext
  constructor
  · intro s r i hd
    exact step_request rfl rfl hd
  · intro s bytes i hd
    obtain ⟨c, target, rfl, rfl⟩ := decodeFrame_ok hd
    have placed : fetch (placeCode (.frame (wireFrame c target)) s) = _ := fetch_frame rfl ⟨rfl, rfl⟩
    exact step_run (placed.trans (fetchFrame_wireFrame rfl))

/-- Settles O9: acceptance by its record of writes, and with BUSY = 1 by the kinds of step, of which a frame's alone goes
beside a waiting write of REQ. -/
theorem acceptanceAndBusy : Obligations.AcceptanceAndBusy := by
  unfold Obligations.AcceptanceAndBusy
  refine ⟨fun _ _ => rfl, ?stuck, ?waits⟩
  case stuck =>
    intro s r rest hb hs hh
    rw [step_alone hb fun hp => Bool.noConfusion (hs.symm.trans hp.2)]
    exact hostAlone_stuck fun a rest' ha => by rw [hh] at ha; cases ha
  case waits =>
    intro s t r rest hb hh hstep
    cases steps_of_step hstep with
    | waits idle => rw [hb] at idle; cases idle
    | acts a rest' _ host => rw [hh] at host; cases host
    | illegal _ _ _ idle => rw [hb] at idle; cases idle
    | request _ _ _ _ idle => rw [hb] at idle; cases idle
    | frame c target _ _ _ _ ran =>
      have ran := exec_frame_ran ran
      exact ⟨ran.host.trans hh, ran.req⟩

end Sys2Proof.Machine
end

section
/-! The registers as the host sees them (10_state.md R22 to R34): the packed words STATUS and ERR, reads, writes of TERM,
and the values after reset. -/

namespace Sys2Proof.Machine

/-! ### The packed words -/

/-- Bits 0 to 7 of STATUS, each a flag appended to the ones above it. -/
theorem statusWord_flags (s : State) :
    s.statusWord.getLsbD 0 = s.status.busy ∧ s.statusWord.getLsbD 1 = s.status.done ∧
    s.statusWord.getLsbD 2 = s.errf ∧ s.statusWord.getLsbD 3 = s.status.rvalid ∧
    s.statusWord.getLsbD 4 = s.measuring ∧ s.statusWord.getLsbD 5 = s.shutdown ∧
    s.statusWord.getLsbD 6 = s.status.ready ∧ s.statusWord.getLsbD 7 = s.status.passed := by
  simp only [State.statusWord, BitVec.append_ofBool, BitVec.getLsbD_concat]
  exact ⟨rfl, rfl, rfl, rfl, rfl, rfl, rfl, rfl⟩

/-- Bits 8 to 15 of STATUS: the fields above the flags. -/
theorem statusWord_fields (s : State) :
    s.statusWord.extractLsb' 8 2 = s.poll.pstate.code ∧ s.statusWord.extractLsb' 10 4 = s.poll.attempt ∧
    s.statusWord.extractLsb' 14 2 = 0#2 := by
  simp (disch := decide) only [State.statusWord, BitVec.extractLsb'_append_eq_of_le,
    BitVec.extractLsb'_append_eq_of_add_le, BitVec.extractLsb'_eq_self, Nat.reduceSub, and_self]

/-- The fields of ERR. -/
theorem packed_fields (e : ErrReg) :
    e.packed.extractLsb' 0 3 = e.kind.code ∧ e.packed.extractLsb' 3 1 = 0#1 ∧ e.packed.extractLsb' 4 4 = e.op ∧
    e.packed.extractLsb' 8 4 = e.ctx ∧ e.packed.extractLsb' 12 2 = e.group ∧ e.packed.extractLsb' 14 2 = 0#2 ∧
    e.packed.extractLsb' 16 3 = e.kind2.code ∧ e.packed.extractLsb' 19 13 = 0#13 := by
  simp (disch := decide) only [ErrReg.packed, BitVec.extractLsb'_append_eq_of_le,
    BitVec.extractLsb'_append_eq_of_add_le, BitVec.extractLsb'_eq_self, Nat.reduceSub, and_self]

/-- Codes 6 and 7 are no kind's (60_exceptions.md R150). -/
theorem code_lt (k : ErrKind) : k.code.toNat < 6 := by
  cases k <;> decide

/-- Settles O47: the flags, and the fields above them with R120's codes. -/
theorem statusPacking : Obligations.StatusPacking := by
  unfold Obligations.StatusPacking
  intro s
  obtain ⟨busy, done, errf, rvalid, measuring, shutdown, ready, passed⟩ := statusWord_flags s
  obtain ⟨pstate, attempt, reserved⟩ := statusWord_fields s
  refine ⟨busy, done, errf, rvalid, measuring, shutdown, ready, passed, pstate.trans ?_, attempt, reserved⟩
  cases s.poll.pstate <;> rfl

/-- Settles O48: the fields, with R150's codes. -/
theorem errPacking : Obligations.ErrPacking := by
  unfold Obligations.ErrPacking
  intro e
  obtain ⟨kind, bit3, op, ctx, group, bits14, kind2, high⟩ := packed_fields e
  refine ⟨kind.trans ?_, bit3, op, ctx, group, bits14, kind2, high, kind2 ▸ code_lt e.kind2⟩
  cases e.kind <;> rfl

/-! ### Reads -/

/-- With BUSY = 1 a result register has no value (70_reset_and_hazards.md R185). -/
theorem resultRead_busy {s : State} (h : s.status.busy = true) (written : Bool) (v : Nat) :
    resultRead s written v = .error .readWhileBusy := if_pos h

/-- With BUSY = 0 a result register has a value once it is written (10_state.md R34). -/
theorem resultRead_idle {s : State} (h : s.status.busy = false) (written : Bool) (v : Nat) :
    resultRead s written v = if written then .ok v else .error .unwrittenRead :=
  if_neg (Bool.eq_false_iff.1 h)

theorem hostAct_read_ok {s : State} {r : HostReg} {v : Nat} (h : hostRead s r = .ok v) :
    hostAct (.read r) s = .next (s.log (.hostRead r v)) := by
  simp only [hostAct, h]

theorem hostAct_read_error {s : State} {r : HostReg} {f : Fault} (h : hostRead s r = .error f) :
    hostAct (.read r) s = .fault f := by
  simp only [hostAct, h]

/-- A read of a result register with BUSY = 0. -/
theorem hostAct_read_result {s : State} {r : HostReg} {written : Bool} {v : Nat} (hb : s.status.busy = false)
    (h : hostRead s r = resultRead s written v) :
    hostAct (.read r) s = if written then .next (s.log (.hostRead r v)) else .fault .unwrittenRead := by
  rw [resultRead_idle hb] at h
  cases written with
  | true => exact hostAct_read_ok h
  | false => exact hostAct_read_error h

/-- Settles O49, register by register: ERR, ERR_INFO and ACC are result registers that are always written. -/
theorem hostReads : Obligations.HostReads := by
  unfold Obligations.HostReads
  refine fun s => ⟨fun r hr hb => hostAct_read_error ?busy, fun hb => ?idle, hostAct_read_ok rfl, hostAct_read_ok rfl,
    hostAct_read_error rfl⟩
  case busy =>
    have faults (written : Bool) (v : Nat) := resultRead_busy hb written v
    revert r
    simp only [List.forall_mem_cons]
    exact ⟨faults _ _, faults _ _, faults _ _, faults _ _, faults _ _, faults _ _, faults _ _, faults _ _, faults _ _,
      faults _ _, nofun⟩
  case idle =>
    have result {r : HostReg} {written : Bool} {v : Nat} := hostAct_read_result (r := r) (written := written) (v := v) hb
    have value {r : HostReg} {v : Nat} (h : hostRead s r = resultRead s true v) :=
      hostAct_read_ok (h.trans (resultRead_idle hb true v))
    simp only [List.forall_mem_cons]
    exact ⟨value rfl, value rfl, value rfl, result rfl, result rfl, result rfl, result rfl, result rfl, result rfl,
      result rfl, nofun⟩

/-! ### The host's actions, and reset -/

/-- An action of the host is the step, with BUSY = 0 and beside a call in flight. -/
theorem step_hostAct {s : State} {a : HostAction} {rest : List HostStep}
    (h : s.status.busy = false ∨ (s.status.busy = true ∧ s.env.silent = true)) (hh : s.env.host = .act a :: rest) :
    step s = hostAct a (s.setHost rest) := by
  rcases h with idle | ⟨busy, silent⟩
  · exact step_acts idle hh
  · rw [step_alone busy fun hp => Bool.noConfusion (silent.symm.trans hp.2)]
    exact hostAlone_act hh

/-- Settles O50: the host's action is the step, and a write of TERM keeps the value modulo 2 to the CLOCK_W. -/
theorem hostWritesTerm : Obligations.HostWritesTerm := by
  unfold Obligations.HostWritesTerm
  refine ⟨fun s a rest h hh => step_hostAct h hh, fun _ _ => rfl, fun _ _ => rfl, ?_⟩
  intro s v rest hb hh
  refine ⟨(s.setHost rest).setTerm v, step_hostAct (.inl hb) hh, fun hv => Nat.mod_eq_of_lt hv, ?_, rfl⟩
  exact Nat.mod_lt _ (Nat.two_pow_pos _)

/-- Settles O51, by the reset state's record (R33). -/
theorem resetValues : Obligations.ResetValues := by
  unfold Obligations.ResetValues
  refine ⟨rfl, rfl, rfl, rfl, rfl, rfl, rfl, rfl, rfl, rfl, rfl, rfl, fun _ => rfl, fun _ => rfl, rfl, ?unwritten⟩
  case unwritten =>
    simp only [List.forall_mem_cons]
    exact ⟨rfl, rfl, rfl, rfl, rfl, rfl, rfl, nofun⟩

end Sys2Proof.Machine
end

section
/-! The port's laws (20_memory.md R40, 30_encoding.md R67): whatever runs keeps them of the events. -/

namespace Sys2Proof.Machine

/-! ### The requests -/

/-- The twelve requests, of which eight each run one command (30_encoding.md R63). -/
inductive IsRequest : Instr → Prop where
  | crcInit : IsRequest .crcInit
  | crcFeed (b : Byte) : IsRequest (.crcFeed b)
  | command (c : Command) (target : Word) : IsRequest (c.request target)
  | pollReady : IsRequest .pollReady
  | session (onlyLast : Bool) : IsRequest (.session onlyLast)

/-- An instruction with a request's opcode is one of the twelve. -/
theorem isRequest_of_requestOp {i : Instr} {op : BitVec 4} (h : requestOp i = some op) : IsRequest i := by
  cases i with
  | crcInit => exact .crcInit
  | crcFeed b => exact .crcFeed b
  | getVariant => exact .command .getVariant 0
  | selfTest => exact .command .selfTest 0
  | getDrdy => exact .command .getDrdy 0
  | readMeas => exact .command .readMeas 0
  | measSingle => exact .command .measSingle 0
  | startPeriodic => exact .command .startPeriodic 0
  | stopPeriodic => exact .command .stopPeriodic 0
  | frc target => exact .command .frc target
  | pollReady => exact .pollReady
  | session onlyLast => exact .session onlyLast
  | _ => cases h

/-! ### The port's laws -/

/-- From `s` to `t` the events keep the port's laws, if they did before. -/
def LawsKept (s t : State) : Prop := s.trace.all Event.lawful = true → t.trace.all Event.lawful = true

/-- One more event that keeps the laws. -/
theorem lawsKept_log {s : State} {e : Event} (he : e.lawful = true) : LawsKept s (s.log e) := fun h => by
  rw [log_trace, List.all_cons, he, h, Bool.and_self]

/-- The observer calls no transport. -/
theorem ObserverOnly.lawsKept {s t : State} (h : ObserverOnly s t) : LawsKept s t := fun hs => by
  obtain ⟨evs, trace, seen⟩ := h.events
  have lawful : ∀ e ∈ evs, e.lawful = true := fun e he => by
    rcases seen e he with rfl | ⟨_, rfl⟩ <;> rfl
  rw [trace, List.all_append, List.all_eq_true.2 lawful, hs, Bool.and_self]

/-- The end of a request is no event. -/
theorem RequestEnd.lawsKept {n m : Nat} {s u t : State} (k : RequestEnd s u t) (h : Kept n m s u) : LawsKept s t := by
  rw [LawsKept, k.trace]
  exact h.lawful

theorem runCommand_lawsKept {c : Command} {target : Word} {s t : State} (h : runCommand c target s = .next t) :
    LawsKept s t := by
  obtain ⟨u, left, ends⟩ := runCommand_left h
  exact ends.lawsKept left.toKept

/-- The end of a poll in POLL_READY, from its entry or from a frame on. -/
theorem pollEnd_lawsKept {s t : State} {r : Res Unit} (hr : EndsIn s (PollLeft s) r) (h : finishResult r = .next t) :
    LawsKept s t := by
  obtain ⟨u, t', h', left, ends⟩ := finishResult_end hr
  rw [h'] at h
  cases h
  exact ends.lawsKept left.toKept

theorem request_lawsKept {i : Instr} {s t : State} (hi : IsRequest i) (h : exec i s = .next t) : LawsKept s t := by
  cases hi with
  | crcInit => cases h; exact id
  | crcFeed b => cases h; exact id
  | command c target => exact runCommand_lawsKept ((exec_request c target s).symm.trans h)
  | pollReady => exact pollEnd_lawsKept (pollLines_endsIn s) h
  | session onlyLast => exact (execSession_left h).lawful

/-- Whatever request a frame resumes. -/
theorem frame_lawsKept {c : Command} {target : Word} {s t : State} (h : exec (c.frame target) s = .next t) :
    LawsKept s t := by
  by_cases hop : s.seq.curOp = some 0xB#4
  · exact (exec_frame_session hop h).lawful
  · rw [exec_frame] at h
    split at h
    · exact runCommand_lawsKept h
    · exact pollEnd_lawsKept (pollFrom_endsIn attempt_add_attemptsLeft) (resumed_poll hop h)

theorem hostAct_lawsKept {a : HostAction} {s t : State} (h : hostAct a s = .next t) : LawsKept s t := by
  rcases hostAct_cases h with ⟨r, v, rfl⟩ | ⟨v, rfl⟩ | ⟨m, rfl⟩
  · exact lawsKept_log rfl
  · exact id
  · exact (observerMove_only m s).lawsKept

/-- Settles O56, by the kinds of step: the host's own, an illegal word, a request, and a frame. -/
theorem portIsLawful : Obligations.PortIsLawful := by
  unfold Obligations.PortIsLawful
  intro s t hs hstep
  cases steps_of_step hstep with
  | waits => exact hs
  | acts a rest _ _ act => exact hostAct_lawsKept (s := s.setHost rest) act hs
  | illegal r rest _ _ ran => cases ran; exact lawsKept_log rfl hs
  | request r rest i _ _ decodes ran =>
    exact request_lawsKept (isRequest_of_requestOp (decodeReq_op decodes)) ran hs
  | frame c target _ _ _ _ ran => exact frame_lawsKept ran hs

end Sys2Proof.Machine
end

section
/-! The frame that a step reads in TXBUF (20_memory.md R41, 30_encoding.md R69), and the steps with nothing to run: beside
a call in flight (20_memory.md R40 law c), and in the idle block (70_reset_and_hazards.md R170). -/

namespace Sys2Proof.Machine

/-- Settles O7: at X_WRITE the fetch takes the frame off the head of TXBUF's five cells. -/
theorem stepRunsTheFrame : Obligations.StepRunsTheFrame := by
  unfold Obligations.StepRunsTheFrame
  intro s i rest hb hs hp htake
  have frame : fetchFrame s = .run i s := by rw [fetchFrame, txLen, htake]
  exact step_run ((fetch_frame hb ⟨hp, hs⟩).trans frame)

/-- Settles O11: beside a call in flight only the host can go on, and with BUSY = 0 the block waits for it. -/
theorem silentTransportIsStuck : Obligations.SilentTransportIsStuck := by
  unfold Obligations.SilentTransportIsStuck
  refine ⟨fun s hb hs hh => ?stuck, fun s => step_waits⟩
  case stuck =>
    rw [step_alone hb fun hp => Bool.noConfusion (hs.symm.trans hp.2)]
    exact hostAlone_stuck fun a rest ha => by rw [hh] at ha; cases ha

end Sys2Proof.Machine
end

section
/-! Request words (30_encoding.md R62 to R66): the must-be-0 bits as masks and as fields, and the decoder of request
words as one check of them for each OP. -/

namespace Sys2Proof.Machine

/-! ### The must-be-0 bits -/

/-- The mask of one field of a request word. -/
def fieldMask (start len : Nat) : BitVec 32 := (BitVec.allOnes len).setWidth 32 <<< start

theorem getLsbD_fieldMask {start len i : Nat} (hi : i < 32) :
    (fieldMask start len).getLsbD i = decide (start ≤ i ∧ i < start + len) := by
  rw [fieldMask, BitVec.getLsbD_shiftLeft, BitVec.getLsbD_setWidth, BitVec.getLsbD_allOnes]
  grind

/-- A word is 0 under the mask of a field just when the field is 0. -/
theorem and_fieldMask_eq_zero {start len : Nat} (hb : start + len ≤ 32) (r : BitVec 32) :
    r &&& fieldMask start len = 0 ↔ r.extractLsb' start len = 0 := by
  constructor
  · intro h
    apply BitVec.eq_of_getLsbD_eq
    intro i hi
    have bit := congrArg (fun v => BitVec.getLsbD v (start + i)) h
    rw [BitVec.getLsbD_extractLsb']
    simpa [getLsbD_fieldMask (show start + i < 32 by omega), hi] using bit
  · intro h
    apply BitVec.eq_of_getLsbD_eq
    intro i hi
    have bit := congrArg (fun v => BitVec.getLsbD v (i - start)) h
    rw [BitVec.getLsbD_and, getLsbD_fieldMask hi]
    by_cases hf : start ≤ i ∧ i < start + len
    · have inside : i - start < len := by omega
      simpa [BitVec.getLsbD_extractLsb', inside, hf, Nat.add_sub_of_le hf.1] using bit
    · simp [hf]

/-- A word is 0 under two masks just when it is 0 under each. -/
theorem and_or_eq_zero (r m n : BitVec 32) : r &&& (m ||| n) = 0 ↔ r &&& m = 0 ∧ r &&& n = 0 := by
  rw [BitVec.and_or_distrib_left]
  exact BitVec.or_eq_zero_iff

/-- OL is the one bit of its field. -/
theorem reqOL_field (r : BitVec 32) : r.extractLsb' 4 1 = BitVec.ofBool (reqOL r) := by
  apply BitVec.eq_of_getLsbD_eq
  intro i hi
  obtain rfl : i = 0 := by omega
  simp [reqOL]

theorem and_mask_reqOL (r : BitVec 32) : r &&& 0x00000010#32 = 0 ↔ reqOL r = false := by
  rw [show 0x00000010#32 = fieldMask 4 1 by decide, and_fieldMask_eq_zero (by decide), reqOL_field]
  cases reqOL r <;> decide

theorem and_mask_reqUnused (r : BitVec 32) : r &&& 0x0000FFE0#32 = 0 ↔ reqUnused r = 0 := by
  rw [show 0x0000FFE0#32 = fieldMask 5 11 by decide, and_fieldMask_eq_zero (by decide), reqUnused]

theorem and_mask_reqArg (r : BitVec 32) : r &&& 0xFFFF0000#32 = 0 ↔ reqArg r = 0 := by
  rw [show 0xFFFF0000#32 = fieldMask 16 16 by decide, and_fieldMask_eq_zero (by decide), reqArg]

theorem and_mask_reqArgHi (r : BitVec 32) : r &&& 0xFF000000#32 = 0 ↔ reqArgHi r = 0 := by
  rw [show 0xFF000000#32 = fieldMask 24 8 by decide, and_fieldMask_eq_zero (by decide), reqArgHi]

/-! ### A word from its fields -/

/-- A request word is its fields (R62). -/
theorem fields_append (r : BitVec 32) : reqArg r ++ (reqUnused r ++ BitVec.ofBool (reqOL r) ++ reqOp r) = r := by
  have upper : reqUnused r ++ BitVec.ofBool (reqOL r) = r.extractLsb' 4 12 := by
    rw [← reqOL_field, reqUnused]
    exact BitVec.extractLsb'_append_extractLsb'_eq_extractLsb' rfl
  have low : reqUnused r ++ BitVec.ofBool (reqOL r) ++ reqOp r = r.extractLsb' 0 16 := by
    rw [upper, reqOp]
    exact BitVec.extractLsb'_append_extractLsb'_eq_extractLsb' rfl
  rw [low, reqArg]
  exact BitVec.extractLsb'_append_extractLsb'

/-- ARG is its two bytes. -/
theorem argBytes_append (r : BitVec 32) : reqArgHi r ++ reqByte r = reqArg r :=
  BitVec.extractLsb'_append_extractLsb'_eq_extractLsb' rfl

/-- A word with no operand has 0 in every field but OP. -/
theorem reqWord_fields : ∀ op : BitVec 4, 0#16 ++ (0#11 ++ BitVec.ofBool false ++ op) = reqWord op := by
  decide

/-! ### The decoder of request words -/

/-- The illegal words of a legal OP (R66). -/
theorem illegalWord_of_op {r mask : BitVec 32} {op : BitVec 4} (hop : reqOp r = op) (legal : op.toNat < 0xC)
    (hm : mustBeZeroMask op.toNat = mask) : illegalWord r = false ↔ r &&& mask = 0 := by
  simp only [illegalWord, hop, hm, Bool.or_eq_false_iff, decide_eq_false_iff_not, Nat.not_le, legal, true_and, ne_eq,
    Decidable.not_not]

theorem illegalWord_of_reserved {r : BitVec 32} (reserved : 0xC ≤ (reqOp r).toNat) : illegalWord r = true := by
  rw [illegalWord, decide_eq_true reserved, Bool.true_or]

/-- What a check `ok` of must-be-0 bits says of a word whose OP is that of the instruction `i`: it refuses the illegal
words of R66, and a word that passes it is the encoding of `i`. -/
structure ChecksWord (r : BitVec 32) (ok : Bool) (i : Instr) : Prop where
  legal : ok = true ↔ illegalWord r = false
  encodes : ok = true → encode i = .req r

theorem checksWord_noOperands {r : BitVec 32} {op : BitVec 4} {i : Instr} (hop : reqOp r = op) (legal : op.toNat < 0xC)
    (mask : mustBeZeroMask op.toNat = 0x00000010#32 ||| 0x0000FFE0#32 ||| 0xFFFF0000#32)
    (hi : encode i = .req (reqWord op)) : ChecksWord r (noOperands r) i := by
  have zero : noOperands r = true ↔ (reqOL r = false ∧ reqUnused r = 0) ∧ reqArg r = 0 := by
    simp only [noOperands, Bool.and_eq_true, decide_eq_true_eq]
  constructor
  case legal =>
    rw [zero, illegalWord_of_op hop legal mask, and_or_eq_zero, and_or_eq_zero, and_mask_reqOL, and_mask_reqUnused,
      and_mask_reqArg]
  case encodes =>
    intro ok
    obtain ⟨⟨ol, unused⟩, arg⟩ := zero.1 ok
    have word := fields_append r
    rw [ol, unused, arg, hop] at word
    rw [hi, ← reqWord_fields]
    exact congrArg Code.req word

theorem checksWord_crcFeed {r : BitVec 32} (hop : reqOp r = 0x1#4) :
    ChecksWord r (reqOL r = false && reqUnused r = 0 && reqArgHi r = 0) (.crcFeed (reqByte r)) := by
  have mask : mustBeZeroMask (0x1#4).toNat = 0x00000010#32 ||| 0x0000FFE0#32 ||| 0xFF000000#32 := rfl
  have zero : (reqOL r = false && reqUnused r = 0 && reqArgHi r = 0) = true ↔
      (reqOL r = false ∧ reqUnused r = 0) ∧ reqArgHi r = 0 := by
    simp only [Bool.and_eq_true, decide_eq_true_eq]
  constructor
  case legal =>
    rw [zero, illegalWord_of_op hop (by decide) mask, and_or_eq_zero, and_or_eq_zero, and_mask_reqOL,
      and_mask_reqUnused, and_mask_reqArgHi]
  case encodes =>
    intro ok
    obtain ⟨⟨ol, unused⟩, high⟩ := zero.1 ok
    have word := fields_append r
    rw [ol, unused, ← argBytes_append, high, hop] at word
    exact congrArg Code.req word

theorem checksWord_frc {r : BitVec 32} (hop : reqOp r = 0x9#4) :
    ChecksWord r (reqOL r = false && reqUnused r = 0) (.frc (reqArg r)) := by
  have mask : mustBeZeroMask (0x9#4).toNat = 0x00000010#32 ||| 0x0000FFE0#32 := rfl
  have zero : (reqOL r = false && reqUnused r = 0) = true ↔ reqOL r = false ∧ reqUnused r = 0 := by
    simp only [Bool.and_eq_true, decide_eq_true_eq]
  constructor
  case legal =>
    rw [zero, illegalWord_of_op hop (by decide) mask, and_or_eq_zero, and_mask_reqOL, and_mask_reqUnused]
  case encodes =>
    intro ok
    obtain ⟨ol, unused⟩ := zero.1 ok
    have word := fields_append r
    rw [ol, unused, hop] at word
    exact congrArg Code.req word

theorem checksWord_session {r : BitVec 32} (hop : reqOp r = 0xB#4) :
    ChecksWord r (reqUnused r = 0 && reqArg r = 0) (.session (reqOL r)) := by
  have mask : mustBeZeroMask (0xB#4).toNat = 0x0000FFE0#32 ||| 0xFFFF0000#32 := rfl
  have zero : (reqUnused r = 0 && reqArg r = 0) = true ↔ reqUnused r = 0 ∧ reqArg r = 0 := by
    simp only [Bool.and_eq_true, decide_eq_true_eq]
  constructor
  case legal =>
    rw [zero, illegalWord_of_op hop (by decide) mask, and_or_eq_zero, and_mask_reqUnused, and_mask_reqArg]
  case encodes =>
    intro ok
    obtain ⟨unused, arg⟩ := zero.1 ok
    have word := fields_append r
    rw [unused, arg, hop] at word
    rw [← word]
    cases reqOL r <;> rfl

/-- All that the decoder of request words does: it rejects a reserved OP (R66), and for any other OP it has an
instruction and a check of the must-be-0 bits. -/
theorem decodeReq_cases (r : BitVec 32) :
    (0xC ≤ (reqOp r).toNat ∧ decodeReq r = .error .reservedOp) ∨
    ∃ ok i, decodeReq r = legalIf ok i ∧ ChecksWord r ok i := by
  have op {n : Nat} (h : (reqOp r).toNat = n) : reqOp r = BitVec.ofNat 4 n := by
    rw [← h, BitVec.ofNat_toNat, BitVec.setWidth_eq]
  unfold decodeReq
  split
  case h_2 h => exact .inr ⟨_, _, rfl, checksWord_crcFeed (op h)⟩
  case h_10 h => exact .inr ⟨_, _, rfl, checksWord_frc (op h)⟩
  case h_12 h => exact .inr ⟨_, _, rfl, checksWord_session (op h)⟩
  case h_13 => exact .inl ⟨by simp only [imp_false] at *; omega, rfl⟩
  case h_1 h | h_3 h | h_4 h | h_5 h | h_6 h | h_7 h | h_8 h | h_9 h | h_11 h =>
    exact .inr ⟨_, _, rfl, checksWord_noOperands (op h) (by decide) rfl rfl⟩

theorem legalIf_ok_iff {ok : Bool} {i j : Instr} : legalIf ok i = .ok j ↔ ok = true ∧ i = j := by
  cases ok <;> simp [legalIf]

theorem legalIf_error_iff {ok : Bool} {i : Instr} : (∃ e, legalIf ok i = .error e) ↔ ok = false := by
  cases ok <;> simp [legalIf]

/-- Settles O4, by the two things the decoder of request words does: R66's first case, and its check of the must-be-0
bits for the second. -/
theorem illegalWordsAreTheRejectedOnes : Obligations.IllegalWordsAreTheRejectedOnes := by
  unfold Obligations.IllegalWordsAreTheRejectedOnes
  intro r
  rcases decodeReq_cases r with ⟨reserved, hd⟩ | ⟨ok, i, hd, checks⟩
  · exact iff_of_true (illegalWord_of_reserved reserved) ⟨_, hd⟩
  · rw [hd, legalIf_error_iff, ← Bool.not_eq_true, checks.legal, Bool.not_eq_false]

/-- A request word that decodes is the encoding of its request. -/
theorem encode_of_decodeReq {r : BitVec 32} {i : Instr} (h : decodeReq r = .ok i) : encode i = .req r := by
  rcases decodeReq_cases r with ⟨_, hd⟩ | ⟨ok, j, hd, checks⟩
  · rw [hd] at h
    cases h
  · rw [hd, legalIf_ok_iff] at h
    obtain ⟨passes, rfl⟩ := h
    exact checks.encodes passes

end Sys2Proof.Machine
end

section
/-! Encoding and decoding of both levels (30_encoding.md R58 to R69) undo each other. -/

namespace Sys2Proof.Machine

/-! ### The request words with an operand -/

theorem decodeReq_feedWord (b : Byte) : decodeReq (0#8 ++ b ++ 0x0001#16) = .ok (.crcFeed b) := by
  have high : (be16 0#8 b).extractLsb' 8 8 = 0#8 := hiByte_be16 0#8 b
  have byte : (be16 0#8 b).extractLsb' 0 8 = b := loByte_be16 0#8 b
  rw [feedWord, decodeReq, reqOp_append, reqOL_append, reqUnused_append, reqArgHi_append, reqByte_append, high, byte]
  rfl

theorem decodeReq_frcWord (target : Word) : decodeReq (target ++ 0x0009#16) = .ok (.frc target) := by
  rw [decodeReq, reqOp_append, reqOL_append, reqUnused_append, reqArg_append]
  rfl

/-! ### The frames -/

theorem encode_frame (c : Command) (target : Word) : encode (c.frame target) = .frame (wireFrame c target) := by
  cases c <;> rfl

theorem decodeFrame_wireFrame (c : Command) (target : Word) :
    decodeFrame (wireFrame c target) = .ok (c.frame target) := by
  have whole := takeFrame_wireFrame c target []
  rw [List.append_nil] at whole
  rw [decodeFrame, whole]

theorem wellFormed_frame (c : Command) (target : Word) : (c.frame target).wellFormed = true := by
  cases c with
  | frc => exact decide_eq_true rfl
  | _ => rfl

/-! ### The statements -/

/-- Settles O1, by the constructor: the words with an operand by their fields, the FRC frame by its checksum, and every
other instruction has fixed bits, on which the decoder runs. -/
theorem encodeThenDecode : Obligations.EncodeThenDecode := by
  unfold Obligations.EncodeThenDecode
  intro i hi
  cases i with
  | crcFeed b => exact decodeReq_feedWord b
  | frc target => exact decodeReq_frcWord target
  | session onlyLast => cases onlyLast <;> rfl
  | frameFrc target ck =>
    obtain rfl : ck = targetCk target := of_decide_eq_true hi
    exact decodeFrame_wireFrame .frc target
  | _ => rfl

/-- Settles O2, on the two levels: a word by the decoder's check, and a byte sequence as one command's frame. -/
theorem decodedBitsAreTheEncoding : Obligations.DecodedBitsAreTheEncoding := by
  unfold Obligations.DecodedBitsAreTheEncoding
  intro c i h
  cases c with
  | req r => exact ⟨encode_of_decodeReq h, wellFormed_of_requestOp (decodeReq_op h)⟩
  | frame bytes =>
    obtain ⟨c, target, rfl, rfl⟩ := decodeFrame_ok h
    exact ⟨encode_frame c target, wellFormed_frame c target⟩

/-- Settles O3: each word is the encoding of its instruction, which decodes to it. -/
theorem specWordsDecode : Obligations.SpecWordsDecode := by
  unfold Obligations.SpecWordsDecode
  have frcFrame : (Instr.frameFrc 400#16 0x4C#8).wellFormed = true := by decide +kernel
  exact ⟨encodeThenDecode (.crcFeed 0xBE#8) rfl, encodeThenDecode .readMeas rfl, encodeThenDecode (.frc 400#16) rfl,
    encodeThenDecode .pollReady rfl, encodeThenDecode (.session true) rfl, encodeThenDecode .frameReadMeas rfl,
    encodeThenDecode (.frameFrc 400#16 0x4C#8) frcFrame⟩

end Sys2Proof.Machine
end

section
/-! Bits that are no instruction of the running block: an illegal request word (30_encoding.md R66), and a frame in a
request that does not send it (R67). -/

namespace Sys2Proof.Machine

/-- Settles O10: the word is rejected, so the step is its acceptance and the raise of ILLEGAL. -/
theorem illegalRequestRaisesIllegal : Obligations.IllegalRequestRaisesIllegal := by
  unfold Obligations.IllegalRequestRaisesIllegal
  intro s r rest hb hh illegal
  obtain ⟨e, rejected⟩ := (illegalWordsAreTheRejectedOnes r).1 illegal
  rw [step_illegal hb hh rejected, finish_raise]
  rfl

/-- No request resumes at a frame but POLL_READY and SESSION, each at its own frames. -/
theorem resumed_stray {c : Command} {s : State} (poll : s.seq.curOp = some 0xA#4 → c ≠ .getDrdy)
    (session : s.seq.curOp = some 0xB#4 → c ∉ [.startPeriodic, .getDrdy, .readMeas, .stopPeriodic]) :
    resumed s c = .fault .strayFrame := by
  have noSession (hc : c ∈ [.startPeriodic, .getDrdy, .readMeas, .stopPeriodic]) : s.seq.curOp ≠ some 0xB#4 :=
    fun hop => session hop hc
  cases c with
  | getDrdy => exact (if_neg fun hop => poll hop rfl).trans (if_neg (noSession (by decide)))
  | readMeas => exact if_neg (noSession (by decide))
  | startPeriodic => exact if_neg (noSession (by decide))
  | stopPeriodic => exact if_neg (noSession (by decide))
  | _ => rfl

/-- Settles O29, by the frame: with its own request not running, it can only resume another. The FRC frame resumes none,
whatever its checksum byte. -/
theorem strayFramesFault : Obligations.StrayFramesFault := by
  unfold Obligations.StrayFramesFault
  intro c target ck s own poll session
  have stray : exec (c.frame target) s = .fault .strayFrame := by
    rw [exec_frame, if_neg own, resumed_stray poll session]
  cases c with
  | frc => exact if_neg own
  | _ => exact stray

end Sys2Proof.Machine
end

section
/-! The assembler (30_encoding.md R70): the words of a line, its operands' ranges, and that its words are requests. -/

namespace Sys2Proof.Machine

/-! ### The words of a line -/

theorem assembleInstr_of_encode {i : Instr} {r : BitVec 32} (h : encode i = .req r) :
    assembleInstr i = some [.request r] := by
  rw [assembleInstr, requestStep, h, Option.map_some]

/-- A request line is the one word that encodes its request. -/
theorem encode_of_assembleInstr {i : Instr} {hs : List HostStep} (h : assembleInstr i = some hs) :
    ∃ r, encode i = .req r ∧ hs = [.request r] := by
  rw [assembleInstr, requestStep] at h
  cases hi : encode i with
  | req r =>
    rw [hi] at h
    cases h
    exact ⟨r, rfl, rfl⟩
  | frame bytes =>
    rw [hi] at h
    cases h

theorem assembleFeed_of_le {imm : Nat} (h : imm ≤ 0xFF) :
    assembleFeed imm = some [.request (0#8 ++ BitVec.ofNat 8 imm ++ 0x0001#16)] := by
  rw [assembleFeed, if_pos h, assembleInstr_of_encode rfl]

theorem assembleFeed_of_gt {imm : Nat} (h : 0xFF < imm) : assembleFeed imm = none := if_neg (Nat.not_le.2 h)

theorem assembleFeed_byte (b : Byte) : assembleFeed b.toNat = some [.request (0#8 ++ b ++ 0x0001#16)] := by
  rw [assembleFeed_of_le (Nat.le_of_lt_succ b.isLt), BitVec.ofNat_toNat, BitVec.setWidth_eq]

theorem assembleFeeds_bytes (bs : List Byte) :
    assembleFeeds (bs.map BitVec.toNat) = some (bs.map fun b => .request (0#8 ++ b ++ 0x0001#16)) := by
  induction bs with
  | nil => rfl
  | cons b bs ih => simp only [List.map_cons, assembleFeeds, assembleFeed_byte, ih, List.singleton_append]

theorem assembleFeeds_of_gt {bytes : List Nat} {b : Nat} (hb : b ∈ bytes) (h : 0xFF < b) :
    assembleFeeds bytes = none := by
  induction hb with
  | head bs => simp only [assembleFeeds, assembleFeed_of_gt h]
  | tail x _ ih =>
    simp only [assembleFeeds, ih]
    cases assembleFeed x <;> rfl

/-- A line `CRC` is CRC_INIT, and then its feeds. -/
theorem assemble_crc (p : Params) (bytes : List Nat) :
    assemble p (.crc bytes) = (assembleFeeds bytes).map (.request 0#32 :: ·) := by
  rw [assemble, assembleInstr_of_encode (r := 0#32) rfl]
  cases assembleFeeds bytes <;> rfl

/-! ### Every word of a line decodes -/

/-- Every request among some steps of the host is a legal one. -/
def AllDecode (hs : List HostStep) : Prop := ∀ r, .request r ∈ hs → ∃ i, decodeReq r = .ok i

theorem AllDecode.append {hs hs' : List HostStep} (h : AllDecode hs) (h' : AllDecode hs') : AllDecode (hs ++ hs') :=
  fun r hr => (List.mem_append.1 hr).elim (h r) (h' r)

/-- An instruction with a request word is a request. -/
theorem wellFormed_of_encode {i : Instr} {r : BitVec 32} (h : encode i = .req r) : i.wellFormed = true := by
  cases i with
  | frameFrc target ck => cases h
  | _ => rfl

theorem decodeReq_of_encode {i : Instr} {r : BitVec 32} (h : encode i = .req r) : decodeReq r = .ok i := by
  have decoded := encodeThenDecode i (wellFormed_of_encode h)
  rwa [h] at decoded

theorem assembleInstr_allDecode {i : Instr} {hs : List HostStep} (h : assembleInstr i = some hs) : AllDecode hs := by
  obtain ⟨r, hi, rfl⟩ := encode_of_assembleInstr h
  intro r' hr
  cases List.mem_singleton.1 hr
  exact ⟨i, decodeReq_of_encode hi⟩

theorem assembleFeed_allDecode {imm : Nat} {hs : List HostStep} (h : assembleFeed imm = some hs) : AllDecode hs := by
  rw [assembleFeed] at h
  split at h
  · exact assembleInstr_allDecode h
  · cases h

theorem assembleFeeds_allDecode {bytes : List Nat} {hs : List HostStep} (h : assembleFeeds bytes = some hs) :
    AllDecode hs := by
  induction bytes generalizing hs with
  | nil =>
    cases h
    exact nofun
  | cons b bs ih =>
    rw [assembleFeeds] at h
    split at h <;> cases h
    rename_i feed feeds hfeed hfeeds
    exact (assembleFeed_allDecode hfeed).append (ih hfeeds)

theorem assemble_allDecode {p : Params} {l : AsmLine} {hs : List HostStep} (h : assemble p l = some hs) :
    AllDecode hs := by
  cases l with
  | crcFeed imm => exact assembleFeed_allDecode h
  | frc imm =>
    rw [assemble] at h
    split at h
    · exact assembleInstr_allDecode h
    · cases h
  | setTerm imm =>
    rw [assemble] at h
    split at h <;> cases h
    intro r hr
    cases List.mem_singleton.1 hr
  | crc bytes =>
    rw [assemble] at h
    split at h <;> cases h
    rename_i init feeds hinit hfeeds
    exact (assembleInstr_allDecode hinit).append (assembleFeeds_allDecode hfeeds)
  | _ => exact assembleInstr_allDecode h

/-! ### The text of a line -/

theorem assembleText_eq (p : Params) (text : String) : assembleText p text = (readLine text).bind (assemble p) := by
  rw [assembleText]
  cases readLine text <;> rfl

/-- The lines with no operand, read from their text. -/
theorem readLine_noOperand :
    ["CRC_INIT", "GET_VARIANT", "SELF_TEST", "GET_DRDY", "READ_MEAS", "MEAS_SINGLE", "START_PERIODIC", "STOP_PERIODIC",
      "POLL_READY", "SESSION", "SESSION.LAST"].map readLine =
    [AsmLine.crcInit, .getVariant, .selfTest, .getDrdy, .readMeas, .measSingle, .startPeriodic, .stopPeriodic,
      .pollReady, .session, .sessionLast].map some := by
  decide +kernel

theorem readLine_operand :
    readLine "CRC_FEED 0xBE" = some (.crcFeed 0xBE) ∧ readLine "FRC 400" = some (.frc 400) := by
  decide +kernel

/-- Settles O60, one clause of the statement at a time: a line's text is read to the line, and the line's words are the
encodings of its requests. -/
theorem assemblerEmitsLegalWords : Obligations.AssemblerEmitsLegalWords := by
  unfold Obligations.AssemblerEmitsLegalWords
  refine ⟨fun p => ?noOperand, fun p => ?operand, fun p imm h => ⟨rfl, assembleFeed_of_le h⟩,
    fun p imm h => ⟨rfl, ?frc⟩, fun p imm h => ⟨rfl, if_pos h⟩, fun p imm h => assembleFeed_of_gt h,
    fun p imm h => if_neg (Nat.not_le.2 h), fun p imm h => if_neg (Nat.not_lt.2 h), fun p bytes b hb h => ?refused,
    fun p l hs r h hr => assemble_allDecode h r hr, fun p bs => ⟨rfl, ?crc⟩⟩
  case noOperand =>
    have words := congrArg (List.map (Option.bind · (assemble p))) readLine_noOperand
    rw [List.map_map, List.map_map] at words
    rw [funext (assembleText_eq p)]
    exact words
  case operand =>
    obtain ⟨feed, frc⟩ := readLine_operand
    rw [assembleText_eq, assembleText_eq, feed, frc]
    exact ⟨assembleFeed_of_le (imm := 0xBE) (by decide), rfl⟩
  case frc => rw [assemble, if_pos h, assembleInstr_of_encode rfl]
  case refused => rw [assemble_crc, assembleFeeds_of_gt hb h, Option.map_none]
  case crc => rw [assemble_crc, assembleFeeds_bytes, Option.map_some]

end Sys2Proof.Machine
end

section
/-! The checksum by itself (40_checksum.md R78 to R82): one iteration of `crc_step` loses nothing, so that a byte that
differs leads to another checksum, whatever bytes follow it. -/

namespace Sys2Proof.Machine

open Function (Injective)

/-- Bit 0 after an iteration is the bit that the shift has dropped, since CRC_POLY is odd. -/
theorem crcShift_bit_zero (a : Byte) : (crcShift a).getLsbD 0 = a.getLsbD 7 := by
  rw [crcShift]
  split
  case isTrue top => simp [top, crcPoly]
  case isFalse top => simpa using top

theorem crcShift_injective : Injective crcShift := by
  intro a b h
  have dropped : a.getLsbD 7 = b.getLsbD 7 := by rw [← crcShift_bit_zero, h, crcShift_bit_zero]
  have shifted : a <<< 1 = b <<< 1 := by
    rw [crcShift, crcShift, dropped] at h
    split at h
    · exact (BitVec.xor_left_inj crcPoly).1 h
    · exact h
  ext i hi
  by_cases top : i = 7
  · subst top
    exact dropped
  · have bit := congrArg (fun v => BitVec.getLsbD v (i + 1)) shifted
    have inside : i + 1 < 8 := by omega
    simpa [inside] using bit

theorem crcShifts_injective (n : Nat) : Injective (crcShifts n) := by
  induction n with
  | zero => exact Function.injective_id
  | succ n ih => exact ih.comp crcShift_injective

/-- For each accumulator, the byte that is folded in can be read off the result. -/
theorem crcStep_right_injective (acc : Byte) : Injective (crcStep acc) :=
  fun _ _ h => (BitVec.xor_right_inj acc).1 (crcShifts_injective 8 h)

/-- For each byte that is folded in, the accumulator before it can be read off the result. -/
theorem crcStep_left_injective (b : Byte) : Injective (crcStep · b) :=
  fun _ _ h => (BitVec.xor_left_inj b).1 (crcShifts_injective 8 h)

/-- A byte equal to the accumulator cancels it. -/
theorem crcStep_self (b : Byte) : crcStep b b = 0#8 := by
  rw [crcStep, BitVec.xor_self]
  rfl

/-- Two words with one byte in common are equal if their checksums are. -/
theorem eq_of_targetCk_eq {v w : Word} (shared : hiByte v = hiByte w ∨ loByte v = loByte w)
    (h : targetCk v = targetCk w) : v = w := by
  have bytes : hiByte v = hiByte w ∧ loByte v = loByte w := by
    have folds : crcStep (crcStep crcSeed (hiByte v)) (loByte v) = crcStep (crcStep crcSeed (hiByte w)) (loByte w) := h
    rcases shared with high | low
    · rw [high] at folds
      exact ⟨high, crcStep_right_injective _ folds⟩
    · rw [low] at folds
      exact ⟨crcStep_right_injective _ (crcStep_left_injective _ folds), low⟩
  obtain ⟨high, low⟩ := bytes
  rw [← be16_bytes v, high, low, be16_bytes]

/-- A flipped bit makes another value. -/
theorem xor_twoPow_ne {n i : Nat} (hi : i < n) (x : BitVec n) : x ^^^ BitVec.twoPow n i ≠ x := by
  intro h
  have bit := congrArg (fun v => BitVec.getLsbD v i) h
  simp [hi] at bit

/-- A flipped bit of a word lies in one of its bytes, and leaves the other. -/
theorem byte_xor_twoPow {i : Nat} (hi : i < 16) (w : Word) :
    hiByte (w ^^^ BitVec.twoPow 16 i) = hiByte w ∨ loByte (w ^^^ BitVec.twoPow 16 i) = loByte w := by
  have mask : ∀ i < 16, hiByte (BitVec.twoPow 16 i) = 0#8 ∨ loByte (BitVec.twoPow 16 i) = 0#8 := by decide
  refine (mask i hi).imp (fun high => ?_) (fun low => ?_)
  · rw [hiByte, BitVec.extractLsb'_xor, ← hiByte, ← hiByte, high, BitVec.xor_zero]
  · rw [loByte, BitVec.extractLsb'_xor, ← loByte, ← loByte, low, BitVec.xor_zero]

/-- Settles O16: a flipped data bit makes another word that shares a byte with the old one, so another checksum; a flipped
checksum bit makes another third byte. -/
theorem singleFlipIsDetected : Obligations.SingleFlipIsDetected := by
  unfold Obligations.SingleFlipIsDetected
  refine ⟨fun w i hi => decide_eq_false fun h => ?data, fun b0 b1 i hi => decide_eq_false fun h => ?checksum⟩
  case data => exact xor_twoPow_ne hi w (eq_of_targetCk_eq (byte_xor_twoPow hi w) h)
  case checksum => exact xor_twoPow_ne hi _ h.symm

end Sys2Proof.Machine
end

section
/-! The two requests that compute checksums (40_checksum.md R83 to R85). -/

namespace Sys2Proof.Machine

/-! ### Their words -/

/-- An illegal word of OP `op`, as the host's next write, raises R66's error alone and leaves ACC as it was. -/
theorem step_illegal_op {r : BitVec 32} {op : BitVec 4} {s : State} {rest : List HostStep}
    (hop : r.extractLsb' 0 4 = op) (illegal : illegalWord r = true) (hb : s.status.busy = false)
    (hh : s.env.host = .request r :: rest) :
    ∃ t, step s = .next t ∧ t.acc = s.acc ∧
      t.trace = .raise { kind := .illegal, op := op, group := 0, info := r.extractLsb' 0 16 } :: s.trace ∧
      EndedWith { kind := .illegal, op := op, group := 0, info := r.extractLsb' 0 16 } op .none t := by
  subst hop
  exact ⟨_, illegalRequestRaisesIllegal s r rest hb hh illegal, rfl, rfl, ⟨rfl, rfl, rfl⟩, rfl, rfl, rfl, rfl⟩

/-- The word 0 is the only legal one of CRC_INIT's OP. -/
theorem illegalWord_of_init {r : BitVec 32} (hop : reqOp r = 0x0#4) (hr : r ≠ 0#32) : illegalWord r = true := by
  have checks : ChecksWord r (noOperands r) .crcInit := checksWord_noOperands hop (by decide) rfl rfl
  refine eq_true_of_ne_false fun legal => hr ?_
  exact (Code.req.inj (checks.encodes (checks.legal.2 legal))).symm

/-- The must-be-0 bits of CRC_FEED (R62), as the fields that they are. -/
theorem illegalWord_feed_iff {r : BitVec 32} (hop : reqOp r = 0x1#4) :
    illegalWord r = false ↔ r.extractLsb' 24 8 = 0#8 ∧ r.extractLsb' 4 12 = 0#12 := by
  have mask : mustBeZeroMask (0x1#4).toNat = fieldMask 24 8 ||| fieldMask 4 12 := by decide
  rw [illegalWord_of_op hop (by decide) mask, and_or_eq_zero, and_fieldMask_eq_zero (by decide),
    and_fieldMask_eq_zero (by decide)]
  rfl

/-- A legal word of OP 1 is CRC_FEED of its byte B. -/
theorem decodeReq_feed {r : BitVec 32} (hop : reqOp r = 0x1#4) (legal : illegalWord r = false) :
    decodeReq r = .ok (.crcFeed (reqByte r)) := by
  have checks := checksWord_crcFeed hop
  exact decodeReq_of_encode (checks.encodes (checks.legal.2 legal))

/-! ### Their effect -/

/-- Settles O12: the word 0 is the only legal one of its OP, and the request is a write of ACC with its end. -/
theorem crcInitSetsTheSeed : Obligations.CrcInitSetsTheSeed := by
  unfold Obligations.CrcInitSetsTheSeed
  exact ⟨rfl, fun r s rest hop hr hb hh => step_illegal_op hop (illegalWord_of_init hop hr) hb hh, fun s => rfl⟩

/-- Settles O13: the legal words of its OP are those with 0 in both fields, and the request is a write of ACC with its
end. -/
theorem crcFeedFoldsOneByte : Obligations.CrcFeedFoldsOneByte := by
  unfold Obligations.CrcFeedFoldsOneByte
  refine ⟨fun r hop high low => ?legal, fun r s rest hop fields hb hh => ?illegal, rfl, fun s b => rfl, crcStep_self⟩
  case legal => exact decodeReq_feed hop ((illegalWord_feed_iff hop).2 ⟨high, low⟩)
  case illegal =>
    have illegal : illegalWord r = true := eq_true_of_ne_false (mt (illegalWord_feed_iff hop).1 fields)
    exact step_illegal_op hop illegal hb hh

/-! ### Programs -/

/-- ACC after an instruction, by ACC before it (10_state.md R27). -/
def accAfter (acc : Byte) : Instr → Byte
  | .crcInit => crcSeed
  | .crcFeed b => crcStep acc b
  | _ => acc

theorem accAfter_of_not_writesAcc {i : Instr} (h : writesAcc i = false) (acc : Byte) : accAfter acc i = acc := by
  cases i with
  | crcInit => cases h
  | crcFeed b => cases h
  | _ => rfl

theorem exec_acc {i : Instr} {s t : State} (h : exec i s = .next t) : t.acc = accAfter s.acc i := by
  cases hi : writesAcc i with
  | false => rw [accAfter_of_not_writesAcc hi, onlyCrcRequestsWriteAcc i s t hi h]
  | true =>
    obtain ⟨_, _, init⟩ := crcInitSetsTheSeed
    obtain ⟨_, _, _, feed, _⟩ := crcFeedFoldsOneByte
    cases i with
    | crcInit =>
      cases (init s).symm.trans h
      rfl
    | crcFeed b =>
      cases (feed s b).symm.trans h
      rfl
    | _ => cases hi

/-- A program that goes on to its end runs its first instruction, and then the others. -/
theorem execAll_cons {i : Instr} {is : List Instr} {s t : State} (h : execAll (i :: is) s = .next t) :
    ∃ u, exec i s = .next u ∧ execAll is u = .next t := by
  rw [execAll] at h
  split at h
  · exact ⟨_, ‹_›, h⟩
  · cases h
  · cases h

theorem execAll_acc {is : List Instr} {s t : State} (h : execAll is s = .next t) :
    t.acc = is.foldl accAfter s.acc := by
  induction is generalizing s with
  | nil =>
    cases h
    rfl
  | cons i is ih =>
    obtain ⟨u, first, others⟩ := execAll_cons h
    rw [ih others, exec_acc first, List.foldl_cons]

/-- The instructions that do not write ACC can be left out. -/
theorem foldl_accAfter_filter (is : List Instr) (acc : Byte) :
    (is.filter writesAcc).foldl accAfter acc = is.foldl accAfter acc := by
  have skips (acc : Byte) (i : Instr) : (if writesAcc i then accAfter acc i else acc) = accAfter acc i := by
    split
    · rfl
    · exact (accAfter_of_not_writesAcc (eq_false_of_ne_true ‹_›) acc).symm
  rw [List.foldl_filter, funext fun acc => funext (skips acc)]

theorem foldl_accAfter_feeds (bs : List Byte) (acc : Byte) :
    (bs.map Instr.crcFeed).foldl accAfter acc = crcFold acc bs := by
  induction bs generalizing acc with
  | nil => rfl
  | cons b bs ih => exact ih (crcStep acc b)

/-- Feeds go on to their end. -/
theorem execAll_feeds_next (bs : List Byte) (s : State) : ∃ t, execAll (bs.map Instr.crcFeed) s = .next t := by
  induction bs generalizing s with
  | nil => exact ⟨s, rfl⟩
  | cons b bs ih => exact ih _

/-- The checksum of the bytes fed after the last seed, whatever else runs that does not write ACC. -/
theorem acc_of_filter_writesAcc {bs : List Byte} {is : List Instr} {s t : State}
    (writes : is.filter writesAcc = .crcInit :: bs.map .crcFeed) (h : execAll is s = .next t) : t.acc = crc8 bs := by
  calc t.acc = is.foldl accAfter s.acc := execAll_acc h
    _ = (Instr.crcInit :: bs.map .crcFeed).foldl accAfter s.acc := by rw [← writes, foldl_accAfter_filter]
    _ = crc8 bs := foldl_accAfter_feeds bs crcSeed

/-- Every instruction of CRC_INIT and its feeds writes ACC. -/
theorem filter_writesAcc_feeds (bs : List Byte) :
    (Instr.crcInit :: bs.map .crcFeed).filter writesAcc = .crcInit :: bs.map .crcFeed := by
  rw [List.filter_eq_self]
  intro i hi
  rcases List.mem_cons.1 hi with rfl | hi
  · rfl
  · obtain ⟨b, _, rfl⟩ := List.mem_map.1 hi
    rfl

/-- Settles O14: ACC after a program is the fold of its writes of ACC, which here are the seed and then the bytes. -/
theorem fedBytesLeaveTheirChecksum : Obligations.FedBytesLeaveTheirChecksum := by
  unfold Obligations.FedBytesLeaveTheirChecksum
  refine ⟨fun bs s => ?_, fun bs is s t writes h => acc_of_filter_writesAcc writes h⟩
  obtain ⟨t, h⟩ : ∃ t, execAll (.crcInit :: bs.map .crcFeed) s = .next t := execAll_feeds_next bs _
  exact ⟨t, h, acc_of_filter_writesAcc (filter_writesAcc_feeds bs) h⟩

end Sys2Proof.Machine
end

section
/-! The rules of the eight sensor commands (42_transactions.md R102 to R105, R109 to R112) on listed answers: the
exchange of each command decides its end, and a whole response is checked group by group. -/

namespace Sys2Proof.Machine

/-- Of three lines in a row, the last two can be taken together. -/
theorem Res.andThen_assoc {α β γ : Type} (r : Res α) (k : α → State → Res β) (l : β → State → Res γ) :
    (r.andThen k).andThen l = r.andThen fun a s => (k a s).andThen l := by
  cases r <;> rfl

/-- An end that only passes the state on adds nothing. -/
theorem Res.andThen_ok_unit (r : Res Unit) : (r.andThen fun _ s => .ok () s) = r := by
  cases r <;> rfl

/-! ### The ends of a request -/

/-- A way to end a request after its lines, in which a raise goes to R153's top level and a call that is not answered
stays in flight (20_memory.md R40 law c). With and without results, requests differ only after a value. -/
structure Finishes (fin : Res Unit → Host.Outcome State Fault Refusal) : Prop where
  raised (e : Err) (u : State) : fin (.raised e u) = .next (raiseTop e u)
  silent (u : State) : fin (.silent u) = .next u

theorem finishes_finish : Finishes finish := ⟨fun _ _ => rfl, fun _ => rfl⟩

theorem finishes_finishResult : Finishes finishResult := ⟨fun _ _ => rfl, fun _ => rfl⟩

/-- A raise in the request of `s` reports that request as its CTX. -/
theorem endedWith_raiseTop {s t : State} {e : Err} (he : e.kind ≠ .none) (hop : t.seq.curOp = s.seq.curOp) :
    EndedWith e (ctxOf s) .none (raiseTop e t) := by
  rw [raiseTop, hop, ← ctxOf]
  exact ⟨⟨rfl, rfl, rfl⟩, rfl, rfl, errf_endWithError he _ _ t, rfl⟩

/-- A raise before which the request of `s` has written no register. -/
theorem raiseTop_rule {s t : State} {e : Err} (he : e.kind ≠ .none) (same : SameRegs s t) :
    EndedWith e (ctxOf s) .none (raiseTop e t) ∧ (raiseTop e t).results = s.results ∧
      (raiseTop e t).status.ready = s.status.ready ∧ (raiseTop e t).status.passed = s.status.passed := by
  have ready := congrArg StatusBits.ready same.status
  have passed := congrArg StatusBits.passed same.status
  exact ⟨endedWith_raiseTop he same.curOp, same.results, ready, passed⟩

/-- The completion of the request of `s`, where its lines left ERR and ERR_INFO alone. -/
theorem endedWell_complete {s t : State} {rvalid : Bool} (err : t.err = s.err) (errInfo : t.errInfo = s.errInfo)
    (hr : t.status.rvalid = rvalid) : EndedWell rvalid s (complete t) :=
  ⟨⟨rfl, rfl, rfl⟩, err, errInfo, hr⟩

/-! ### The exchange and the group check -/

/-- A command's listed answers decide how its exchange ends; only after a whole response do the next lines run. -/
theorem exchange_rule {fin : Res Unit → Host.Outcome State Fault Refusal} (hfin : Finishes fin) {c : Command}
    {f : List Byte} {s : State} {a : WriteAnswer} {r : ReadAnswer} (h : Answers s a r) {next : Unit → State → Res Unit}
    {good : State → List Byte → Prop}
    (response : ∀ bytes t, XactDone c f s t → bytes.length = c.respLen →
      t.rxbuf = Memory.writeAll s.rxbuf 0 bytes → ∃ u, fin (next () t) = .next u ∧ good u bytes) :
    ∃ u, fin ((xact c f s).andThen next) = .next u ∧
      ExchangeRule c.op (exchangeOf f.length c.respLen a r) s u (good u) := by
  have exchange := xact_listed (c := c) (f := f) h
  revert exchange
  unfold ExchangeRule
  cases exchangeOf f.length c.respLen a r with
  | unanswered =>
    rintro ⟨t, hx, trail, _, silent, phase⟩
    have same := trail.same
    rw [hx, Res.andThen_silent, hfin.silent]
    exact ⟨t, rfl, ⟨silent, congrArg StatusBits.busy same.status, same.curOp, phase⟩, same.results, same.status⟩
  | failed info =>
    rintro ⟨t, hx, trail, _, _⟩
    rw [hx, Res.andThen_raised, hfin.raised]
    exact ⟨_, rfl, raiseTop_rule nofun trail.same⟩
  | response bytes =>
    rintro ⟨t, hx, done, length, rx, _⟩
    rw [hx, Res.andThen_ok]
    exact response bytes t done length rx

/-- The cells of a group are those that the response has at the group's place. -/
theorem group_filled {m rx : List Host.Cell} {bytes rest : List Byte} {n : Nat} {b0 b1 ck : Byte}
    (hrx : rx = Memory.writeAll m 0 bytes) (group : bytes.drop n = b0 :: b1 :: ck :: rest) :
    Memory.read rx n = some b0 ∧ Memory.read rx (n + 1) = some b1 ∧ Memory.read rx (n + 2) = some ck := by
  have cell (i : Nat) (hi : i < 3) : Memory.read rx (n + i) = (b0 :: b1 :: ck :: rest)[i]? := by
    have length := congrArg List.length group
    rw [List.length_drop, List.length_cons, List.length_cons, List.length_cons] at length
    have filled := Memory.read_writeAll_at bytes m 0 (n + i) (by omega)
    rw [hrx, ← group, List.getElem?_drop, ← filled, Nat.zero_add]
  exact ⟨cell 0 (by decide), cell 1 (by decide), cell 2 (by decide)⟩

/-- A group of the response is checked (R101), and only after a right checksum do the next lines run. -/
theorem checkGroup_rule {op : BitVec 4} {k : Nat} {m : List Host.Cell} {s t : State} {bytes rest : List Byte}
    {b0 b1 ck : Byte} (same : SameRegs s t) (hrx : t.rxbuf = Memory.writeAll m 0 bytes)
    (group : bytes.drop (groupOffset k) = b0 :: b1 :: ck :: rest)
    {next : Word → State → Res Unit} {good : State → Prop}
    (word : ∃ u, finishResult (next (be16 b0 b1) t) = .next u ∧ good u) :
    ∃ u, finishResult ((checkGroup op k t).andThen next) = .next u ∧
      if crc8 [b0, b1] ≠ ck then ChecksumEnd op (BitVec.ofNat 2 k) (crc8 [b0, b1]) ck s u else good u := by
  obtain ⟨h0, h1, h2⟩ := group_filled hrx group
  rw [checkGroup_filled h0 h1 h2]
  by_cases hck : crc8 [b0, b1] = ck
  · obtain ⟨u, hu, rule⟩ := word
    rw [if_pos hck, Res.andThen_ok]
    exact ⟨u, hu, (if_neg (fun h => h hck)).mpr rule⟩
  · rw [if_neg hck, Res.andThen_raise, raise, finishes_finishResult.raised]
    refine ⟨_, rfl, ?_⟩
    rw [if_pos hck]
    exact raiseTop_rule nofun (same.trans (sameRegs_log t _))

/-- A response of RESP_LEN_SHORT bytes is one group. -/
theorem three_bytes {bytes : List Byte} (h : bytes.length = 3) : ∃ b0 b1 ck, bytes = [b0, b1, ck] :=
  match bytes, h with
  | [b0, b1, ck], _ => ⟨b0, b1, ck, rfl⟩

/-- The rule of a command whose response is one group. -/
theorem oneGroup_rule {c : Command} (hc : c.respLen = 3) {f : List Byte} {s : State} {a : WriteAnswer} {r : ReadAnswer}
    (h : Answers s a r) {next : Word → State → Res Unit} {good : State → Byte → Byte → Prop}
    (word : ∀ b0 b1 t, SameRegs s t → ∃ u, finishResult (next (be16 b0 b1) t) = .next u ∧ good u b0 b1) :
    ∃ u, finishResult ((xact c f s).andThen fun _ t => (checkGroup c.op 1 t).andThen next) = .next u ∧
      ExchangeRule c.op (exchangeOf f.length 3 a r) s u fun bytes =>
        ∃ b0 b1 ck, bytes = [b0, b1, ck] ∧
          if crc8 [b0, b1] ≠ ck then ChecksumEnd c.op 1 (crc8 [b0, b1]) ck s u else good u b0 b1 := by
  rw [← hc]
  refine exchange_rule finishes_finishResult h fun bytes t done length rx => ?_
  obtain ⟨b0, b1, ck, rfl⟩ := three_bytes (length.trans hc)
  obtain ⟨u, hu, rule⟩ := checkGroup_rule (k := 1) done.same rx rfl (word b0 b1 t done.same)
  exact ⟨u, hu, b0, b1, ck, rfl, rule⟩

/-! ### The commands -/

/-- GET_VARIANT's lines (R102). -/
theorem variantLines_rule {s : State} {a : WriteAnswer} {r : ReadAnswer} (h : Answers s a r) :
    ∃ t, finishResult (variantLines s) = .next t ∧ VariantRule (exchangeOf 2 3 a r) s t := by
  refine oneGroup_rule (c := .getVariant) (f := frameGetVariant) rfl h fun b0 b1 t same => ?_
  rw [same.params]
  split
  case isTrue listed =>
    refine ⟨_, rfl, (if_pos listed).mpr ⟨endedWell_complete same.err same.errInfo rfl, ?_⟩⟩
    simp only [complete_results, setRvalid_results, setWord_results, same.results, be16]
  case isFalse other =>
    obtain ⟨ended, results, _⟩ := raiseTop_rule (e := protocolErr 0x2#4 (be16 b0 b1)) nofun
      (same.trans (sameRegs_log t _))
    exact ⟨_, rfl, (if_neg other).mpr ⟨ended, results⟩⟩

/-- SELF_TEST's lines (R103): PASSED is written on both outcomes. -/
theorem selfTestLines_rule {s : State} {a : WriteAnswer} {r : ReadAnswer} (h : Answers s a r) :
    ∃ t, finishResult (selfTestLines s) = .next t ∧ SelfTestRule (exchangeOf 2 3 a r) s t := by
  refine oneGroup_rule (c := .selfTest) (f := frameSelfTest) rfl h fun b0 b1 t same => ?_
  split
  case isTrue zero =>
    refine ⟨_, rfl, (if_pos zero).mpr ⟨endedWell_complete same.err same.errInfo rfl, decide_eq_true zero, ?_⟩⟩
    simp only [complete_results, setRvalid_results, setWord_results, setPassed_results, same.results, zero]
  case isFalse other =>
    exact ⟨_, rfl, (if_neg other).mpr ⟨endedWith_raiseTop (e := protocolErr 0x3#4 (be16 b0 b1)) nofun same.curOp,
      decide_eq_false other, same.results⟩⟩

/-- GET_DRDY's lines (R104). -/
theorem drdyLines_rule {s : State} {a : WriteAnswer} {r : ReadAnswer} (h : Answers s a r) :
    ∃ t, finishResult ((queryReady s).andThen fun _ u => .ok () u) = .next t ∧
      DrdyRule (exchangeOf 2 3 a r) s t := by
  simp only [queryReady, Res.andThen_assoc]
  refine oneGroup_rule (c := .getDrdy) (f := frameGetDrdy) rfl h fun b0 b1 t same => ⟨_, rfl, ?_⟩
  refine ⟨endedWell_complete same.err same.errInfo rfl, ?_, readyFlag_eq _⟩
  simp only [complete_results, setRvalid_results, setDrdy_results, setWord_results, same.results, drdyOf_eq, be16]

/-- READ_MEAS's lines (R105): the groups in order, and the clock sample after them. -/
theorem readMeasLines_rule {s : State} {a : WriteAnswer} {r : ReadAnswer} (h : Answers s a r) :
    ∃ t, finishResult (readMeasLines s) = .next t ∧ MeasRule (exchangeOf 2 9 a r) s t := by
  refine exchange_rule (c := .readMeas) (f := frameReadMeas) finishes_finishResult h fun bytes t done length rx => ?_
  match bytes, length with
  | [a0, a1, c1, b0, b1, c2, d0, d1, c3], _ =>
    refine (?_ : ∃ u, _ ∧ _).imp fun u ⟨hu, rule⟩ => ⟨hu, a0, a1, c1, b0, b1, c2, d0, d1, c3, rfl, rule⟩
    refine checkGroup_rule (k := 1) done.same rx rfl ?_
    refine checkGroup_rule (k := 2) done.same rx rfl ?_
    refine checkGroup_rule (k := 3) done.same rx rfl ⟨_, rfl, ?_⟩
    have same := done.same.trans (now_same t)
    obtain ⟨_, sample, _⟩ := now_spec t
    obtain ⟨_, _, _, _, _, _, _, _, _, _, trace⟩ := now_fields t
    refine ⟨endedWell_complete same.err same.errInfo rfl, (now t).1,
      Nat.le_trans (least_le done.same.params done.later) sample, congrArg List.head? trace, ?_⟩
    simp only [complete_results, setRvalid_results, setMeas_results, same.results, be16]

/-- FRC's lines (R109), for any frame of five bytes: FF FF is met before the checksum. -/
theorem frcLines_rule {f : List Byte} (hf : f.length = 5) {s : State} {a : WriteAnswer} {r : ReadAnswer}
    (h : Answers s a r) :
    ∃ t, finishResult (frcLines f s) = .next t ∧ FrcRule (exchangeOf 5 3 a r) s t := by
  rw [← hf]
  refine exchange_rule (c := .frc) finishes_finishResult h fun bytes t done length rx => ?_
  obtain ⟨b0, b1, ck, rfl⟩ := three_bytes length
  obtain ⟨h0, h1, _⟩ := group_filled (n := 0) rx rfl
  refine (?_ : ∃ u, _ ∧ _).imp fun u ⟨hu, rule⟩ => ⟨hu, b0, b1, ck, rfl, rule⟩
  have same := done.same
  rw [frcDecode, readRx, h0, Res.andThen_ok, readRx, h1, Res.andThen_ok]
  by_cases sentinel : b0 = 0xFF#8 ∧ b1 = 0xFF#8
  · obtain ⟨ended, results, _⟩ := raiseTop_rule (e := protocolErr 0x9#4 0xFFFF#16) nofun
      (same.trans (sameRegs_log t _))
    rw [if_pos sentinel]
    exact ⟨_, rfl, (if_pos sentinel).mpr ⟨ended, results⟩⟩
  · rw [if_neg sentinel]
    refine (?_ : ∃ u, _ ∧ _).imp fun u ⟨hu, rule⟩ => ⟨hu, (if_neg sentinel).mpr rule⟩
    refine checkGroup_rule (k := 1) same rx rfl ⟨_, rfl, ?_⟩
    refine ⟨endedWell_complete same.err same.errInfo rfl, corrOf (be16 b0 b1), corrOf_toInt _, ?_⟩
    simp only [complete_results, setRvalid_results, setCorr_results, setWord_results, same.results, be16]

/-- The lines of a command with no response (R110 to R112). -/
theorem writeLines_rule {c : Command} (hc : c.respLen = 0) {f : List Byte} {s : State} {a : WriteAnswer}
    {r : ReadAnswer} (h : Answers s a r) :
    ∃ t, finish (xact c f s) = .next t ∧ NoResponseRule c.op (exchangeOf f.length 0 a r) s t := by
  rw [← hc, ← Res.andThen_ok_unit (xact c f s)]
  refine exchange_rule finishes_finish h fun bytes t done length rx => ⟨_, rfl, ?_⟩
  obtain rfl : bytes = [] := List.eq_nil_of_length_eq_zero (length.trans hc)
  have same := done.same
  exact ⟨rfl, endedWell_complete same.err same.errInfo (congrArg StatusBits.rvalid same.status), same.results, rx⟩

/-- The rule of a command's request, by what its exchange comes to. -/
def commandRule (x : Exchange) (s t : State) : Command → Prop
  | .getVariant => VariantRule x s t
  | .selfTest => SelfTestRule x s t
  | .getDrdy => DrdyRule x s t
  | .readMeas => MeasRule x s t
  | .measSingle => NoResponseRule 0x6#4 x s t
  | .startPeriodic => NoResponseRule 0x7#4 x s t
  | .stopPeriodic => NoResponseRule 0x8#4 x s t
  | .frc => FrcRule x s t

/-- Each command's request follows its rule on listed answers. -/
theorem runCommand_rule (c : Command) (target : Word) {s : State} {a : WriteAnswer} {r : ReadAnswer}
    (h : Answers s a r) :
    ∃ t, runCommand c target s = .next t ∧
      commandRule (exchangeOf (wireFrame c target).length c.respLen a r) s t c := by
  cases c with
  | getVariant => exact variantLines_rule h
  | selfTest => exact selfTestLines_rule h
  | getDrdy => exact drdyLines_rule h
  | readMeas => exact readMeasLines_rule h
  | measSingle => exact writeLines_rule (c := .measSingle) rfl h
  | startPeriodic => exact writeLines_rule (c := .startPeriodic) rfl h
  | stopPeriodic => exact writeLines_rule (c := .stopPeriodic) rfl h
  | frc => exact frcLines_rule rfl h

end Sys2Proof.Machine
end

section
/-! The wire frames (41_command_codec.md R91 to R99): their bytes, and what each runs as an instruction under the
request that sends it and inside a poll or a session. -/

namespace Sys2Proof.Machine

/-! ### Their bytes -/

/-- Settles O5, frame by frame: only the FRC frame has more bytes than its opcode. -/
theorem framesHaveTheirLengthAndChecksum : Obligations.FramesHaveTheirLengthAndChecksum := by
  unfold Obligations.FramesHaveTheirLengthAndChecksum
  refine ⟨fun target => ⟨rfl, rfl⟩, fun c target hc => ?_⟩
  cases c with
  | frc => exact absurd rfl hc
  | _ => exact ⟨_, _, rfl, by decide, by decide⟩

/-! ### Under their own requests -/

/-- A frame met under its own request runs what that request runs. -/
theorem exec_frame_own {c : Command} (target : Word) {s : State} (hop : s.seq.curOp = some c.op) :
    exec (c.frame target) s = runCommand c target s := by
  rw [exec_frame, if_pos hop]

/-- Settles O27: under its own request a frame runs the command, as the request does. -/
theorem framesActAsTheirRequests : Obligations.FramesActAsTheirRequests := by
  unfold Obligations.FramesActAsTheirRequests
  intro s
  have same (c : Command) (target : Word) (hop : s.seq.curOp = some c.op) :
      exec (c.frame target) s = exec (c.request target) s :=
    (exec_frame_own target hop).trans (exec_request c target s).symm
  exact ⟨same .getVariant 0, same .selfTest 0, same .getDrdy 0, same .readMeas 0, same .measSingle 0,
    same .startPeriodic 0, same .stopPeriodic 0, same .frc⟩

/-- Settles O25: under its own request a frame runs the command, which follows its rule; the FRC frame does so with any
checksum byte. -/
theorem framesRunTheirRequests : Obligations.FramesRunTheirRequests := by
  unfold Obligations.FramesRunTheirRequests
  intro s a r h
  have rule (c : Command) (hop : s.seq.curOp = some c.op) :
      ∃ t, exec (c.frame 0) s = .next t ∧ commandRule (exchangeOf (wireFrame c 0).length c.respLen a r) s t c := by
    rw [exec_frame_own 0 hop]
    exact runCommand_rule c 0 h
  refine ⟨rule .getVariant, rule .selfTest, rule .getDrdy, rule .readMeas, rule .measSingle, rule .startPeriodic,
    rule .stopPeriodic, fun target ck hop => ?frc⟩
  case frc =>
    have lines : exec (.frameFrc target ck) s = finishResult (frcLines (frameFrcOf target ck) s) := if_pos hop
    rw [lines]
    exact frcLines_rule rfl h

/-! ### Inside a poll or a session -/

/-- The frame E4 B8 met in POLL_READY runs the rest of the poll (R93). -/
theorem exec_frameGetDrdy_poll {s : State} (hop : s.seq.curOp = some 0xA#4) :
    exec .frameGetDrdy s = finishResult (pollFrom (attemptsLeft s) s) := by
  have other : s.seq.curOp ≠ some Command.getDrdy.op := by rw [hop]; decide
  exact ((exec_frame .getDrdy 0 s).trans (if_neg other)).trans (if_pos hop)

/-- What the frame E4 B8 leaves in POLL_READY. It answers a next state. -/
theorem exec_frameGetDrdy_poll_end {s : State} (hop : s.seq.curOp = some 0xA#4) :
    ∃ u t, exec .frameGetDrdy s = .next t ∧ PollLeft s u ∧ RequestEnd s u t := by
  rw [exec_frameGetDrdy_poll hop]
  exact finishResult_end (pollFrom_endsIn attempt_add_attemptsLeft)

/-- A frame met in a session resumes it, as no command's request is SESSION. -/
theorem exec_frame_resumed (c : Command) (target : Word) {s : State} (hop : s.seq.curOp = some 0xB#4) :
    exec (c.frame target) s = resumed s c := by
  have other : s.seq.curOp ≠ some c.op := fun e => op_ne_session c (Option.some.inj (e.symm.trans hop))
  rw [exec_frame, if_neg other]

/-- The commands whose frames a session sends (R93, R94, R96, R97). -/
def sessionCommands : List Command := [.startPeriodic, .getDrdy, .readMeas, .stopPeriodic]

/-- A session met at one of its frames runs to an end, or to a call that is not answered. -/
theorem resumed_session_next {c : Command} {s : State} (hc : c ∈ sessionCommands) (hop : s.seq.curOp = some 0xB#4) :
    ∃ t, resumed s c = .next t := by
  have again (v : State) (hv : Iterated s v) := loop_again hv
  revert c
  simp only [sessionCommands, List.forall_mem_cons]
  refine ⟨?start, ?poll, ?read, ?stop, nofun⟩
  case start =>
    obtain ⟨t, h, _⟩ := sessionAfterStart_end
      (writeLine_end .startPeriodic frameStartPeriodic s rfl rfl whole_startPeriodic)
    exact ⟨t, (if_pos hop).trans h⟩
  case poll =>
    obtain ⟨t, h, _⟩ := sessionAfterPoll_end (attemptsLeft s) s attempt_add_attemptsLeft again
    have other : s.seq.curOp ≠ some 0xA#4 := by rw [hop]; decide
    exact ⟨t, ((if_neg other).trans (if_pos hop)).trans h⟩
  case read =>
    obtain ⟨t, h, _⟩ := sessionAfterRead_end (readLine_end s) again
    exact ⟨t, (if_pos hop).trans h⟩
  case stop =>
    obtain ⟨t, h, _⟩ := sessionAfterStop_end
      (writeLine_end .stopPeriodic frameStopPeriodic s rfl rfl whole_stopPeriodic)
    exact ⟨t, (if_pos hop).trans h⟩

/-- Settles O26: the frames by what they resume, and POLL_READY and SESSION by the frame that their entries lead to. -/
theorem framesResumePollAndSession : Obligations.FramesResumePollAndSession := by
  unfold Obligations.FramesResumePollAndSession
  refine ⟨fun s _ hop => ?poll, fun s hop => ?pollEntry, fun s _ hop => ?session, fun onlyLast s hop => ?sessionEntry⟩
  case poll =>
    obtain ⟨u, t, h, left, ends⟩ := exec_frameGetDrdy_poll_end hop
    have ran := ends.ran left.toKept left.attempt
    exact ⟨t, h, ran.ends.imp And.left And.left⟩
  case pollEntry => exact (exec_frameGetDrdy_poll (s := nextAttempt (pollEntry s)) hop).symm
  case session =>
    show ∀ i ∈ sessionCommands.map (Command.frame 0), _
    refine List.forall_mem_map.2 fun c hc => ?_
    obtain ⟨t, h⟩ := resumed_session_next hc hop
    have hrun : exec (c.frame 0) s = .next t := (exec_frame_resumed c 0 hop).trans h
    refine ⟨t, hrun, (exec_frame_session hop hrun).ends.imp ?_ ?_⟩
    · exact fun ⟨inFlight, measuring, _⟩ => ⟨inFlight, measuring⟩
    · exact fun ⟨ended, off, _, stops, _⟩ => ⟨ended, off, stops⟩
  case sessionEntry =>
    exact ((exec_frame_resumed .startPeriodic 0 (s := (sessionEntry onlyLast s).setPhase .sStart) hop).trans
      (if_pos hop)).symm

/-- Settles O28, by what the rest of a poll and the rest of a session leave alone. -/
theorem resumedFramesFrame : Obligations.ResumedFramesFrame := by
  unfold Obligations.ResumedFramesFrame
  refine ⟨fun s t hop h => ?poll, fun s t hop => ?session⟩
  case poll =>
    obtain ⟨u, t', h', left, ends⟩ := exec_frameGetDrdy_poll_end hop
    cases h'.symm.trans h
    refine ⟨ends.hostSide left.toKept left.session, ends.acc.trans left.acc, ends.passed.trans left.passed,
      ends.txKept left.tx, ends.rxKept left.rx3, ?_⟩
    rw [ends.results]
    exact left.results
  case session =>
    show ∀ i ∈ sessionCommands.map (Command.frame 0), _
    refine List.forall_mem_map.2 fun c _ h => ?_
    have ends := exec_frame_session hop h
    exact ⟨ends.params, ends.req, ends.term, ends.acc, ends.host, ends.corr, ends.corrWritten, ends.passed,
      ends.onlyLast, ends.latched, ends.shutdown, ends.still, ends.trace, ends.tx, ends.rx, ends.meas, ends.polled⟩

end Sys2Proof.Machine
end

section
/-! The physical values of a reading (42_transactions.md R106 to R108). -/

namespace Sys2Proof.Machine

theorem temp_scaled (w : Word) : 65535 * (temp w + 45) = 175 * (w.toNat : Rat) := by
  rw [temp]
  grind

theorem rh_scaled (w : Word) : 65535 * rh w = 100 * (w.toNat : Rat) := by
  rw [rh]
  grind

/-- A larger word gives a larger temperature. -/
theorem temp_increasing {v w : Word} (h : v.toNat < w.toNat) : temp v < temp w := by
  have words : (v.toNat : Rat) < w.toNat := Rat.natCast_lt_natCast.2 h
  grind [temp_scaled v, temp_scaled w]

/-- A larger word gives a larger humidity. -/
theorem rh_increasing {v w : Word} (h : v.toNat < w.toNat) : rh v < rh w := by
  have words : (v.toNat : Rat) < w.toNat := Rat.natCast_lt_natCast.2 h
  grind [rh_scaled v, rh_scaled w]

/-- No humidity needs to be clamped. -/
theorem rh_range (w : Word) : 0 ≤ rh w ∧ rh w ≤ 100 := by
  have low : (0 : Rat) ≤ w.toNat := Rat.natCast_nonneg
  have high : (w.toNat : Rat) ≤ (65535 : Nat) := Rat.natCast_le_natCast.2 (Nat.le_of_lt_succ w.isLt)
  grind [rh_scaled w]

/-- Settles O58: both functions are affine in the word's value, with a positive slope, and that value lies in 0 to
65535. -/
theorem physicalValues : Obligations.PhysicalValues := by
  unfold Obligations.PhysicalValues
  refine ⟨fun w => ⟨temp_scaled w, rh_scaled w⟩, ?_, ?_, ?_, ?_, fun v w h => ⟨temp_increasing h, rh_increasing h⟩,
    rh_range⟩
  all_goals decide +kernel

/-- Settles O59, by the arithmetic of R108 on the two words. -/
theorem floatEndpointsAreExact : Obligations.FloatEndpointsAreExact := by
  unfold Obligations.FloatEndpointsAreExact
  decide +kernel

end Sys2Proof.Machine
end

section
/-! The bus transaction and the group check (42_transactions.md R100, R101). -/

namespace Sys2Proof.Machine

/-- A cell of RXBUF is read, or holds no value (10_state.md R34). -/
theorem readRx_cases (i : Nat) (s : State) : (∃ b, readRx i s = .ok b s) ∨ readRx i s = .fault .unwrittenRead := by
  rw [readRx]
  split
  · exact .inl ⟨_, rfl⟩
  · exact .inr rfl

/-- The lines after a cell's read fault if they fault on every byte. -/
theorem readRx_andThen_fault {α : Type} {i : Nat} {s : State} {next : Byte → State → Res α}
    (h : ∀ b, next b s = .fault .unwrittenRead) : (readRx i s).andThen next = .fault .unwrittenRead := by
  rcases readRx_cases i s with ⟨b, hb⟩ | hb <;> rw [hb]
  · exact h b
  · rfl

theorem readRx_unwritten {i : Nat} {s : State} (h : Memory.read s.rxbuf i = none) :
    readRx i s = .fault .unwrittenRead := by
  rw [readRx, h]

theorem checkGroup_unwritten {op : BitVec 4} {k i : Nat} {s : State} (hi : i < 3)
    (h : Memory.read s.rxbuf (groupOffset k + i) = none) : checkGroup op k s = .fault .unwrittenRead := by
  have fault := readRx_unwritten h
  match i, hi with
  | 0, _ => exact congrArg (Res.andThen · _) fault
  | 1, _ => exact readRx_andThen_fault fun _ => congrArg (Res.andThen · _) fault
  | 2, _ => exact readRx_andThen_fault fun _ => readRx_andThen_fault fun _ => congrArg (Res.andThen · _) fault

/-- Settles O18, by the group's three cells. -/
theorem checkGroupValidatesOneGroup : Obligations.CheckGroupValidatesOneGroup := by
  unfold Obligations.CheckGroupValidatesOneGroup
  exact fun op k s _ _ => ⟨fun b0 b1 ck => checkGroup_filled, fun i => checkGroup_unwritten⟩

/-- TXBUF after a transaction's load of the frame (20_memory.md R41). -/
theorem XactTrail.tx {f : List Byte} {s t : State} (h : XactTrail f s t) :
    (∀ i, i < f.length → Memory.read t.txbuf i = f[i]?) ∧ TxKept f.length s t := by
  rw [TxKept, h.txbuf]
  refine ⟨fun i hi => ?_, fun i hi => Memory.read_writeAll_after f s.txbuf 0 i (by omega)⟩
  simpa using Memory.read_writeAll_at f s.txbuf 0 i hi

/-- RXBUF after a response (R42). -/
theorem rx_response {s t : State} {bytes : List Byte} (h : t.rxbuf = Memory.writeAll s.rxbuf 0 bytes) :
    (∀ i, i < bytes.length → Memory.read t.rxbuf i = bytes[i]?) ∧ RxKept bytes.length s t := by
  rw [RxKept, h]
  refine ⟨fun i hi => ?_, fun i hi => Memory.read_writeAll_after bytes s.rxbuf 0 i (by omega)⟩
  simpa using Memory.read_writeAll_at bytes s.rxbuf 0 i hi

/-- Settles O17: the listed answers decide how the transaction ends, and each end leaves the whole frame in TXBUF and
only a whole response in RXBUF. -/
theorem xactRunsOneTransaction : Obligations.XactRunsOneTransaction := by
  unfold Obligations.XactRunsOneTransaction
  intro c frame s a r h
  have ends := xact_listed (c := c) (f := frame) h
  have phase := xact_phase (c := c) (f := frame) h
  have bus := xact_bus (c := c) (f := frame) h.1 (.inr h.2)
  revert ends
  cases exchangeOf frame.length c.respLen a r with
  | unanswered =>
    rintro ⟨t, hx, trail, rx, silent, _⟩
    rw [hx] at phase bus
    obtain ⟨tx, txKept⟩ := trail.tx
    exact ⟨t, trail.same, trail.still, phase, bus, tx, txKept, hx, silent, fun i _ => by rw [rx]⟩
  | failed info =>
    rintro ⟨t, hx, trail, rx, _⟩
    rw [hx] at phase bus
    obtain ⟨tx, txKept⟩ := trail.tx
    exact ⟨t, trail.same, trail.still, phase, bus, tx, txKept, hx, xact_raised_event hx, fun i _ => by rw [rx]⟩
  | response bytes =>
    rintro ⟨t, hx, done, length, rx, _⟩
    rw [hx] at phase bus
    obtain ⟨tx, txKept⟩ := done.tx
    obtain ⟨cells, rxKept⟩ := rx_response rx
    rw [length] at cells rxKept
    exact ⟨t, done.same, done.still, phase, bus, tx, txKept, hx, length, cells, rxKept⟩

end Sys2Proof.Machine
end

section
/-! What the eight sensor commands do on the bus (42_transactions.md R100, R102 to R112): the exchange, and nothing after
it. Their rules on listed answers follow. -/

namespace Sys2Proof.Machine

/-! ### Frames and the bus -/

/-- A frame is sent on the bus. -/
theorem framesOf_busOf (evs : List Event) : framesOf (busOf evs) = framesOf evs := by
  induction evs with
  | nil => rfl
  | cons e evs ih =>
    cases e with
    | memWrite addr frame answer => exact congrArg (List.cons frame) ih
    | _ => exact ih

/-- A transaction sends its frame once, whatever is answered. -/
theorem framesOf_xactEvents (c : Command) (f : List Byte) (a : WriteAnswer) (r : ReadAnswer) (p : Params) :
    framesOf (xactEvents c f a r p) = [f] := by
  cases a with
  | ok k =>
    rw [xactEvents]
    split
    · rfl
    · split <;> rfl
  | err => rfl
  | never => rfl

/-- What is on the bus tells which frames were sent. -/
theorem OnBus.frames {evs : List Event} {s t : State} (h : OnBus evs s t) :
    framesOf t.trace = framesOf evs ++ framesOf s.trace := by
  rw [← framesOf_busOf t.trace, h, framesOf_append, framesOf_busOf]

/-! ### The lines after an exchange -/

/-- An exchange on listed answers, and lines that do nothing on the bus. -/
theorem exchange_bus {α : Type} {c : Command} {f : List Byte} {s : State} {a : WriteAnswer} {r : ReadAnswer}
    (hw : s.env.writes.head? = some a) (hr : c.respLen = 0 ∨ s.env.reads.head? = some r)
    {next : Unit → State → Res α} (quiet : ∀ t, (next () t).leaves (OnBus [] t)) :
    ((xact c f s).andThen next).leaves (OnBus (xactEvents c f a r s.params) s) :=
  Res.leaves_andThen (xact_bus hw hr) (fun _ h => h) fun _ t _ h => Res.leaves_mono (quiet t) fun _ k => h.trans k

/-- A group check, and lines that do nothing on the bus. -/
theorem checkGroup_bus {α : Type} {op : BitVec 4} {k : Nat} {t : State} {next : Word → State → Res α}
    (quiet : ∀ w, (next w t).leaves (OnBus [] t)) : ((checkGroup op k t).andThen next).leaves (OnBus [] t) := by
  rcases checkGroup_cases op k t with ⟨w, h⟩ | ⟨info, h⟩ | h <;> rw [h]
  · exact quiet w
  · rfl
  · trivial

/-- A read of RXBUF, and lines that do nothing on the bus. -/
theorem readRx_bus {α : Type} {i : Nat} {t : State} {next : Byte → State → Res α}
    (quiet : ∀ b, (next b t).leaves (OnBus [] t)) : ((readRx i t).andThen next).leaves (OnBus [] t) := by
  rcases readRx_cases i t with ⟨b, h⟩ | h <;> rw [h]
  · exact quiet b
  · trivial

theorem frcDecode_bus (t : State) : (frcDecode t).leaves (OnBus [] t) := by
  refine readRx_bus fun b0 => readRx_bus fun b1 => ?_
  split
  · rfl
  · exact checkGroup_bus fun w => rfl

/-- On the bus a command's lines are its exchange. -/
theorem commandLines_bus (c : Command) (target : Word) {s : State} {a : WriteAnswer} {r : ReadAnswer}
    (hw : s.env.writes.head? = some a) (hr : c.respLen = 0 ∨ s.env.reads.head? = some r) :
    (commandLines target s c).leaves (OnBus (xactEvents c (wireFrame c target) a r s.params) s) := by
  cases c with
  | getVariant => exact exchange_bus hw hr fun t => checkGroup_bus fun w => by split <;> rfl
  | selfTest => exact exchange_bus hw hr fun t => checkGroup_bus fun w => by split <;> rfl
  | getDrdy =>
    show ((queryReady s).andThen _).leaves _
    simp only [queryReady, Res.andThen_assoc]
    exact exchange_bus hw hr fun t => checkGroup_bus fun w => rfl
  | readMeas =>
    exact exchange_bus hw hr fun t => checkGroup_bus fun w1 => checkGroup_bus fun w2 => checkGroup_bus fun w3 =>
      bus_now t
  | measSingle => exact xact_bus hw hr
  | startPeriodic => exact xact_bus hw hr
  | stopPeriodic => exact xact_bus hw hr
  | frc => exact exchange_bus hw hr frcDecode_bus

/-- The end of a request writes no event but a raise, which the lines have made. -/
theorem finish_leaves {r : Res Unit} {t : State} {P : List Event → Prop} (hr : r.leaves fun u => P u.trace)
    (h : finish r = .next t) : P t.trace := by
  cases r with
  | fault f => cases h
  | _ => cases h; exact hr

theorem finishResult_leaves {r : Res Unit} {t : State} {P : List Event → Prop} (hr : r.leaves fun u => P u.trace)
    (h : finishResult r = .next t) : P t.trace := by
  have ends : (r.andThen fun _ u => .ok () u.setRvalid).leaves fun u => P u.trace :=
    Res.leaves_andThen hr (fun _ h => h) fun _ _ _ h => h
  exact finish_leaves ends h

/-- A command's request makes one transaction on the bus and sends its frame once. -/
theorem runCommand_bus {c : Command} {target : Word} {s t : State} {a : WriteAnswer} {r : ReadAnswer}
    (hw : s.env.writes.head? = some a) (hr : c.respLen = 0 ∨ s.env.reads.head? = some r)
    (h : runCommand c target s = .next t) :
    framesOf t.trace = wireFrame c target :: framesOf s.trace ∧
      OnBus (xactEvents c (wireFrame c target) a r s.params) s t := by
  have lines := commandLines_bus c target hw hr
  have bus : OnBus (xactEvents c (wireFrame c target) a r s.params) s t := by
    rw [runCommand] at h
    split at h
    · exact finish_leaves (P := fun evs => busOf evs = _) lines h
    · exact finishResult_leaves (P := fun evs => busOf evs = _) lines h
  exact ⟨by rw [bus.frames, framesOf_xactEvents]; rfl, bus⟩

/-! ### The statements -/

/-- A command with a response, on listed answers: its rule, its frame, and its transaction. -/
theorem exec_request_rule (c : Command) (target : Word) {s : State} {a : WriteAnswer} {r : ReadAnswer}
    (h : Answers s a r) :
    ∃ t, exec (c.request target) s = .next t ∧
      commandRule (exchangeOf (wireFrame c target).length c.respLen a r) s t c ∧
      framesOf t.trace = wireFrame c target :: framesOf s.trace ∧
      busOf t.trace = xactEvents c (wireFrame c target) a r s.params ++ busOf s.trace := by
  obtain ⟨t, ht, rule⟩ := runCommand_rule c target h
  exact ⟨t, (exec_request c target s).trans ht, rule, runCommand_bus h.1 (.inr h.2) ht⟩

/-- Settles O19. -/
theorem getVariantFollowsItsRule : Obligations.GetVariantFollowsItsRule := by
  unfold Obligations.GetVariantFollowsItsRule
  exact ⟨rfl, fun s a r => exec_request_rule .getVariant 0⟩

/-- Settles O20. -/
theorem selfTestFollowsItsRule : Obligations.SelfTestFollowsItsRule := by
  unfold Obligations.SelfTestFollowsItsRule
  exact ⟨rfl, fun s a r => exec_request_rule .selfTest 0⟩

/-- Settles O21. -/
theorem getDrdyFollowsItsRule : Obligations.GetDrdyFollowsItsRule := by
  unfold Obligations.GetDrdyFollowsItsRule
  exact ⟨rfl, fun s a r => exec_request_rule .getDrdy 0⟩

/-- Settles O22. -/
theorem readMeasFollowsItsRule : Obligations.ReadMeasFollowsItsRule := by
  unfold Obligations.ReadMeasFollowsItsRule
  exact ⟨rfl, fun s a r => exec_request_rule .readMeas 0⟩

/-- Settles O23. -/
theorem frcFollowsItsRule : Obligations.FrcFollowsItsRule := by
  unfold Obligations.FrcFollowsItsRule
  exact fun target => ⟨decodeReq_frcWord target, fun s a r => exec_request_rule .frc target⟩

/-- A write that is listed not to be answered: a command with no response makes no further call. -/
theorem xact_write_never {c : Command} {f : List Byte} {s : State} (hc : c.respLen = 0)
    (hw : s.env.writes.head? = some .never) :
    ∃ t, xact c f s = .silent t ∧ SilentTrail f s t ∧ t.env.reads = s.env.reads := by
  have silent := xact_eq c f s
  rw [writeDrawn_listed hw] at silent
  rcases xact_write_cases c f s hc with ⟨t, h, _⟩ | ⟨_, t, h, _⟩ | ⟨t, h, trail⟩
  · cases silent.symm.trans h
  · cases silent.symm.trans h
  · cases silent.symm.trans h
    exact ⟨_, silent, trail, (afterWrite_fields f (atWrite f s)).2.2.2.1⟩

/-- The lines of a command with no response (R110 to R112), by its listed write answer alone. -/
theorem writeLines_answered {c : Command} (hc : c.respLen = 0) {f : List Byte} {s : State} {a : WriteAnswer}
    (hw : s.env.writes.head? = some a) :
    ∃ t, finish (xact c f s) = .next t ∧ NoResponseRule c.op (exchangeOf f.length 0 a .err) s t ∧
      t.env.reads = s.env.reads := by
  by_cases answered : a = .never
  case pos =>
    subst answered
    obtain ⟨t, h, trail, reads⟩ := xact_write_never (f := f) hc hw
    have same := trail.same
    rw [h]
    exact ⟨t, rfl, ⟨⟨trail.silent, congrArg StatusBits.busy same.status, same.curOp, trail.phase⟩, same.results,
      same.status⟩, reads⟩
  case neg =>
    obtain ⟨ws, listed⟩ := List.head?_eq_some_iff.1 hw
    rcases xact_write_listed (f := f) hc listed answered with ⟨hx, t, h, done, _, reads, _⟩ |
      ⟨info, hx, t, h, trail, _, reads, _⟩ <;> rw [h, hx]
    · have same := done.same
      have rx : t.rxbuf = s.rxbuf := by
        obtain ⟨b, hb, rx⟩ := done.rx
        rw [hc, List.length_eq_zero_iff, or_self] at hb
        subst hb
        exact rx
      exact ⟨_, rfl, ⟨rfl, endedWell_complete same.err same.errInfo (congrArg StatusBits.rvalid same.status),
        same.results, rx⟩, reads⟩
    · exact ⟨_, rfl, raiseTop_rule nofun trail.same, reads⟩

/-- Settles O24: the write's answer decides the end, and no read is made. -/
theorem writeOnlyRequestsFollowTheirRules : Obligations.WriteOnlyRequestsFollowTheirRules := by
  unfold Obligations.WriteOnlyRequestsFollowTheirRules
  refine ⟨rfl, rfl, rfl, fun s a hw => ?_⟩
  have rule (c : Command) (hc : c.respLen = 0) (lines : commandLines 0 s c = xact c (wireFrame c 0) s) :
      ∃ t, exec (c.request 0) s = .next t ∧ NoResponseRule c.op (exchangeOf (wireFrame c 0).length 0 a .err) s t ∧
        framesOf t.trace = wireFrame c 0 :: framesOf s.trace ∧ t.env.reads = s.env.reads ∧
        busOf t.trace = xactEvents c (wireFrame c 0) a .err s.params ++ busOf s.trace := by
    obtain ⟨t, ht, ends, reads⟩ := writeLines_answered (f := wireFrame c 0) hc hw
    have run : runCommand c 0 s = .next t := by rw [runCommand, if_pos hc, lines, ht]
    obtain ⟨frames, bus⟩ := runCommand_bus hw (.inl hc) run
    exact ⟨t, (exec_request c 0 s).trans run, ends, frames, reads, bus⟩
  exact ⟨rule .measSingle rfl rfl, rule .startPeriodic rfl rfl, rule .stopPeriodic rfl rfl⟩

end Sys2Proof.Machine
end

section
/-! Decoding depends on the response bytes alone (42_transactions.md R113): two runs of one command with the same answers,
compared branch by branch of the command's rule. -/

namespace Sys2Proof.Machine

/-! ### Two runs -/

/-- Two states in which a request starts alike: what R113 fixes of them besides the answers. -/
structure StartAlike (s u : State) : Prop where
  params : s.params = u.params
  curOp : s.seq.curOp = u.seq.curOp
  rvalid : s.status.rvalid = u.status.rvalid
  err : s.err = u.err
  errInfo : s.errInfo = u.errInfo

theorem StartAlike.ctxOf {s u : State} (h : StartAlike s u) : ctxOf s = ctxOf u := congrArg (Option.getD · 0) h.curOp

/-- The runs from `s` to `s'` and from `u` to `u'` write the same values, or none. -/
structure WritesAlike (s u s' u' : State) : Prop where
  word : WroteAlike (·.results.word) s u s' u'
  drdy : WroteAlike (·.results.drdy) s u s' u'
  corr : WroteAlike (·.results.corr) s u s' u'
  co2 : WroteAlike (·.results.co2) s u s' u'
  tRaw : WroteAlike (·.results.tRaw) s u s' u'
  rhRaw : WroteAlike (·.results.rhRaw) s u s' u'
  ready : WroteAlike (·.status.ready) s u s' u'
  passed : WroteAlike (·.status.passed) s u s' u'

/-- The two runs write and end alike. -/
structure Alike (s u s' u' : State) : Prop extends WritesAlike s u s' u' where
  rvalid : s'.status.rvalid = u'.status.rvalid
  err : s'.err = u'.err
  errInfo : s'.errInfo = u'.errInfo

/-- What a run of the command `c` is known to keep before its rule is looked at. -/
structure RunKept (c : Command) (s t : State) : Prop where
  passed : c ≠ .selfTest → t.status.passed = s.status.passed
  ready : c ≠ .getDrdy → t.status.ready = s.status.ready
  inFlight : InFlight s t → t.err = s.err ∧ t.errInfo = s.errInfo

theorem runCommand_kept {c : Command} {target : Word} {s t : State} (h : runCommand c target s = .next t) :
    RunKept c s t := by
  obtain ⟨u, left, ends⟩ := runCommand_left h
  refine ⟨fun hc => ends.passed.trans (left.passed hc), fun hc => ends.ready.trans (left.readyKept hc), ?_⟩
  rintro ⟨_, _, _, phase⟩
  rcases ends.ends with ⟨rfl, _⟩ | ⟨⟨_, _, idle⟩, _⟩
  · exact ⟨left.err, left.errInfo⟩
  · rw [idle] at phase
    simp at phase

section

/-! ### Registers -/

variable {s u s' u' : State}

/-- Two runs that write no result register. -/
theorem WritesAlike.of_kept (hs : s'.results = s.results) (hu : u'.results = u.results)
    (ready : WroteAlike (·.status.ready) s u s' u') (passed : WroteAlike (·.status.passed) s u s' u') :
    WritesAlike s u s' u' := by
  constructor
  case ready => exact ready
  case passed => exact passed
  all_goals simp only [WroteAlike, hs, hu, and_self, or_true]

/-- Two runs that write the same WORD alone of the result registers. -/
theorem WritesAlike.of_word {w : Word} (hs : s'.results = { s.results with word := w, wordWritten := true })
    (hu : u'.results = { u.results with word := w, wordWritten := true })
    (ready : WroteAlike (·.status.ready) s u s' u') (passed : WroteAlike (·.status.passed) s u s' u') :
    WritesAlike s u s' u' := by
  constructor
  case ready => exact ready
  case passed => exact passed
  all_goals simp only [WroteAlike, hs, hu, and_self, or_true, true_or]

/-- A command other than GET_DRDY leaves READY alone. -/
theorem RunKept.readyAlike {c : Command} (ks : RunKept c s s') (ku : RunKept c u u') (hc : c ≠ .getDrdy) :
    WroteAlike (·.status.ready) s u s' u' :=
  .inr ⟨ks.ready hc, ku.ready hc⟩

/-- A command other than SELF_TEST leaves PASSED alone. -/
theorem RunKept.passedAlike {c : Command} (ks : RunKept c s s') (ku : RunKept c u u') (hc : c ≠ .selfTest) :
    WroteAlike (·.status.passed) s u s' u' :=
  .inr ⟨ks.passed hc, ku.passed hc⟩

/-! ### Ends -/

variable (start : StartAlike s u)

include start

/-- Two runs that raise the same error. -/
theorem StartAlike.raised {e : Err} (hs : EndedWith e (Machine.ctxOf s) .none s')
    (hu : EndedWith e (Machine.ctxOf u) .none u') (writes : WritesAlike s u s' u') : Alike s u s' u' := by
  obtain ⟨_, errS, infoS, _, rvalidS⟩ := hs
  obtain ⟨_, errU, infoU, _, rvalidU⟩ := hu
  rw [start.ctxOf] at errS
  exact ⟨writes, rvalidS.trans rvalidU.symm, errS.trans errU.symm, infoS.trans infoU.symm⟩

/-- Two runs that complete. -/
theorem StartAlike.well {rvalid : Bool} (hs : EndedWell rvalid s s') (hu : EndedWell rvalid u u')
    (writes : WritesAlike s u s' u') : Alike s u s' u' := by
  obtain ⟨_, errS, infoS, rvalidS⟩ := hs
  obtain ⟨_, errU, infoU, rvalidU⟩ := hu
  exact ⟨writes, rvalidS.trans rvalidU.symm, errS.trans (start.err.trans errU.symm),
    infoS.trans (start.errInfo.trans infoU.symm)⟩

/-- Two runs with the same error, in which no register was written. -/
theorem StartAlike.raised_kept {e : Err}
    (hs : EndedWith e (Machine.ctxOf s) .none s' ∧ s'.results = s.results ∧ s'.status.ready = s.status.ready ∧
      s'.status.passed = s.status.passed)
    (hu : EndedWith e (Machine.ctxOf u) .none u' ∧ u'.results = u.results ∧ u'.status.ready = u.status.ready ∧
      u'.status.passed = u.status.passed) : Alike s u s' u' := by
  obtain ⟨endS, resultsS, readyS, passedS⟩ := hs
  obtain ⟨endU, resultsU, readyU, passedU⟩ := hu
  exact start.raised endS endU (.of_kept resultsS resultsU (.inr ⟨readyS, readyU⟩) (.inr ⟨passedS, passedU⟩))

/-! ### Exchanges and groups -/

/-- Two exchanges with the same outcome: without a response nothing is written. -/
theorem exchangeRule_alike {c : Command} (ks : RunKept c s s') (ku : RunKept c u u') {op : BitVec 4} {x : Exchange}
    {goodS goodU : List Byte → Prop}
    (hs : ExchangeRule op x s s' goodS) (hu : ExchangeRule op x u u' goodU)
    (response : ∀ bytes, goodS bytes → goodU bytes → Alike s u s' u') : Alike s u s' u' := by
  cases x with
  | failed info => exact start.raised_kept hs hu
  | response bytes => exact response bytes hs hu
  | unanswered =>
    obtain ⟨flightS, resultsS, statusS⟩ := hs
    obtain ⟨flightU, resultsU, statusU⟩ := hu
    obtain ⟨errS, infoS⟩ := ks.inFlight flightS
    obtain ⟨errU, infoU⟩ := ku.inFlight flightU
    have ready : WroteAlike (·.status.ready) s u s' u' :=
      .inr ⟨congrArg StatusBits.ready statusS, congrArg StatusBits.ready statusU⟩
    have passed : WroteAlike (·.status.passed) s u s' u' :=
      .inr ⟨congrArg StatusBits.passed statusS, congrArg StatusBits.passed statusU⟩
    refine ⟨.of_kept resultsS resultsU ready passed, ?_, errS.trans (start.err.trans errU.symm),
      infoS.trans (start.errInfo.trans infoU.symm)⟩
    rw [statusS, statusU, start.rvalid]

/-- Two checks of the same group: with a wrong checksum nothing is written. -/
theorem checksum_alike {op : BitVec 4} {g : BitVec 2} {computed received : Byte} {ruleS ruleU : Prop}
    (hs : if computed ≠ received then ChecksumEnd op g computed received s s' else ruleS)
    (hu : if computed ≠ received then ChecksumEnd op g computed received u u' else ruleU)
    (word : ruleS → ruleU → Alike s u s' u') : Alike s u s' u' := by
  split at hs
  case isTrue wrong => exact start.raised_kept hs (by rwa [if_pos wrong] at hu)
  case isFalse right => exact word hs (by rwa [if_neg right] at hu)

/-- Two runs of a command whose response is one group. -/
theorem oneGroup_alike {c : Command} (ks : RunKept c s s') (ku : RunKept c u u') {op : BitVec 4} {x : Exchange}
    {ruleS ruleU : Byte → Byte → Prop}
    (hs : ExchangeRule op x s s' fun bytes => ∃ b0 b1 ck, bytes = [b0, b1, ck] ∧
      if crc8 [b0, b1] ≠ ck then ChecksumEnd op 1 (crc8 [b0, b1]) ck s s' else ruleS b0 b1)
    (hu : ExchangeRule op x u u' fun bytes => ∃ b0 b1 ck, bytes = [b0, b1, ck] ∧
      if crc8 [b0, b1] ≠ ck then ChecksumEnd op 1 (crc8 [b0, b1]) ck u u' else ruleU b0 b1)
    (word : ∀ b0 b1, ruleS b0 b1 → ruleU b0 b1 → Alike s u s' u') : Alike s u s' u' := by
  refine exchangeRule_alike start ks ku hs hu ?_
  rintro _ ⟨b0, b1, ck, rfl, checkS⟩ ⟨_, _, _, same, checkU⟩
  cases same
  exact checksum_alike start checkS checkU (word b0 b1)

/-! ### The commands -/

/-- R102. -/
theorem variantRule_alike {x : Exchange} (ks : RunKept .getVariant s s') (ku : RunKept .getVariant u u')
    (hs : VariantRule x s s') (hu : VariantRule x u u') : Alike s u s' u' := by
  have ready := ks.readyAlike ku nofun
  have passed := ks.passedAlike ku nofun
  refine oneGroup_alike start ks ku hs hu fun b0 b1 wordS wordU => ?_
  rw [← start.params] at wordU
  split at wordS
  case isTrue listed =>
    rw [if_pos listed] at wordU
    exact start.well wordS.1 wordU.1 (.of_word wordS.2 wordU.2 ready passed)
  case isFalse other =>
    rw [if_neg other] at wordU
    exact start.raised wordS.1 wordU.1 (.of_kept wordS.2 wordU.2 ready passed)

/-- R103. -/
theorem selfTestRule_alike {x : Exchange} (ks : RunKept .selfTest s s') (ku : RunKept .selfTest u u')
    (hs : SelfTestRule x s s') (hu : SelfTestRule x u u') : Alike s u s' u' := by
  have ready := ks.readyAlike ku nofun
  refine oneGroup_alike start ks ku hs hu fun b0 b1 wordS wordU => ?_
  split at wordS
  case isTrue zero =>
    rw [if_pos zero] at wordU
    obtain ⟨endS, passedS, resultsS⟩ := wordS
    obtain ⟨endU, passedU, resultsU⟩ := wordU
    exact start.well endS endU (.of_word resultsS resultsU ready (.inl (passedS.trans passedU.symm)))
  case isFalse other =>
    rw [if_neg other] at wordU
    obtain ⟨endS, passedS, resultsS⟩ := wordS
    obtain ⟨endU, passedU, resultsU⟩ := wordU
    exact start.raised endS endU (.of_kept resultsS resultsU ready (.inl (passedS.trans passedU.symm)))

/-- R104. -/
theorem drdyRule_alike {x : Exchange} (ks : RunKept .getDrdy s s') (ku : RunKept .getDrdy u u')
    (hs : DrdyRule x s s') (hu : DrdyRule x u u') : Alike s u s' u' := by
  refine oneGroup_alike start ks ku hs hu ?_
  rintro b0 b1 ⟨endS, resultsS, readyS⟩ ⟨endU, resultsU, readyU⟩
  refine start.well endS endU ?_
  constructor
  case ready => exact .inl (readyS.trans readyU.symm)
  case passed => exact ks.passedAlike ku nofun
  all_goals simp only [WroteAlike, resultsS, resultsU, and_self, or_true, true_or]

/-- R105. -/
theorem measRule_alike {x : Exchange} (ks : RunKept .readMeas s s') (ku : RunKept .readMeas u u')
    (hs : MeasRule x s s') (hu : MeasRule x u u') : Alike s u s' u' := by
  refine exchangeRule_alike start ks ku hs hu ?_
  rintro _ ⟨a0, a1, c1, b0, b1, c2, d0, d1, c3, rfl, checkS⟩ ⟨_, _, _, _, _, _, _, _, _, same, checkU⟩
  cases same
  refine checksum_alike start checkS checkU fun checkS checkU => checksum_alike start checkS checkU
    fun checkS checkU => checksum_alike start checkS checkU ?_
  rintro ⟨endS, _, _, _, resultsS⟩ ⟨endU, _, _, _, resultsU⟩
  refine start.well endS endU ?_
  constructor
  case ready => exact ks.readyAlike ku nofun
  case passed => exact ks.passedAlike ku nofun
  all_goals simp only [WroteAlike, resultsS, resultsU, and_self, or_true, true_or]

/-- R109. -/
theorem frcRule_alike {x : Exchange} (ks : RunKept .frc s s') (ku : RunKept .frc u u')
    (hs : FrcRule x s s') (hu : FrcRule x u u') : Alike s u s' u' := by
  have ready := ks.readyAlike ku nofun
  have passed := ks.passedAlike ku nofun
  refine exchangeRule_alike start ks ku hs hu ?_
  rintro _ ⟨b0, b1, ck, rfl, ruleS⟩ ⟨_, _, _, same, ruleU⟩
  cases same
  split at ruleS
  case isTrue sentinel =>
    rw [if_pos sentinel] at ruleU
    exact start.raised ruleS.1 ruleU.1 (.of_kept ruleS.2 ruleU.2 ready passed)
  case isFalse other =>
    rw [if_neg other] at ruleU
    refine checksum_alike start ruleS ruleU ?_
    rintro ⟨endS, corrS, valueS, resultsS⟩ ⟨endU, corrU, valueU, resultsU⟩
    obtain rfl : corrS = corrU := BitVec.eq_of_toInt_eq (valueS.trans valueU.symm)
    refine start.well endS endU ?_
    constructor
    case ready => exact ready
    case passed => exact passed
    all_goals simp only [WroteAlike, resultsS, resultsU, and_self, or_true, true_or]

end

/-- Two runs of one command on the same answers. -/
theorem runCommand_alike {c : Command} (hc : c.respLen ≠ 0) (target : Word) {s u s' u' : State} {a : WriteAnswer}
    {r : ReadAnswer} (start : StartAlike s u) (hs : Answers s a r) (hu : Answers u a r)
    (runS : runCommand c target s = .next s') (runU : runCommand c target u = .next u') : Alike s u s' u' := by
  have ks := runCommand_kept runS
  have ku := runCommand_kept runU
  obtain ⟨_, nextS, ruleS⟩ := runCommand_rule c target hs
  obtain ⟨_, nextU, ruleU⟩ := runCommand_rule c target hu
  cases nextS.symm.trans runS
  cases nextU.symm.trans runU
  cases c with
  | getVariant => exact variantRule_alike start ks ku ruleS ruleU
  | selfTest => exact selfTestRule_alike start ks ku ruleS ruleU
  | getDrdy => exact drdyRule_alike start ks ku ruleS ruleU
  | readMeas => exact measRule_alike start ks ku ruleS ruleU
  | frc => exact frcRule_alike start ks ku ruleS ruleU
  | measSingle => exact absurd rfl hc
  | startPeriodic => exact absurd rfl hc
  | stopPeriodic => exact absurd rfl hc

/-- Settles O33: the two runs' rules, on the same outcome of the exchange, go the same way. -/
theorem decodingDependsOnTheBytesAlone : Obligations.DecodingDependsOnTheBytesAlone := by
  unfold Obligations.DecodingDependsOnTheBytesAlone
  intro target s u s' u' a r hs hu params curOp rvalid err errInfo
  have responds : ∀ c ∈ [Command.getVariant, .selfTest, .getDrdy, .readMeas, .frc], c.respLen ≠ 0 := by decide
  show ∀ i ∈ [Command.getVariant, .selfTest, .getDrdy, .readMeas, .frc].map (Command.request target), _
  refine List.forall_mem_map.2 fun c hc runS runU => ?_
  rw [exec_request] at runS runU
  have alike := runCommand_alike (responds c hc) target ⟨params, curOp, rvalid, err, errInfo⟩ hs hu runS runU
  exact ⟨alike.rvalid, alike.err, alike.errInfo, alike.word, alike.drdy, alike.corr, alike.co2, alike.tRaw, alike.rhRaw,
    alike.ready, alike.passed⟩

end Sys2Proof.Machine
end

section
/-! Sessions on listed answers (44_session.md R130 to R142), part by part: what each part has sent, emitted, sampled and
put on the bus adds up, and S_FINAL and S_ABORT end the sum. -/

namespace Sys2Proof.Machine

/-! ### What a session has done so far -/

/-- From `s` to `u` a session has sent `frames`, emitted `readings`, taken `samples` and put `bus` on the bus, the newest
first. -/
structure SoFar (frames : List (List Byte)) (readings : List Reading) (samples : List Nat) (bus : List Event)
    (s u : State) : Prop extends Aside s u where
  frames : framesOf u.trace = frames ++ framesOf s.trace
  readings : readingsOf u.trace = readings ++ readingsOf s.trace
  samples : samplesOf u.trace = samples ++ samplesOf s.trace
  bus : OnBus bus s u

theorem SoFar.trans {fs gs : List (List Byte)} {rs qs : List Reading} {ns ms : List Nat} {b d : List Event}
    {s t u : State} (h : SoFar fs rs ns b s t) (k : SoFar gs qs ms d t u) :
    SoFar (gs ++ fs) (qs ++ rs) (ms ++ ns) (d ++ b) s u where
  toAside := h.toAside.trans k.toAside
  frames := by rw [k.frames, h.frames, List.append_assoc]
  readings := by rw [k.readings, h.readings, List.append_assoc]
  samples := by rw [k.samples, h.samples, List.append_assoc]
  bus := h.bus.trans k.bus

/-- A `goto` sends, emits and samples nothing. -/
theorem soFar_goto (l : Phase) (s : State) : SoFar [] [] [] [] s (goto l s) :=
  ⟨(sessionKept_goto s l).toKept.aside, rfl, rfl, rfl, rfl⟩

/-- S_KEEP (R137) emits the reading in all-readings mode. -/
theorem soFar_keep (s : State) :
    SoFar [] (if s.session.onlyLast then [] else [readingOf s]) [] [] s (sessionKeep s) := by
  obtain ⟨aside, _, _, _, _, frames, samples, _, readings, _, _, bus⟩ := sessionKeep_spec s
  refine ⟨aside, frames, ?_, samples, bus⟩
  rw [readings]
  split <;> rfl

theorem ReadOnce.soFar {w : Word} {k : Nat} {r : Reading} {bus : List Event} {s u : State}
    (h : ReadOnce w k r bus s u) : SoFar (frameReadMeas :: List.replicate k frameGetDrdy) [] [r.ts] bus s u :=
  ⟨h.toAside, h.frames, h.readings, h.samples, h.bus⟩

theorem PolledOnce.soFar {w : Word} {k : Nat} {bus : List Event} {s u : State} (h : PolledOnce w k bus s u) :
    SoFar (List.replicate k frameGetDrdy) [] [] bus s u :=
  ⟨h.toAside, h.frames, h.readings, h.samples, h.bus⟩

theorem PollLost.soFar {nr : List Word} {k : Nat} {bus : List Event} {s u : State} (h : PollLost nr k bus s u) :
    SoFar (List.replicate k frameGetDrdy) [] [] bus s u :=
  ⟨h.toAside, h.frames, h.readings, h.samples, h.bus⟩

theorem XactTrail.soFar {f : List Byte} {bus : List Event} {s u : State} (h : XactTrail f s u) (hb : OnBus bus s u) :
    SoFar [f] [] [] bus s u :=
  ⟨h.aside, h.frames, h.readings, h.samples, hb⟩

/-- The end of a session in S_ABORT (R140 to R142): what S_ABORT still emits comes after the readings so far. -/
theorem SoFar.abort {fs : List (List Byte)} {rs readings : List Reading} {ns : List Nat} {bus : List Event} {s u : State}
    {e : Err} {b : WriteAnswer} {ws : List WriteAnswer} (h : SoFar fs rs ns bus s u) (hw : u.env.writes = b :: ws)
    (hb : b ≠ .never) (he : e.kind ≠ .none) (hp : u.session.perr2 = .none)
    (emits : (if u.params.emitLastOnAbort ∧ u.session.onlyLast ∧ u.session.lastValid then [u.session.last] else []) ++ rs =
      readings) :
    ∃ t, sessionAbort e u = .next t ∧ samplesOf t.trace = ns ++ samplesOf s.trace ∧ ReadKept u t ∧
      AbortedWith e b readings fs bus s t := by
  obtain ⟨t, ht, samples, kept, aborted⟩ := sessionAbort_listed hw hb he hp
  rw [← emits]
  exact ⟨t, ht, samples.trans h.samples, kept, aborted.after h.toAside h.readings h.frames h.bus⟩

/-! ### At S_TEST -/

/-- The registers of a session in its loop (R131, R134), in the mode `onlyLast` and with T0 = `t0`: no error so far, and
in only-last mode the last reading `r` held. -/
structure InLoop (onlyLast : Bool) (t0 : Nat) (r : Reading) (s u : State) : Prop where
  mode : u.session.onlyLast = onlyLast
  t0 : u.session.t0 = t0
  term : u.session.term = s.term
  perr : u.session.perr = Err.absent
  perr2 : u.session.perr2 = .none
  lastValid : u.session.lastValid = onlyLast
  last : onlyLast = true → u.session.last = r

/-- What the session of `s` has at an S_TEST whose iteration read `r`, with the poll's word `w` after `k` exchanges;
`earlier` are the readings before it. -/
structure AtTest (onlyLast : Bool) (w : Word) (k t0 : Nat) (r : Reading) (earlier : List Reading)
    (frames : List (List Byte)) (samples : List Nat) (bus : List Event) (s u : State) : Prop
    extends SoFar frames (if onlyLast then [] else r :: earlier) samples bus s u where
  registers : InLoop onlyLast t0 r s u
  held : MeasHeld r u
  polled : PolledReady w k u

theorem FirstTest.atTest {onlyLast : Bool} {w : Word} {k t0 n : Nat} {r : Reading} {bus : List Event} {s u : State}
    (h : FirstTest onlyLast w k t0 n r bus s u) :
    AtTest onlyLast w k t0 r [] (frameReadMeas :: List.replicate k frameGetDrdy ++ [frameStartPeriodic]) [n, r.ts, t0]
      bus s u :=
  ⟨⟨h.toAside, h.frames, h.readings, h.samples, h.bus⟩,
    ⟨h.mode, h.t0, h.term, h.perr, h.perr2, h.lastValid, h.last⟩, h.held, h.polled⟩

section

variable {onlyLast : Bool} {w : Word} {k t0 : Nat} {r : Reading} {earlier : List Reading} {frames : List (List Byte)}
  {samples : List Nat} {bus : List Event} {s u : State}

/-- The end of a session in S_FINAL (R139 to R141): in only-last mode the last reading is emitted there. -/
theorem AtTest.final (h : AtTest onlyLast w k t0 r earlier frames samples bus s u) {b : WriteAnswer}
    {ws : List WriteAnswer} (hw : u.env.writes = b :: ws) (hb : b ≠ .never) :
    ∃ t, sessionFinal u = .next t ∧ samplesOf t.trace = samples ++ samplesOf s.trace ∧ MeasHeld r t ∧
      PolledReady w k t ∧ StoppedAfter b (r :: if onlyLast then [] else earlier) frames bus s t := by
  have registers := h.registers
  obtain ⟨t, ht, sampled, kept, stopped⟩ := sessionFinal_listed hw hb registers.perr registers.perr2
  have ended := stopped.after h.toAside h.readings h.frames h.bus
  rw [registers.mode, registers.lastValid] at ended
  refine ⟨t, ht, sampled.trans h.samples, kept.held h.held, kept.polled h.polled, ?_⟩
  cases onlyLast with
  | false => exact ended
  | true =>
    rw [registers.last rfl] at ended
    exact ended

/-- S_KEEP (R137) in the loop: in only-last mode the new reading is the held one. -/
theorem InLoop.keep (h : InLoop onlyLast t0 r s u) {r' : Reading} {v : State}
    (hv : v.session =
      if u.session.onlyLast then { u.session with last := r', lastValid := true } else u.session) :
    InLoop onlyLast t0 r' s v := by
  obtain ⟨mode, hT0, term, perr, perr2, lastValid, _⟩ := h
  rw [mode] at hv
  cases onlyLast with
  | false =>
    rw [if_neg Bool.false_ne_true] at hv
    constructor <;> simp [*]
  | true =>
    rw [if_pos rfl] at hv
    constructor <;> simp [*]

/-- A further iteration (R135 to R138), up to its S_TEST: it reads `r'`, and the sample `n` decides. -/
theorem AtTest.again (h : AtTest onlyLast w k t0 r earlier frames samples bus s u) {j m : Nat} {v w1 w2 w3 : Word}
    {pw ws : List WriteAnswer} {pr rs : List ReadAnswer} (hl : ReadyPoll v m pw pr)
    (hw : u.env.writes = pw ++ .ok 2 :: ws)
    (hr : u.env.reads = pr ++ .ok (validGroup w1 ++ validGroup w2 ++ validGroup w3) :: rs) :
    ∃ u' ts n, sessionPoll (j + 1) (goto .sPoll u) =
        (if n > t0 + s.term ∨ u'.shutdown = true then sessionFinal u' else sessionPoll j (goto .sPoll u')) ∧
      AtTest onlyLast v m t0 { ts := ts, co2 := w1, tRaw := w2, rhRaw := w3 } (r :: earlier)
        (frameReadMeas :: List.replicate m frameGetDrdy ++ frames) ([n, ts] ++ samples)
        (iterationEvents s.params (pw.zip pr) (.ok 2) (.ok (validGroup w1 ++ validGroup w2 ++ validGroup w3)) ++ bus)
        s u' ∧
      Turns (2 * m + 1) u u' ∧ u.clock.afterXact ≤ ts ∧ ts ≤ n ∧ u'.clock.afterXact = n + 1 ∧ u'.env.writes = ws := by
  obtain ⟨v1, ts, poll, read, writes1, _⟩ := sessionPoll_read (n := j) (s := goto .sPoll u) hl hw hr
  obtain ⟨_, writes2, _, least2, _, _, _, session2, _, kept2, turns2, _⟩ := sessionKeep_spec v1
  obtain ⟨u', n, test, aside, session3, writes3, _, frames3, readings3, samples3, least3, after, kept3, turns3, bus3⟩ :=
    sessionTest_spec (sessionPoll j) (sessionKeep v1)
  have tested : SoFar [] [] [n] [] (sessionKeep v1) u' := ⟨aside, frames3, readings3, samples3, bus3⟩
  have far := (((h.toSoFar.trans (soFar_goto .sPoll u)).trans read.soFar).trans (soFar_keep v1)).trans tested
  have session1 : v1.session = u.session := read.session
  rw [session1] at session2
  have registers : InLoop onlyLast t0 _ s u' := h.registers.keep (session3.trans session2)
  have kept : ReadKept v1 u' := kept2.trans kept3
  have hp : (goto .sPoll u).params = s.params := h.params
  have hread : readingOf v1 = { ts := ts, co2 := w1, tRaw := w2, rhRaw := w3 } := read.held.1
  rw [hp, session1, h.registers.mode, hread] at far
  rw [hread] at registers
  have turns : Turns (0 + 2 * m + (0 + 1)) u u' :=
    ((Turns.of_eq (t := goto .sPoll u) rfl rfl rfl).trans read.turns).trans (turns2.trans turns3)
  rw [Nat.zero_add, Nat.zero_add] at turns
  have least1 : v1.least = ts := read.least
  refine ⟨u', ts, n, ?decides, ⟨?sum, registers, kept.held read.held, kept.polled read.polled⟩, turns, read.later,
    least1 ▸ least2 ▸ least3, after, writes3.trans (writes2.trans writes1)⟩
  case decides => rw [poll, test, ← session3, registers.t0, registers.term]
  case sum => cases onlyLast <;> exact far

end

/-! ### Sessions without an error -/

/-- The first answers of a poll that ends READY. -/
theorem ReadyPoll.writes {w : Word} {k : Nat} {pw : List WriteAnswer} {pr : List ReadAnswer}
    (h : ReadyPoll w k pw pr) : ∃ rest, pw = .ok 2 :: rest := by
  obtain ⟨nr, _, _, _, rfl, rfl, _⟩ := h
  exact ⟨_, List.replicate_succ⟩

/-- However a session goes on, its samples come after those so far. -/
theorem SessionEnd.samples {n : Nat} {u t : State} (h : SessionEnd n u t) :
    ∃ more, samplesOf t.trace = more ++ samplesOf u.trace := by
  obtain ⟨evs, trace⟩ := h.trace
  exact ⟨samplesOf evs, by rw [trace, samplesOf_append]⟩

/-- A session that goes on ends, while its bound leaves room for its clock (log entry 23). -/
theorem AtTest.goesOn {onlyLast : Bool} {w : Word} {k t0 : Nat} {r : Reading} {earlier : List Reading}
    {frames : List (List Byte)} {samples : List Nat} {bus : List Event} {s u : State}
    (h : AtTest onlyLast w k t0 r earlier frames samples bus s u) {n : Nat} (hn : 1 ≤ n)
    (room : t0 + s.term + 2 ≤ n + u.clock.afterXact) :
    ∃ t more, sessionPoll n (goto .sPoll u) = .next t ∧
      samplesOf t.trace = more ++ (samples ++ samplesOf s.trace) := by
  rw [← h.registers.t0, ← h.registers.term] at room
  obtain ⟨t, run, ends⟩ := sessionPoll_end n (goto .sPoll u) hn room
  obtain ⟨more, sampled⟩ := ends.samples
  exact ⟨t, more, run, sampled.trans (congrArg (more ++ ·) h.samples)⟩

/-- Settles O39: at the first S_TEST the term is over, as the sample lies past T0 = T0 + TERM, or SHUTDOWN is 1. -/
theorem oneIterationSession : Obligations.OneIterationSession := by
  unfold Obligations.OneIterationSession
  intro onlyLast s b ws pw rs pr k w w1 w2 w3 ends hl hb hw hr
  obtain ⟨u, t0, ts, n, run, first, writes, _⟩ := session_firstTest onlyLast hl hw hr
  have stop : n > t0 + s.term ∨ u.shutdown = true := by
    refine ends.imp (fun term => ?_) first.turns.shutdown.1
    have order : t0 < ts ∧ ts ≤ n := first.order
    omega
  obtain ⟨t, final, _, held, polled, stopped⟩ := first.atTest.final writes hb
  rw [if_pos stop, final] at run
  rw [ite_self] at stopped
  exact ⟨t, ts, run, held, polled, stopped⟩

/-- Settles O40: at each of the first two S_TESTs the session ends, or goes on with a later clock. -/
theorem sessionLoopsWithinItsTerm : Obligations.SessionLoopsWithinItsTerm := by
  unfold Obligations.SessionLoopsWithinItsTerm
  intro onlyLast s b ws pw qw rs pr qr k m w w1 w2 w3 v v1 v2 v3 on hl hl' hb hw hr
  obtain ⟨u, t0, ts1, n1, run, first, writes, reads⟩ := session_firstTest onlyLast hl hw hr
  have noShutdown : ¬ u.shutdown = true := fun h => on (first.turns.shutdown.2 h)
  by_cases past : t0 + s.term < n1
  case pos =>
    obtain ⟨rest, poll⟩ := hl'.writes
    rw [poll] at writes
    obtain ⟨t, final, samples, held, polled, stopped⟩ := first.atTest.final writes nofun
    rw [if_pos (.inl past), final] at run
    rw [ite_self] at stopped
    exact ⟨t, t0, ts1, n1, [], run, samples, fun _ => ⟨rfl, held, polled, stopped⟩, fun h => absurd past (by omega)⟩
  case neg =>
    rw [if_neg (not_or.2 ⟨past, noShutdown⟩)] at run
    obtain ⟨u', ts2, n2, again, second, turns, later, order, after, writes'⟩ :=
      first.atTest.again (j := t0 + s.term) hl' writes reads
    rw [first.afterXact] at later
    rw [again] at run
    have total : Turns (2 * k + 2 * m + 3) s u' := by
      rw [show 2 * k + 2 * m + 3 = 2 * k + 2 + (2 * m + 1) by omega]
      exact first.turns.trans turns
    by_cases stop : n2 > t0 + s.term ∨ u'.shutdown = true
    case pos =>
      obtain ⟨t, final, samples, held, polled, stopped⟩ := second.final writes' hb
      rw [if_pos stop, final] at run
      rw [← List.append_assoc (_ :: _), ← List.append_assoc (iterationEvents ..)] at stopped
      exact ⟨t, t0, ts1, n1, [n2, ts2], run, samples, fun h => absurd h past,
        fun _ => ⟨ts2, n2, [], rfl, later, fun _ => ⟨rfl, held, polled, stopped⟩⟩⟩
    case neg =>
      have first' : t0 < ts1 ∧ ts1 ≤ n1 := first.order
      have within : n2 ≤ t0 + s.term := Nat.not_lt.1 fun h => stop (.inl h)
      obtain ⟨t, more, goesOn, samples⟩ := second.goesOn (n := t0 + s.term) (by omega) (by omega)
      rw [if_neg stop, goesOn] at run
      refine ⟨t, t0, ts1, n1, more ++ [n2, ts2], run, ?_, fun h => absurd h past, fun _ => ⟨ts2, n2, more, rfl, later,
        fun h => absurd (h.imp_right total.shutdown.1) stop⟩⟩
      rw [samples]
      simp

/-! ### Iterations that fail -/

/-- What a failed iteration of the loop leaves at S_ABORT's entry (R135, R136), with the write answers `ws` not taken: no
reading, no sample, and the session's and the measurement's registers as they were. -/
structure IterationLost (frames : List (List Byte)) (bus : List Event) (ws : List WriteAnswer) (s u : State) : Prop
    extends SoFar frames [] [] bus s u where
  session : u.session = s.session
  meas : MeasKept s u
  writes : u.env.writes = ws

/-- The answers `pw` and `pr` make an iteration fail with the error `e`, from every state and for every bound on the loop;
`polled` tells the poll's registers before it and at S_ABORT. -/
def FailingIteration (e : Err) (frames : List (List Byte)) (bus : Params → List Event) (pw : List WriteAnswer)
    (pr : List ReadAnswer) (polled : State → State → Prop) : Prop :=
  ∀ (n : Nat) (s : State) (ws : List WriteAnswer) (rs : List ReadAnswer), s.env.writes = pw ++ ws → s.env.reads = pr ++ rs →
    ∃ u, sessionPoll (n + 1) s = sessionAbort e u ∧ IterationLost frames (bus s.params) ws s u ∧ polled s u

/-- An iteration whose poll fails (R135). -/
theorem FailingPoll.iteration {e : Err} {nr : List Word} {k : Nat} {pw : List WriteAnswer} {pr : List ReadAnswer}
    (hl : FailingPoll e nr k pw pr) :
    FailingIteration e (List.replicate k frameGetDrdy) (fun p => pollEvents p (pw.zip pr)) pw pr (PolledFailed nr k) := by
  intro n s ws rs hw hr
  obtain ⟨u, run, lost, writes⟩ := sessionPoll_failed (n := n) hl hw hr
  exact ⟨u, run, ⟨lost.soFar, lost.session, lost.meas, writes⟩, lost.polled⟩

/-- An iteration whose read fails after a good poll (R136). -/
theorem ReadyPoll.failingRead {w : Word} {k : Nat} {pw : List WriteAnswer} {pr : List ReadAnswer} {a : WriteAnswer}
    {r : ReadAnswer} {e : Err} (hl : ReadyPoll w k pw pr) (he : exchangeFailure 0x5#4 (exchangeOf 2 9 a r) = some e) :
    FailingIteration e (frameReadMeas :: List.replicate k frameGetDrdy) (fun p => iterationEvents p (pw.zip pr) a r)
      (pw ++ [a]) (pr ++ [r]) fun _ => PolledReady w k := by
  intro n s ws rs hw hr
  rw [List.append_assoc] at hw hr
  obtain ⟨v, run, ready, writes, reads⟩ := sessionPoll_polled (n := n) hl hw hr
  obtain ⟨u, read, trail, writes, bus⟩ := readMeasLines_failed he writes reads
  rw [ready.params] at bus
  have kept : ReadKept v u := trail.same.readKept
  refine ⟨u, by rw [run, read]; rfl, ⟨ready.soFar.trans (trail.soFar bus), trail.same.session.trans ready.session,
    ready.meas.trans kept.meas, writes⟩, kept.polled ready.polled⟩

/-! ### Sessions with an error -/

/-- A session whose start is good and whose first iteration fails: from `u`, in the loop, to `v`, in S_ABORT. -/
theorem session_firstLost (onlyLast : Bool) {s : State} {e : Err} {frames : List (List Byte)} {bus : Params → List Event}
    {b : WriteAnswer} {pw ws : List WriteAnswer} {pr rs : List ReadAnswer} {polled : State → State → Prop}
    (fails : FailingIteration e frames bus pw pr polled) (he : e.kind ≠ .none) (hb : b ≠ .never)
    (hw : s.env.writes = .ok 2 :: (pw ++ b :: ws)) (hr : s.env.reads = pr ++ rs) :
    ∃ t u v, exec (.session onlyLast) s = .next t ∧ ReadKept s u ∧ polled u v ∧ ReadKept v t ∧ MeasKept s t ∧
      AbortedWith e b [] (frames ++ [frameStartPeriodic]) (bus s.params ++ startEvents s.params (.ok 2)) s t := by
  obtain ⟨u, start, aside, writes, reads, session, frames0, readings0, samples0, _, kept0, _, bus0⟩ :=
    sessionStart_listed onlyLast hw
  obtain ⟨v, poll, lost, ended⟩ := fails (u.session.t0 + u.session.term + 1) u (b :: ws) rs writes (reads.trans hr)
  have started : SoFar [frameStartPeriodic] [] [u.session.t0] (startEvents s.params (.ok 2)) s u :=
    ⟨aside, frames0, readings0, samples0, bus0⟩
  have far := started.trans lost.toSoFar
  rw [aside.params] at far
  have registers := lost.session.trans session
  obtain ⟨t, abort, _, kept, aborted⟩ := far.abort (readings := []) lost.writes hb he (by rw [registers])
    (by simp [registers])
  exact ⟨t, u, v, by rw [start, poll, abort], kept0, ended, kept, (kept0.meas.trans lost.meas).trans kept.meas, aborted⟩

/-- The readings of a session that S_ABORT ends with the last reading held (R142). -/
theorem InLoop.emits {onlyLast : Bool} {t0 : Nat} {r : Reading} {s u : State} (h : InLoop onlyLast t0 r s u)
    (emit : Bool) :
    (if emit ∧ u.session.onlyLast ∧ u.session.lastValid then [u.session.last] else []) ++ (if onlyLast then [] else [r]) =
      if onlyLast && !emit then [] else [r] := by
  rw [h.mode, h.lastValid]
  cases onlyLast with
  | false => simp
  | true => cases emit <;> simp [h.last rfl]

/-- A session whose first iteration is good and whose second one fails, where the first S_TEST goes on: from `u`, at S_TEST,
to `v`, in S_ABORT. -/
theorem session_secondLost (onlyLast : Bool) {s : State} {e : Err} {frames : List (List Byte)} {bus : Params → List Event}
    {b : WriteAnswer} {pw qw ws : List WriteAnswer} {pr qr rs : List ReadAnswer} {polled : State → State → Prop} {k : Nat}
    {w w1 w2 w3 : Word} (fails : FailingIteration e frames bus qw qr polled) (he : e.kind ≠ .none) (hb : b ≠ .never)
    (on : ¬ ShutdownWithin (2 * k + 2) s) (hl : ReadyPoll w k pw pr)
    (hw : s.env.writes = .ok 2 :: (pw ++ .ok 2 :: (qw ++ b :: ws)))
    (hr : s.env.reads = pr ++ .ok (validGroup w1 ++ validGroup w2 ++ validGroup w3) :: (qr ++ rs)) :
    ∃ t t0 ts n later, exec (.session onlyLast) s = .next t ∧
      samplesOf t.trace = later ++ [n, ts, t0] ++ samplesOf s.trace ∧
      (n ≤ t0 + s.term → later = [] ∧ MeasHeld { ts := ts, co2 := w1, tRaw := w2, rhRaw := w3 } t ∧
        (∃ u v, PolledReady w k u ∧ polled u v ∧ ReadKept v t) ∧
        AbortedWith e b
          (if onlyLast && !s.params.emitLastOnAbort then [] else [{ ts := ts, co2 := w1, tRaw := w2, rhRaw := w3 }])
          (frames ++ frameReadMeas :: List.replicate k frameGetDrdy ++ [frameStartPeriodic])
          (bus s.params ++ iterationEvents s.params (pw.zip pr) (.ok 2)
            (.ok (validGroup w1 ++ validGroup w2 ++ validGroup w3)) ++ startEvents s.params (.ok 2)) s t) := by
  obtain ⟨u, t0, ts, n, run, first, writes, reads⟩ := session_firstTest onlyLast hl hw hr
  have noShutdown : ¬ u.shutdown = true := fun h => on (first.turns.shutdown.2 h)
  by_cases past : n > t0 + s.term
  case pos =>
    rw [if_pos (.inl past)] at run
    obtain ⟨t, final, ends⟩ := sessionFinal_end u
    obtain ⟨later, samples⟩ := ends.samples
    refine ⟨t, t0, ts, n, later, run.trans final, ?_, fun h => absurd past (by omega)⟩
    rw [samples, first.samples, List.append_assoc]
  case neg =>
    rw [if_neg (not_or.2 ⟨past, noShutdown⟩)] at run
    obtain ⟨v, poll, lost, ended⟩ := fails (t0 + s.term) (goto .sPoll u) (b :: ws) rs writes reads
    have far := (first.atTest.toSoFar.trans (soFar_goto .sPoll u)).trans lost.toSoFar
    have hp : (goto .sPoll u).params = s.params := first.params
    have session : v.session = u.session := lost.session
    have emits := first.atTest.registers.emits v.params.emitLastOnAbort
    rw [← session] at emits
    rw [hp] at far
    obtain ⟨t, abort, samples, kept, aborted⟩ := far.abort lost.writes hb he (by rw [session, first.perr2]) emits
    rw [far.params] at aborted
    rw [List.append_assoc frames, List.append_assoc (bus s.params)]
    exact ⟨t, t0, ts, n, [], by rw [run, poll, abort], samples, fun _ => ⟨rfl, (lost.meas.trans kept.meas).held first.held,
      ⟨goto .sPoll u, v, first.polled, ended, kept⟩, aborted⟩⟩

/-- Settles O41: the first iteration's read fails. -/
theorem failedFirstReadEmitsNothing : Obligations.FailedFirstReadEmitsNothing := by
  unfold Obligations.FailedFirstReadEmitsNothing
  intro onlyLast s a b r ws pw rs pr k w e hl hb he hw hr
  obtain ⟨t, u, v, run, _, polled, kept, meas, aborted⟩ := session_firstLost (ws := ws) (rs := rs) onlyLast
    (hl.failingRead he) (exchangeFailure_kind he) hb (by simpa using hw) (by simpa using hr)
  exact ⟨t, run, meas, kept.polled polled, aborted⟩

/-- Settles O42: the first iteration's poll fails, or the second iteration's poll or read. -/
theorem failedPollOrLaterReadAborts : Obligations.FailedPollOrLaterReadAborts := by
  unfold Obligations.FailedPollOrLaterReadAborts
  intro onlyLast s b ws pw qw rs pr qr k m e nr hb
  refine ⟨fun hl hw hr => ?firstPoll, fun w w1 w2 w3 on hl => ⟨fun hl' hw hr => ?secondPoll,
    fun v a r hl' he hw hr => ?secondRead⟩⟩
  case firstPoll =>
    obtain ⟨t, u, v, run, kept0, ⟨poll, last⟩, kept, meas, aborted⟩ :=
      session_firstLost onlyLast hl.iteration hl.kind hb hw hr
    exact ⟨t, run, ⟨kept.poll.trans poll, (last.since kept0).kept kept⟩, meas, aborted⟩
  case secondPoll =>
    obtain ⟨t, t0, ts, n, later, run, samples, goesOn⟩ :=
      session_secondLost onlyLast hl'.iteration hl'.kind hb on hl hw hr
    refine ⟨t, t0, ts, n, later, run, samples, fun h => ?_⟩
    obtain ⟨nothing, held, ⟨u, v, ready, ⟨poll, last⟩, kept⟩, aborted⟩ := goesOn h
    obtain ⟨_, _, hz, _⟩ := hl
    exact ⟨nothing, ⟨kept.poll.trans poll, (LastAnswer.cons (ready.queried hz) last).kept kept⟩, held, aborted⟩
  case secondRead =>
    obtain ⟨t, t0, ts, n, later, run, samples, goesOn⟩ := session_secondLost (ws := ws) (rs := rs) onlyLast
      (hl'.failingRead he) (exchangeFailure_kind he) hb on hl (by simpa using hw) (by simpa using hr)
    refine ⟨t, t0, ts, n, later, run, samples, fun h => ?_⟩
    obtain ⟨nothing, held, ⟨u, v, _, polled, kept⟩, aborted⟩ := goesOn h
    exact ⟨nothing, held, kept.polled polled, aborted⟩

end Sys2Proof.Machine
end

section
/-! How POLL_READY ends (43_polling.md R121 to R127): the two ends of its lines as ends of the request, its counts of
exchanges, delays and attempts, and its end on listed answers. -/

namespace Sys2Proof.Machine

/-! ### The ends of the request -/

/-- POLL_READY is its lines from their entry on, and the end that they decide (R127). -/
theorem exec_pollReady {s : State} {r : Res Unit} (lines : pollFrom 10 (nextAttempt (pollEntry s)) = r) :
    exec .pollReady s = finishResult r :=
  congrArg finishResult ((pollLines_eq s).trans lines)

/-- A completion after the lines of a poll. -/
theorem Called.endedWell {s u : State} (h : Called (nextAttempt (pollEntry s)) u) :
    EndedWell true s (complete u.setRvalid) :=
  have whole := (called_entry s).trans h
  endedWell_complete whole.err whole.errInfo rfl

/-- A raise out of the lines of a poll. -/
theorem Called.endedWith {s u : State} {e : Err} (h : Called (nextAttempt (pollEntry s)) u) (he : e.kind ≠ .none) :
    EndedWith e (ctxOf s) .none (raiseTop e u) :=
  endedWith_raiseTop he ((called_entry s).trans h).curOp

/-! ### The counts -/

/-- A poll of `k` exchanges from its entry: ATTEMPT, the frames sent, and one delay fewer than exchanges (R126). -/
theorem Polled.counts {k : Nat} {s u : State} (h : Polled k (nextAttempt (pollEntry s)) u) (hk : 1 ≤ k) :
    u.poll.attempt = BitVec.ofNat 4 k ∧ framesOf u.trace = List.replicate k frameGetDrdy ++ framesOf s.trace ∧
      pollDelays u.trace = pollDelays s.trace + (k - 1) := by
  obtain ⟨j, rfl⟩ : ∃ j, k = j + 1 := ⟨k - 1, by omega⟩
  exact ⟨congrArg PollRegs.attempt h.attempted, h.frames, h.delays⟩

/-- Settles O34, by the four ways in which the poll's lines end. -/
theorem pollEndsReadyOrFailed : Obligations.PollEndsReadyOrFailed := by
  unfold Obligations.PollEndsReadyOrFailed
  intro s _
  rcases pollFrom_cases 10 (nextAttempt (pollEntry s)) with
    ⟨k, u, h1, hk, lines, polled, pstate, ready, _, _⟩ | ⟨u, lines, polled, pstate, ready, _, time⟩ |
    ⟨k, e, u, h1, hk, lines, kind, op, polled, pstate, _⟩ | ⟨k, u, h1, hk, lines, polled, pstate, silent, phase⟩
  case inl =>
    obtain ⟨attempt, frames, delays⟩ := polled.counts h1
    exact ⟨_, k, exec_pollReady lines, h1, hk, attempt, frames, delays,
      .inr (.inl ⟨pstate, polled.toCalled.endedWell, ready⟩)⟩
  case inr.inl =>
    obtain ⟨attempt, frames, delays⟩ := polled.counts (by decide)
    exact ⟨_, 11, exec_pollReady lines, by decide, by decide, attempt, frames, delays,
      .inr (.inr (.inl ⟨pstate, rfl, polled.toCalled.endedWith nofun, ready, time⟩))⟩
  case inr.inr.inl =>
    obtain ⟨attempt, frames, delays⟩ := polled.counts h1
    have he : e.kind ≠ .none := by rcases kind with h | h <;> simp [h]
    exact ⟨_, k, exec_pollReady lines, h1, hk, attempt, frames, delays,
      .inr (.inr (.inr ⟨pstate, e, kind, op, polled.toCalled.endedWith he⟩))⟩
  case inr.inr.inr =>
    obtain ⟨attempt, frames, delays⟩ := polled.counts h1
    exact ⟨u, k, exec_pollReady lines, h1, hk, attempt, frames, delays,
      .inl ⟨pstate, silent, polled.busy, polled.curOp, phase⟩⟩

/-! ### Listed answers -/

/-- A poll on listed answers that end READY, from its entry: the lines' end, and the registers and the bus there. -/
theorem ReadyPoll.lines {w : Word} {k : Nat} {s : State} {pw ws : List WriteAnswer} {pr rs : List ReadAnswer}
    (hl : ReadyPoll w k pw pr) (hw : s.env.writes = pw ++ ws) (hr : s.env.reads = pr ++ rs) :
    ∃ u, pollFrom 10 (nextAttempt (pollEntry s)) = .ok () u ∧ Called (nextAttempt (pollEntry s)) u ∧ PolledReady w k u ∧
      OnBus (pollEvents s.params (pw.zip pr)) s u := by
  obtain ⟨nr, notReady, ready, length, rfl, rfl, rfl⟩ := hl
  obtain ⟨u, lines, polled, pstate, ⟨word, wordWritten, drdy, drdyWritten, flag⟩, _, _, _, _, _, bus⟩ :=
    pollFrom_ready_listed nr 10 (nextAttempt (pollEntry s)) notReady ready length hw hr
  have registers := polled.attempted
  rw [pstate] at registers
  exact ⟨u, lines, polled.toCalled,
    ⟨registers, word, wordWritten, drdy, drdyWritten, flag.trans (decide_eq_true ready)⟩, bus⟩

/-- A poll that fails has made an exchange. -/
theorem FailingPoll.one_le {e : Err} {nr : List Word} {k : Nat} {pw : List WriteAnswer} {pr : List ReadAnswer}
    (hl : FailingPoll e nr k pw pr) : 1 ≤ k := by
  obtain ⟨-, ⟨_, _, _, _, rfl, _⟩ | ⟨_, _, rfl, _⟩⟩ := hl
  · exact Nat.le_add_left 1 _
  · decide

/-- Settles O35: the listed answers decide how the lines end, and the request's end leaves what they wrote. -/
theorem pollCountsItsAnswers : Obligations.PollCountsItsAnswers := by
  unfold Obligations.PollCountsItsAnswers
  intro s k pw ws pr rs hw hr
  refine ⟨fun w hl => ?ready, fun e nr hl => ?failed⟩
  case ready =>
    obtain ⟨u, lines, called, polled, bus⟩ := hl.lines hw hr
    exact ⟨_, exec_pollReady lines, called.endedWell, polled, bus⟩
  case failed =>
    obtain ⟨u, lines, _, failed⟩ := pollFrom_failing (s := nextAttempt (pollEntry s)) hl hw hr
    obtain ⟨j, rfl⟩ : ∃ j, k = j + 1 := ⟨k - 1, (Nat.sub_add_cancel hl.one_le).symm⟩
    exact ⟨_, exec_pollReady lines, failed.toCalled.endedWith hl.kind, failed.registers, failed.bus⟩

end Sys2Proof.Machine
end

section
/-! The observer of 44_session.md R143: what each of its moves does where it stands, and why none takes it past its wait
while a session is on. -/

namespace Sys2Proof.Machine

/-! ### Its moves -/

section

variable {s : State}

/-- The first line of R143 sets SHUTDOWN. -/
theorem observerMove_setShutdown_resting (h : s.env.observer = .resting) : observerMove .setShutdown s =
    { s with shutdown := true, env := { s.env with observer := .waiting }, trace := .shutdownSet :: s.trace } := by
  simp only [observerMove, h]
  rfl

theorem observerMove_check_resting (h : s.env.observer = .resting) : observerMove .check s = s := by
  simp only [observerMove, h]

theorem observerMove_setShutdown_waiting (h : s.env.observer = .waiting) : observerMove .setShutdown s = s := by
  simp only [observerMove, h]

theorem observerMove_passed (h : s.env.observer = .passed) (m : ObserverMove) : observerMove m s = s := by
  cases m <;> simp only [observerMove, h]

/-- A test of R143's loop records MEASURING and passes just when it is 0. -/
theorem observerMove_check_waiting (h : s.env.observer = .waiting) : observerMove .check s =
    { s with
      env := { s.env with observer := if s.measuring then .waiting else .passed }
      trace := .observerSaw s.measuring :: s.trace } := by
  simp only [observerMove, h]
  cases measuring : s.measuring with
  | false => rfl
  | true =>
    rw [if_pos rfl, if_pos rfl, ← h, ← measuring]
    rfl

end

/-- Settles O44, by the move and by where the observer stands. (`observerMoves` is a function of the model.) -/
theorem observerMovesFollowTheirRule : Obligations.ObserverMoves := by
  unfold Obligations.ObserverMoves
  exact ⟨fun s h => ⟨observerMove_setShutdown_resting h, observerMove_check_resting h⟩,
    fun s h => observerMove_setShutdown_waiting h, fun s h => ⟨observerMove_passed h _, observerMove_passed h _⟩,
    fun s h => observerMove_check_waiting h⟩

/-! ### Its wait -/

/-- Settles O43: a session sets MEASURING at its entry, and from there on no move of the observer takes it past its wait
until S_EXIT's write. -/
theorem observerWaitsForTheSession : Obligations.ObserverWaitsForTheSession := by
  unfold Obligations.ObserverWaitsForTheSession
  refine ⟨fun m s => (observerMove_only m s).waiting, fun onlyLast s t h => ?_⟩
  have measuring : (sessionEntry onlyLast s).measuring = true := rfl
  exact (execSession_left h).waiting measuring

end Sys2Proof.Machine
end

section
/-! How every session ends (44_session.md R140, R141, R146), and one whose start fails (R133). -/

namespace Sys2Proof.Machine

/-- Settles O37: from its entry on, where MEASURING is 1, a session stays in flight, or ends with one stop frame. -/
theorem sessionEndsWithOneStop : Obligations.SessionEndsWithOneStop := by
  unfold Obligations.SessionEndsWithOneStop
  intro onlyLast s _
  obtain ⟨t, run, session⟩ := execSession_end onlyLast s
  refine ⟨t, run, session.ends.imp ?inFlight ?ended⟩
  case inFlight => exact fun ⟨inFlight, measuring, _⟩ => ⟨inFlight, measuring⟩
  case ended => exact fun ⟨ended, measuring, _, stops, _⟩ => ⟨ended, measuring, stops⟩

/-! ### A start that fails -/

/-- A session's entry (R131) sends, emits and samples nothing. -/
theorem soFar_entry (onlyLast : Bool) (s : State) : SoFar [] [] [] [] s (sessionEntry onlyLast s) :=
  ⟨⟨rfl, rfl, rfl, id, .of_eq rfl rfl⟩, rfl, rfl, rfl, rfl⟩

/-- A write of PHASE sends, emits and samples nothing. -/
theorem soFar_setPhase (s : State) (p : Phase) : SoFar [] [] [] [] s (s.setPhase p) :=
  ⟨(sessionKept_setPhase s p).toKept.aside, rfl, rfl, rfl, rfl⟩

/-- A write of PERR sends, emits and samples nothing. -/
theorem soFar_setPerr (s : State) (e : Err) : SoFar [] [] [] [] s (s.setPerr e) :=
  ⟨(sessionKept_setPerr s e).toKept.aside, rfl, rfl, rfl, rfl⟩

/-- A session that comes to S_STOP with an error in PERR alone reports it, and a failed stop in KIND2 (R140). -/
theorem Stopped.aborted {b : WriteAnswer} {s t : State} (h : Stopped b s t) (he : s.session.perr.kind ≠ .none)
    (hp : s.session.perr2 = .none) : AbortedWith s.session.perr b [] [] [] s t := by
  have ended := h.failed he
  rw [hp] at ended
  exact ⟨ended, h.measuring, h.readings, h.frames, (List.append_nil _).symm ▸ h.bus⟩

/-- What a session has done when its start has failed (R133), before S_STOP: one write on the bus, the error in PERR, and no
register of polls and reads. -/
structure StartLost (a : WriteAnswer) (e : Err) (s u : State) : Prop
    extends SoFar [frameStartPeriodic] [] [] (startEvents s.params a) s u where
  kept : ReadKept s u
  perr : u.session.perr = e
  perr2 : u.session.perr2 = .none

/-- The start of a session on a listed write answer that fails it (R133): S_STOP is next. -/
theorem sessionStart_failed (onlyLast : Bool) {s : State} {a : WriteAnswer} {ws : List WriteAnswer} {info : Word}
    (hw : s.env.writes = a :: ws) (ha : exchangeOf 2 0 a .err = .failed info) :
    ∃ u, exec (.session onlyLast) s = sessionStop u ∧ StartLost a (transportErr 0x7#4 info) s u ∧ u.env.writes = ws := by
  have answered : a ≠ .never := by
    rintro rfl
    cases ha
  rcases xact_write_listed (c := .startPeriodic) (f := frameStartPeriodic)
      (s := (sessionEntry onlyLast s).setPhase .sStart) rfl hw answered with
    ⟨hx, _⟩ | ⟨info', hx, t, lines, trail, writes, _, bus⟩
  case inl => cases ha.symm.trans hx
  case inr =>
    cases ha.symm.trans hx
    have entered := (soFar_entry onlyLast s).trans (soFar_setPhase _ .sStart)
    have far : SoFar [frameStartPeriodic] [] [] (startEvents s.params a ++ []) s (t.setPerr (transportErr 0x7#4 info)) :=
      (entered.trans (trail.toXactTrail.soFar bus)).trans (soFar_setPerr t _)
    rw [List.append_nil] at far
    have session : t.session = (sessionEntry onlyLast s).session := trail.same.session
    have kept : ReadKept ((sessionEntry onlyLast s).setPhase .sStart) t := trail.same.readKept
    refine ⟨t.setPerr (transportErr 0x7#4 info), ?run, ⟨far, ⟨kept.poll, kept.results, kept.ready⟩, rfl, ?perr2⟩, writes⟩
    case run => exact congrArg sessionAfterStart lines
    case perr2 => exact congrArg SessionRegs.perr2 session

/-- Settles O38: from the failed start the session goes to its stop, which ends it. -/
theorem failedStartIsReportedFirst : Obligations.FailedStartIsReportedFirst := by
  unfold Obligations.FailedStartIsReportedFirst
  intro onlyLast s a b ws info hw ha hb
  obtain ⟨u, start, lost, writes⟩ := sessionStart_failed onlyLast hw ha
  obtain ⟨t, stop, stopped⟩ := sessionStop_listed writes hb
  have kept := lost.kept.trans stopped.regs
  have aborted := stopped.aborted (by rw [lost.perr]; nofun) lost.perr2
  rw [lost.perr] at aborted
  exact ⟨t, start.trans stop, kept.results, kept.pollKept, stopped.samples.trans lost.samples,
    aborted.after lost.toAside lost.readings lost.frames lost.bus⟩

end Sys2Proof.Machine
end

section
/-! The clock's laws (60_exceptions.md R160): what keeps the order of the samples, and what a completed transaction
adds. -/

namespace Sys2Proof.Machine

/-! ### Progress and the clock -/

/-- From `s` to `t` the clock does not go back, and the bound on the samples so far holds if it did. -/
structure ClockKept (s t : State) : Prop where
  params : t.params = s.params
  later : s.clock.Le t.clock
  sampled : Sampled s → Sampled t

/-- From `s` to `t` the clock does not go back, and no sample is taken. -/
structure Unsampled (s t : State) : Prop where
  params : t.params = s.params
  later : s.clock.Le t.clock
  afterXact : t.clock.afterXact = s.clock.afterXact
  samples : samplesOf t.trace = samplesOf s.trace

theorem ClockKept.trans {s t u : State} (h : ClockKept s t) (k : ClockKept t u) : ClockKept s u :=
  ⟨k.params.trans h.params, h.later.trans k.later, k.sampled ∘ h.sampled⟩

/-- The earliest lawful sample never goes down. -/
theorem ClockKept.least {s t : State} (h : ClockKept s t) : s.least ≤ t.least := least_le h.params h.later

theorem Unsampled.clockKept {s t : State} (h : Unsampled s t) : ClockKept s t :=
  ⟨h.params, h.later, sampled_of_eq h.samples h.afterXact⟩

/-- A state with the same parameters, clock and events. -/
theorem Unsampled.of_eq {s t : State} (params : t.params = s.params) (clock : t.clock = s.clock)
    (trace : t.trace = s.trace) : Unsampled s t :=
  ⟨params, .of_eq clock, congrArg Clock.afterXact clock, congrArg samplesOf trace⟩

theorem unsampled_log {s : State} {e : Event} (he : e.sampled = none) : Unsampled s (s.log e) :=
  ⟨rfl, .refl _, rfl, List.filterMap_cons_none he⟩

/-- A raise is no sample. -/
theorem raise_unsampled (e : Err) (s : State) : (raise e s : Res Unit).leaves (Unsampled s) :=
  unsampled_log (e := .raise e) rfl

theorem Kept.clockKept {n m : Nat} {s t : State} (h : Kept n m s t) : ClockKept s t := ⟨h.params, h.later, h.sampled⟩

theorem SessionEnd.clockKept {n : Nat} {s t : State} (h : SessionEnd n s t) : ClockKept s t :=
  ⟨h.params, h.later, h.sampled⟩

theorem ObserverOnly.unsampled {s t : State} (h : ObserverOnly s t) : Unsampled s t :=
  ⟨h.same.params, .of_eq h.clock, congrArg Clock.afterXact h.clock, h.counts.samples⟩

theorem XactTrail.unsampled {f : List Byte} {s t : State} (h : XactTrail f s t) : Unsampled s t :=
  ⟨h.same.params, h.later, h.afterXact, h.samples⟩

/-! ### The delay, the transaction and the sample -/

/-- A delay moves the clock on by its length. -/
theorem delay_time (why : Wait) (s : State) :
    (delay why s).clock.time = s.clock.time + waitTicks why s.params := by
  obtain ⟨_, _, _, _, clock⟩ := delay_fields why s
  rw [clock]

theorem delay_unsampled (why : Wait) (s : State) : Unsampled s (delay why s) := by
  obtain ⟨u, only, h⟩ := delay_spec why s
  obtain ⟨_, _, _, _, clock⟩ := delay_fields why s
  have samples : samplesOf (delay why s).trace = samplesOf s.trace := by
    rw [h]
    exact only.counts.samples
  refine ⟨(delay_same why s).params, ?_, ?_, samples⟩ <;> rw [clock]
  exact ⟨Nat.le_add_right _ _, Nat.le_refl _⟩

/-- However a transaction ends, it leaves its trail. -/
theorem xact_trail (c : Command) (f : List Byte) (s : State) : (xact c f s).leaves (XactTrail f s) := by
  rcases xact_cases c f s with ⟨t, h, done, _⟩ | ⟨info, t, h, trail, _⟩ | ⟨t, h, trail, _⟩ <;> rw [h]
  · exact done.toXactTrail
  · exact trail
  · exact trail

/-- A transaction that completes. -/
theorem xact_ok_done {c : Command} {f : List Byte} {s u : State} (h : xact c f s = .ok () u) : XactDone c f s u := by
  rcases xact_cases c f s with ⟨t, h', done, _⟩ | ⟨info, t, h', _⟩ | ⟨t, h', _⟩ <;> cases h.symm.trans h'
  exact done

/-- A sample is at least the earliest lawful one. -/
theorem least_le_now (s : State) : s.least ≤ (now s).1 := by
  obtain ⟨_, least, _⟩ := now_spec s
  exact least

/-- What a sample says of the clock and the next samples. -/
theorem now_clock (s : State) :
    (now s).2.clock =
      { s.clock with time := max s.clock.time ((now s).1 * s.params.unit), afterXact := (now s).1 + 1 } := by
  obtain ⟨_, _, h⟩ := now_spec s
  rw [h]

/-! ### Steps -/

/-- The end of a request changes neither the clock nor the events of what its lines leave. -/
theorem finish_unsampled {r : Res Unit} {P : State → Prop} {t : State} (hr : r.leaves P) (h : finish r = .next t) :
    ∃ u, P u ∧ Unsampled u t := by
  cases r with
  | fault f => cases h
  | _ => cases h; exact ⟨_, hr, .of_eq rfl rfl rfl⟩

theorem finishResult_unsampled {r : Res Unit} {P : State → Prop} {t : State} (hr : r.leaves P)
    (h : finishResult r = .next t) : ∃ u, P u ∧ Unsampled u t := by
  cases r with
  | fault f => cases h
  | _ => cases h; exact ⟨_, hr, .of_eq rfl rfl rfl⟩

/-- The end of a command's request, with or without results. -/
theorem runCommand_unsampled {c : Command} {target : Word} {P : State → Prop} {s t : State}
    (hr : (commandLines target s c).leaves P) (h : runCommand c target s = .next t) : ∃ u, P u ∧ Unsampled u t := by
  rw [runCommand] at h
  split at h
  · exact finish_unsampled hr h
  · exact finishResult_unsampled hr h

theorem EndsIn.leaves {s : State} {P : State → Prop} {r : Res Unit} (h : EndsIn s P r) : r.leaves P := by
  cases h with
  | ok u left => exact left
  | raised e u left => exact left
  | silent u left => exact left

theorem runCommand_clockKept {c : Command} {target : Word} {s t : State} (h : runCommand c target s = .next t) :
    ClockKept s t := by
  obtain ⟨u, left, ended⟩ := runCommand_unsampled (commandLines_endsIn c target s).leaves h
  exact left.toKept.clockKept.trans ended.clockKept

/-- The end of a poll in POLL_READY, from its entry or from a frame on. -/
theorem pollEnd_clockKept {s t : State} {r : Res Unit} (hr : EndsIn s (PollLeft s) r) (h : finishResult r = .next t) :
    ClockKept s t := by
  obtain ⟨u, left, ended⟩ := finishResult_unsampled hr.leaves h
  exact left.toKept.clockKept.trans ended.clockKept

theorem request_clockKept {i : Instr} {s t : State} (hi : IsRequest i) (h : exec i s = .next t) : ClockKept s t := by
  cases hi with
  | crcInit => cases h; exact Unsampled.clockKept (.of_eq rfl rfl rfl)
  | crcFeed b => cases h; exact Unsampled.clockKept (.of_eq rfl rfl rfl)
  | command c target => exact runCommand_clockKept ((exec_request c target s).symm.trans h)
  | pollReady => exact pollEnd_clockKept (pollLines_endsIn s) h
  | session onlyLast =>
    have entry : Unsampled s (sessionEntry onlyLast s) := .of_eq rfl rfl rfl
    exact entry.clockKept.trans (execSession_left h).clockKept

/-- Whatever request a frame resumes. -/
theorem frame_clockKept {c : Command} {target : Word} {s t : State} (h : exec (c.frame target) s = .next t) :
    ClockKept s t := by
  by_cases hop : s.seq.curOp = some 0xB#4
  · exact (exec_frame_session hop h).clockKept
  · rw [exec_frame] at h
    split at h
    · exact runCommand_clockKept h
    · exact pollEnd_clockKept (pollFrom_endsIn attempt_add_attemptsLeft) (resumed_poll hop h)

theorem hostAct_unsampled {a : HostAction} {s t : State} (h : hostAct a s = .next t) : Unsampled s t := by
  rcases hostAct_cases h with ⟨r, v, rfl⟩ | ⟨v, rfl⟩ | ⟨m, rfl⟩
  · exact unsampled_log rfl
  · exact .of_eq rfl rfl rfl
  · exact (observerMove_only m s).unsampled

/-- Every kind of step keeps the clock's order. -/
theorem step_clockKept {s t : State} (h : step s = .next t) : ClockKept s t := by
  have resumes (rest : List HostStep) : Unsampled s (s.setHost rest) := .of_eq rfl rfl rfl
  have accepts (r : BitVec 32) (rest : List HostStep) : Unsampled s (accept r (s.setHost rest)) := .of_eq rfl rfl rfl
  cases steps_of_step h with
  | waits => exact Unsampled.clockKept (.of_eq rfl rfl rfl)
  | acts a rest _ _ act => exact (resumes rest).clockKept.trans (hostAct_unsampled act).clockKept
  | illegal r rest _ _ ran =>
    obtain ⟨u, raised, ended⟩ := finish_unsampled (raise_unsampled _ _) ran
    exact (accepts r rest).clockKept.trans (raised.clockKept.trans ended.clockKept)
  | request r rest i _ _ decodes ran =>
    exact (accepts r rest).clockKept.trans (request_clockKept (isRequest_of_requestOp (decodeReq_op decodes)) ran)
  | frame c target _ _ _ _ ran => exact frame_clockKept ran

/-! ### The sample after a one-command request -/

section

variable {n : Nat} {t : State}

/-- A group check does not move the earliest lawful sample back. -/
theorem checkGroup_least {op : BitVec 4} {k : Nat} {next : Word → State → Res Unit} (ht : n ≤ t.least)
    (lines : ∀ w, (next w t).leaves (n ≤ ·.least)) : ((checkGroup op k t).andThen next).leaves (n ≤ ·.least) := by
  rcases checkGroup_cases op k t with ⟨w, h⟩ | ⟨info, h⟩ | h <;> rw [h]
  · exact lines w
  · exact ht
  · trivial

/-- Nor does a read of RXBUF. -/
theorem readRx_least {i : Nat} {next : Byte → State → Res Unit}
    (lines : ∀ b, (next b t).leaves (n ≤ ·.least)) : ((readRx i t).andThen next).leaves (n ≤ ·.least) := by
  rcases readRx_cases i t with ⟨b, h⟩ | h <;> rw [h]
  · exact lines b
  · trivial

theorem frcDecode_least (ht : n ≤ t.least) : (frcDecode t).leaves (n ≤ ·.least) := by
  refine readRx_least fun b0 => readRx_least fun b1 => ?_
  split
  · exact ht
  · exact checkGroup_least ht fun w => ht

end

/-- The lines after a command's exchange do not move the earliest lawful sample back. -/
theorem commandLines_least {n : Nat} {c : Command} {target : Word} {s u : State}
    (hx : xact c (wireFrame c target) s = .ok () u) (hu : n ≤ u.least) :
    (commandLines target s c).leaves (n ≤ ·.least) := by
  have exchanged {next : Unit → State → Res Unit} (lines : (next () u).leaves (n ≤ ·.least)) :
      ((xact c (wireFrame c target) s).andThen next).leaves (n ≤ ·.least) := by
    rw [hx]
    exact lines
  have written : (xact c (wireFrame c target) s).leaves (n ≤ ·.least) := by
    rw [hx]
    exact hu
  cases c with
  | getVariant => exact exchanged (checkGroup_least hu fun w => by split <;> exact hu)
  | selfTest => exact exchanged (checkGroup_least hu fun w => by split <;> exact hu)
  | getDrdy =>
    show ((queryReady s).andThen _).leaves _
    simp only [queryReady, Res.andThen_assoc]
    exact exchanged (checkGroup_least hu fun w => hu)
  | readMeas =>
    have sampled : n ≤ (now u).2.least := Nat.le_trans hu (least_le (now_same u).params (now_later u))
    exact exchanged (checkGroup_least hu fun w1 => checkGroup_least hu fun w2 => checkGroup_least hu fun w3 => sampled)
  | measSingle => exact written
  | startPeriodic => exact written
  | stopPeriodic => exact written
  | frc => exact exchanged (frcDecode_least hu)

/-- After a one-command request whose exchange completes, however its decoding ends, the next sample is past all
before. -/
theorem runCommand_afterXact {c : Command} {target : Word} {s t : State} {a : WriteAnswer} {r : ReadAnswer}
    {bytes : List Byte} (h : Answers s a r)
    (hx : exchangeOf (wireFrame c target).length c.respLen a r = .response bytes)
    (ht : runCommand c target s = .next t) : s.clock.afterXact ≤ t.least := by
  have exchange := xact_listed (c := c) (f := wireFrame c target) h
  rw [hx] at exchange
  obtain ⟨u, hu, done, _⟩ := exchange
  obtain ⟨v, least, ended⟩ := runCommand_unsampled (commandLines_least hu done.advanced) ht
  exact Nat.le_trans least ended.clockKept.least

/-- Settles O57: a sample is at least the earliest lawful one, which nothing moves back, and a completed transaction
lifts that one above the samples so far. -/
theorem clockLaws : Obligations.ClockLaws := by
  unfold Obligations.ClockLaws
  refine ⟨?sample, ?unsampled, ?xact, nofun, ?step, ?stepSample, ?request, ?waited, delay_time,
    fun s t h => (step_clockKept h).later.time⟩
  case sample =>
    intro s
    have next := least_le_now (now s).2
    rw [now_least] at next
    refine ⟨Nat.le_max_left _ _, least_le_now s, now_least s, next, ?_, ?_⟩ <;> rw [now_clock]
    exact Nat.le_max_right _ _
  case unsampled =>
    intro s t h
    have kept : Unsampled s t := by
      rcases h with ⟨why, rfl⟩ | ⟨m, rfl⟩ | ⟨c, f, h⟩
      · exact delay_unsampled why s
      · exact (observerMove_only m s).unsampled
      · have trail := xact_trail c f s
        rcases h with h | ⟨e, h⟩ | h <;> rw [h] at trail <;> exact XactTrail.unsampled trail
    exact ⟨kept.clockKept.least, kept.afterXact, kept.clockKept.sampled⟩
  case xact =>
    intro c f s u h
    have later := Nat.le_trans (xact_ok_done h).advanced (least_le_now u)
    exact ⟨later, fun sampled n hn => Nat.lt_of_lt_of_le (sampled n hn) later⟩
  case step => exact fun s t h => ⟨(step_clockKept h).least, (step_clockKept h).sampled⟩
  case stepSample =>
    intro s t h
    have sampled := (step_clockKept h).least
    rw [now_least] at sampled
    exact Nat.le_trans sampled (least_le_now t)
  case request =>
    intro target s t a r bytes h
    show ∀ x ∈ Command.all.map fun c => (c.request target, (wireFrame c target).length, c.respLen), _
    intro x hx response ran
    obtain ⟨c, _, rfl⟩ := List.mem_map.1 hx
    exact Nat.le_trans (runCommand_afterXact h response ((exec_request c target s).symm.trans ran)) (least_le_now t)
  case waited => exact fun c f s u h => (xact_ok_done h).waited

end Sys2Proof.Machine
end
